-- ==== Sys2Proof/Word.lean ====
section
/-! DEFINITION. The word types of GFHG, the content of a configuration cell, and the number of words a vector takes
(spec/00_scope.md R20, R22; spec/30_encoding.md R90, R94). -/

namespace Sys2Proof

/-- A command or response word: 64 bits, bit 0 least significant (R20, R73, R90). -/
abbrev Word := BitVec 64

/-- An 8-bit header or status field (R91). -/
abbrev Byte := BitVec 8

/-- What a configuration field holds (R22): nothing since reset, or a value.
`unwritten` is the spec's own content of a cell, not a missing reset value. -/
inductive Cell (α : Type) where
  | unwritten
  | val (v : α)
  deriving DecidableEq, Repr

/-- `nw(X) = ceil(X/64)`: the words a vector operand of width `X` takes, and `nw(0) = 0` (R94). -/
def nw (X : Nat) : Nat := (X + 63) / 64

end Sys2Proof
end

