-- ==== Sys2Proof/Config.lean ====
section
/-! DEFINITION. What is fixed for one GFHG: the parameter tuple of spec/00_scope.md R10, the set `TV` of R14, and the two
values the spec leaves open (the version rule of R163, the order between ports of R81) as constants without a body. -/

namespace Sys2Proof

/-- `CONFIG_RESET_POLICY` (R10, R62): what configuration fields hold after reset. -/
inductive ResetPolicy where
  | unwritten
  | zero
  deriving DecidableEq, Repr

/-- The parameter `VersionMatch` (R10, R163) as plain data: the reference instance (equality of tag and context version), or
the `n`-th rule of which nothing is known but that it is a total function (`Config.versionMatch`). Log entry 3. -/
inductive VersionRule where
  | reference
  | other (n : Nat)
  deriving DecidableEq, Repr

/-- The parameter tuple of R10. Every size is an argument of the model: a `State` carries the tuple it is built for. -/
structure Params where
  /-- number of hash units -/
  U : Nat
  /-- input lines per hash unit (matrix rows) -/
  M : Nat
  /-- hash output width (matrix columns) -/
  N : Nat
  /-- number of hash groups -/
  G : Nat
  /-- largest width of one hash group -/
  LMAX : Nat
  /-- gateway table rows -/
  ROWS : Nat
  /-- gateway tables per row -/
  TPR : Nat
  /-- entries per gateway table -/
  K : Nat
  /-- gateway comparison width -/
  W : Nat
  /-- version-tag width -/
  V : Nat
  /-- payload width -/
  P : Nat
  /-- number of thread contexts an evaluation may name -/
  THREADS : Nat
  /-- number of evaluation ports -/
  E : Nat
  versionRule : VersionRule
  resetPolicy : ResetPolicy
  deriving DecidableEq, Repr

/-- The parameter set `TV` (R14). -/
def Params.tv : Params :=
  { U := 2, M := 4, N := 4, G := 2, LMAX := 2, ROWS := 3, TPR := 2, K := 4, W := 8, V := 2, P := 8, THREADS := 2, E := 1,
    versionRule := .reference, resetPolicy := .unwritten }

/-- The tuple `State.reset` is built for: `TV`, the one tuple the spec gives a value for every parameter (log entry 2). -/
def Config.params : Params := Params.tv

/-- A version rule of which only its arguments are known (R163: "a total function of its three arguments alone"): the table's
`tmode` cell, the entry's tag, and the context's thread and version. It has no body, so no proof can use a value of it. -/
opaque Config.versionMatch (n V : Nat) (tmode : Cell (BitVec 8)) (ver : BitVec V) (thread : BitVec 4) (version : BitVec V) :
    Bool

/-- The choice among several ports that can step, where the schedule the environment gives names none (R81 leaves the order
between ports open). It has no body; it is applied to the counter `picks`. Log entry 5. -/
opaque Config.portChoice : Nat → Nat

end Sys2Proof
end

