-- ==== Sys2Proof/Syntax.lean ====
section
/-! DEFINITION. The syntax: command frames, the opcodes of spec/30_encoding.md R98, the status codes of
spec/60_exceptions.md R231, and `Instr`, one constructor for each row of spec/opcode_table.json. -/

namespace Sys2Proof

/-- A command frame (R90): one header word, then the data words. The transport delivers it whole, with its word count. A
delivery of no words at all, for which the spec gives no verdict, is no frame (the model's choice, log entry 19). -/
structure Frame where
  header : Word
  data : List Word
  deriving DecidableEq, Repr

/-- The sixteen defined opcodes (R98). -/
inductive Opcode where
  | nop
  | setCoef
  | setSeed
  | setGroup
  | setPmask
  | setGwEntry
  | setGwPayload
  | setGwSelect
  | commit
  | abort
  | clearErr
  | readStatus
  | hashRaw
  | hash
  | hgroup
  | gwEval
  deriving DecidableEq, Repr

/-- The status codes by name (R231). -/
inductive Status where
  | ok
  | illegalOpcode
  | portDenied
  | reservedNonzero
  | lengthMismatch
  | padNonzero
  | unitRange
  | rowRange
  | colRange
  | groupRange
  | groupBitRange
  | widthRange
  | tableRange
  | entryRange
  | versionRange
  | threadRange
  | loadFailed
  deriving DecidableEq, Repr

/-- The commands of GFHG (R98), each with the operands of its row. Header fields keep the width they have in the header; a
vector operand is the list of data words it arrives in (R95; log entry 12). -/
inductive Instr where
  /-- NOP (R210) -/
  | nop
  /-- SET_COEF u, r, c, bit (R181) -/
  | setCoef (u r c : BitVec 16) (bit : Bool)
  /-- SET_SEED u, seed (R182) -/
  | setSeed (u : BitVec 16) (seed : List Word)
  /-- SET_GROUP g, u, L (R183) -/
  | setGroup (g u L : BitVec 16)
  /-- SET_PMASK g, j, mask (R184) -/
  | setPmask (g j : BitVec 16) (mask : List Word)
  /-- SET_GW_ENTRY row:tbl, i, valid, version, value, dont_care (R185) -/
  | setGwEntry (row tbl : BitVec 8) (i version : BitVec 16) (valid : Bool) (value dontCare : List Word)
  /-- SET_GW_PAYLOAD row:tbl, i, payload (R186) -/
  | setGwPayload (row tbl : BitVec 8) (i : BitVec 16) (payload : List Word)
  /-- SET_GW_SELECT row:tbl, in0, in1, tmode (R187) -/
  | setGwSelect (row tbl : BitVec 8) (in0 in1 : BitVec 16) (tmode : BitVec 8)
  /-- COMMIT (R211) -/
  | commit
  /-- ABORT (R212) -/
  | abort
  /-- CLEAR_ERR (R213) -/
  | clearErr
  /-- READ_STATUS (R214) -/
  | readStatus
  /-- HASH_RAW u, x (R131) -/
  | hashRaw (u : BitVec 16) (x : List Word)
  /-- HASH u, x (R133) -/
  | hash (u : BitVec 16) (x : List Word)
  /-- HGROUP g, x (R135) -/
  | hgroup (g : BitVec 16) (x : List Word)
  /-- GW_EVAL row:tbl, thread, version, live (R161) -/
  | gwEval (row tbl : BitVec 8) (thread : BitVec 4) (version : BitVec 16) (live : List Word)
  deriving DecidableEq, Repr

end Sys2Proof
end

