-- ==== Sys2Proof/WellFormed.lean ====
section
/-! DEFINITION. Which instructions a frame of the parameter tuple can carry: every vector operand has the number of data
words that R94 (spec/30_encoding.md) gives it. The header fields are of the header's widths by their types, and range and
padding are not part of the form: a command that breaks them is decoded and then rejected (R232). -/

namespace Sys2Proof

/-- Every vector operand of the instruction has the word count of R94 under the parameters `p`. -/
def Instr.wf (p : Params) : Instr → Bool
  | .nop => true
  | .setCoef _ _ _ _ => true
  | .setSeed _ seed => seed.length == nw p.N
  | .setGroup _ _ _ => true
  | .setPmask _ _ mask => mask.length == nw p.N
  | .setGwEntry _ _ _ _ _ value dontCare => value.length == nw p.W && dontCare.length == nw p.W
  | .setGwPayload _ _ _ payload => payload.length == nw p.P
  | .setGwSelect _ _ _ _ _ => true
  | .commit => true
  | .abort => true
  | .clearErr => true
  | .readStatus => true
  | .hashRaw _ x => x.length == nw p.M
  | .hash _ x => x.length == nw p.M
  | .hgroup _ x => x.length == nw p.M
  | .gwEval _ _ _ _ live => live.length == nw p.W

end Sys2Proof
end

