-- ==== Sys2Proof/Decode.lean ====
section
/-! DEFINITION. The decoder (total on every frame, rejecting by status code) and the encoder, both from the tables of
spec/30_encoding.md R91 to R98, and the reading of a row's word as spec/opcode_table.json numbers its bits. -/

namespace Sys2Proof

/-! ## Header fields (R91 to R93) -/

/-- `H.OPC = H[7:0]`. -/
def Header.opc (h : Word) : BitVec 8 := h.extractLsb' 0 8
/-- `H.A = H[23:8]`. -/
def Header.a (h : Word) : BitVec 16 := h.extractLsb' 8 16
/-- `H.B = H[39:24]`. -/
def Header.b (h : Word) : BitVec 16 := h.extractLsb' 24 16
/-- `H.C = H[55:40]`. -/
def Header.c (h : Word) : BitVec 16 := h.extractLsb' 40 16
/-- `H.F = H[63:56]`. -/
def Header.f (h : Word) : BitVec 8 := h.extractLsb' 56 8
/-- The row of a gateway table address, `A[15:8]` (R93). -/
def Header.row (h : Word) : BitVec 8 := (Header.a h).extractLsb' 8 8
/-- The table within its row, `A[7:0]` (R93). -/
def Header.tbl (h : Word) : BitVec 8 := (Header.a h).extractLsb' 0 8
/-- The one flag `F[0]` of SET_COEF and SET_GW_ENTRY (R98). -/
def Header.flag (h : Word) : Bool := (Header.f h).getLsbD 0
/-- The thread `F[3:0]` of GW_EVAL (R98). -/
def Header.thread (h : Word) : BitVec 4 := (Header.f h).extractLsb' 0 4

/-- A header from its fields: `H = OPC + A·2^8 + B·2^24 + C·2^40 + F·2^56` (R91). -/
def Header.make (opc : BitVec 8) (a b c : BitVec 16) (f : BitVec 8) : Word := f ++ c ++ b ++ a ++ opc

/-! ## The opcode map (R94, R98, R100) -/

/-- The opcode byte (R98). -/
def Opcode.byte : Opcode → Byte
  | .nop => 0x00
  | .setCoef => 0x01
  | .setSeed => 0x02
  | .setGroup => 0x03
  | .setPmask => 0x04
  | .setGwEntry => 0x05
  | .setGwPayload => 0x06
  | .setGwSelect => 0x07
  | .commit => 0x10
  | .abort => 0x11
  | .clearErr => 0x12
  | .readStatus => 0x13
  | .hashRaw => 0x20
  | .hash => 0x21
  | .hgroup => 0x22
  | .gwEval => 0x23

/-- The defined opcodes in the order of R98. -/
def Opcode.all : List Opcode :=
  [.nop, .setCoef, .setSeed, .setGroup, .setPmask, .setGwEntry, .setGwPayload, .setGwSelect, .commit, .abort, .clearErr,
    .readStatus, .hashRaw, .hash, .hgroup, .gwEval]

/-- The opcode a byte selects, or none where it is reserved (R100). -/
def Opcode.ofByte (b : Byte) : Option Opcode := Opcode.all.find? fun op => op.byte == b

/-- The header bits that must be zero (R98, R101; the column `reserved_zero` of the opcode table). -/
def Opcode.reservedZero : Opcode → Word
  | .nop => 0xFFFFFFFFFFFFFF00
  | .setCoef => 0xFE00000000000000
  | .setSeed => 0xFFFFFFFFFF000000
  | .setGroup => 0xFF00000000000000
  | .setPmask => 0xFFFFFF0000000000
  | .setGwEntry => 0xFE00000000000000
  | .setGwPayload => 0xFFFFFF0000000000
  | .setGwSelect => 0x0000000000000000
  | .commit => 0xFFFFFFFFFFFFFF00
  | .abort => 0xFFFFFFFFFFFFFF00
  | .clearErr => 0xFFFFFFFFFFFFFF00
  | .readStatus => 0xFFFFFFFFFFFFFF00
  | .hashRaw => 0xFFFFFFFFFF000000
  | .hash => 0xFFFFFFFFFF000000
  | .hgroup => 0xFFFFFFFFFF000000
  | .gwEval => 0xF00000FFFF000000

/-- The number `D` of data words the opcode's frame has (R94). -/
def Opcode.dataWords (p : Params) : Opcode → Nat
  | .nop => 0
  | .setCoef => 0
  | .setSeed => nw p.N
  | .setGroup => 0
  | .setPmask => nw p.N
  | .setGwEntry => 2 * nw p.W
  | .setGwPayload => nw p.P
  | .setGwSelect => 0
  | .commit => 0
  | .abort => 0
  | .clearErr => 0
  | .readStatus => 0
  | .hashRaw => nw p.M
  | .hash => nw p.M
  | .hgroup => nw p.M
  | .gwEval => nw p.W

/-- Opcodes that only CFGP may issue (R57, R98). -/
def Opcode.cfgpOnly : Opcode → Bool
  | .nop => false
  | .setCoef => true
  | .setSeed => true
  | .setGroup => true
  | .setPmask => true
  | .setGwEntry => true
  | .setGwPayload => true
  | .setGwSelect => true
  | .commit => true
  | .abort => true
  | .clearErr => true
  | .readStatus => false
  | .hashRaw => false
  | .hash => false
  | .hgroup => false
  | .gwEval => false

/-- The configuration-write opcodes 0x01 to 0x07, whose rejections on CFGP are sticky (R231). -/
def isConfigWrite (opc : Byte) : Bool := 0x01 ≤ opc && opc ≤ 0x07

/-- The opcode of an instruction. -/
def Instr.opcode : Instr → Opcode
  | .nop => .nop
  | .setCoef _ _ _ _ => .setCoef
  | .setSeed _ _ => .setSeed
  | .setGroup _ _ _ => .setGroup
  | .setPmask _ _ _ => .setPmask
  | .setGwEntry _ _ _ _ _ _ _ => .setGwEntry
  | .setGwPayload _ _ _ _ => .setGwPayload
  | .setGwSelect _ _ _ _ _ => .setGwSelect
  | .commit => .commit
  | .abort => .abort
  | .clearErr => .clearErr
  | .readStatus => .readStatus
  | .hashRaw _ _ => .hashRaw
  | .hash _ _ => .hash
  | .hgroup _ _ => .hgroup
  | .gwEval _ _ _ _ _ => .gwEval

/-! ## Decoding -/

/-- The instruction of a frame whose opcode, reserved bits and length have been checked: each operand from the header field
or the data words that R94 and R98 name for it. -/
def Opcode.build (p : Params) (fr : Frame) : Opcode → Instr
  | .nop => .nop
  | .setCoef => .setCoef (Header.a fr.header) (Header.b fr.header) (Header.c fr.header) (Header.flag fr.header)
  | .setSeed => .setSeed (Header.a fr.header) fr.data
  | .setGroup => .setGroup (Header.a fr.header) (Header.b fr.header) (Header.c fr.header)
  | .setPmask => .setPmask (Header.a fr.header) (Header.b fr.header) fr.data
  | .setGwEntry =>
      .setGwEntry (Header.row fr.header) (Header.tbl fr.header) (Header.b fr.header) (Header.c fr.header)
        (Header.flag fr.header) (fr.data.take (nw p.W)) (fr.data.drop (nw p.W))
  | .setGwPayload => .setGwPayload (Header.row fr.header) (Header.tbl fr.header) (Header.b fr.header) fr.data
  | .setGwSelect =>
      .setGwSelect (Header.row fr.header) (Header.tbl fr.header) (Header.b fr.header) (Header.c fr.header)
        (Header.f fr.header)
  | .commit => .commit
  | .abort => .abort
  | .clearErr => .clearErr
  | .readStatus => .readStatus
  | .hashRaw => .hashRaw (Header.a fr.header) fr.data
  | .hash => .hash (Header.a fr.header) fr.data
  | .hgroup => .hgroup (Header.a fr.header) fr.data
  | .gwEval =>
      .gwEval (Header.row fr.header) (Header.tbl fr.header) (Header.thread fr.header) (Header.c fr.header) fr.data

/-- Decoding is total (R102). It makes the checks 1, 3 and 4 of R232 in their order: a reserved opcode, a reserved-zero bit
set, a wrong word count. The port (check 2), the ranges, the padding and `ERR` (checks 5 to 7) need the port and the state:
`State.rejectFrame` puts the port check before the decoder's 3 and 4, and each meaning makes its own 5 to 7 (log entry 13). -/
def decode (p : Params) (fr : Frame) : Except Status Instr :=
  match Opcode.ofByte (Header.opc fr.header) with
  | none => .error .illegalOpcode
  | some op =>
    if fr.header &&& op.reservedZero ≠ 0 then .error .reservedNonzero
    else if fr.data.length ≠ op.dataWords p then .error .lengthMismatch
    else .ok (op.build p fr)

/-! ## Encoding -/

/-- The byte of a one-bit flag: `F[0]`, and `F[7:1] = 0` (R98). -/
def flagByte (b : Bool) : BitVec 8 := if b then 1 else 0

/-- The header word of an instruction (R91, R98). -/
def Instr.header : Instr → Word
  | .nop => Header.make Opcode.nop.byte 0 0 0 0
  | .setCoef u r c bit => Header.make Opcode.setCoef.byte u r c (flagByte bit)
  | .setSeed u _ => Header.make Opcode.setSeed.byte u 0 0 0
  | .setGroup g u L => Header.make Opcode.setGroup.byte g u L 0
  | .setPmask g j _ => Header.make Opcode.setPmask.byte g j 0 0
  | .setGwEntry row tbl i version valid _ _ =>
      Header.make Opcode.setGwEntry.byte (row ++ tbl) i version (flagByte valid)
  | .setGwPayload row tbl i _ => Header.make Opcode.setGwPayload.byte (row ++ tbl) i 0 0
  | .setGwSelect row tbl in0 in1 tmode => Header.make Opcode.setGwSelect.byte (row ++ tbl) in0 in1 tmode
  | .commit => Header.make Opcode.commit.byte 0 0 0 0
  | .abort => Header.make Opcode.abort.byte 0 0 0 0
  | .clearErr => Header.make Opcode.clearErr.byte 0 0 0 0
  | .readStatus => Header.make Opcode.readStatus.byte 0 0 0 0
  | .hashRaw u _ => Header.make Opcode.hashRaw.byte u 0 0 0
  | .hash u _ => Header.make Opcode.hash.byte u 0 0 0
  | .hgroup g _ => Header.make Opcode.hgroup.byte g 0 0 0
  | .gwEval row tbl thread version _ =>
      Header.make Opcode.gwEval.byte (row ++ tbl) 0 version ((0 : BitVec 4) ++ thread)

/-- The data words of an instruction, its vector operands in frame order (R94, R95). -/
def Instr.data : Instr → List Word
  | .nop => []
  | .setCoef _ _ _ _ => []
  | .setSeed _ seed => seed
  | .setGroup _ _ _ => []
  | .setPmask _ _ mask => mask
  | .setGwEntry _ _ _ _ _ value dontCare => value ++ dontCare
  | .setGwPayload _ _ _ payload => payload
  | .setGwSelect _ _ _ _ _ => []
  | .commit => []
  | .abort => []
  | .clearErr => []
  | .readStatus => []
  | .hashRaw _ x => x
  | .hash _ x => x
  | .hgroup _ x => x
  | .gwEval _ _ _ _ live => live

/-- The frame of an instruction. -/
def encode (i : Instr) : Frame := { header := i.header, data := i.data }

/-! ## Vectors and words (R95, R96) -/

/-- The number whose bit `k` is bit `k mod 64` of word `k / 64` (R95). -/
def wordsToNat : List Word → Nat
  | [] => 0
  | w :: ws => w.toNat + 2 ^ 64 * wordsToNat ws

/-- `n` words of a number, the least significant first (R95). -/
def natToWords : Nat → Nat → List Word
  | 0, _ => []
  | n + 1, v => BitVec.ofNat 64 v :: natToWords n (v / 2 ^ 64)

/-- A vector of width `X` as `nw(X)` words with zero padding (R95, R96). -/
def vecWords {X : Nat} (v : BitVec X) : List Word := natToWords (nw X) v.toNat

/-! ## A row's word (the numbering of spec/opcode_table.json) -/

/-- The frame whose bits are the low `nbits` bits of `w`: bit 0 is bit 0 of the header word, bit 64 is bit 0 of the first
data word, and every bit from `nbits` on is 0. It has as many data words as its opcode takes (log entry 15). -/
def tableFrame (p : Params) (nbits w : Nat) : Frame :=
  let v := w % 2 ^ nbits
  let h : Word := BitVec.ofNat 64 v
  let d := match Opcode.ofByte (Header.opc h) with
    | some op => op.dataWords p
    | none => 0
  { header := h, data := natToWords d (v / 2 ^ 64) }

/-- The instruction the decoder reads from that frame under the parameters of `State.reset`, or none where it rejects. -/
def decodeTableWord (nbits w : Nat) : Option Instr :=
  match decode Config.params (tableFrame Config.params nbits w) with
  | .ok i => some i
  | .error _ => none

end Sys2Proof
end

