-- ==== Sys2Proof/Machine/State.lean ====
section
/-! DEFINITION. The state of GFHG (spec/10_state.md): the two configuration banks, `CFG_STATUS`, `GEN`, the ports with their
command streams, indexes and response streams, the fault record, and the model's own fields that say which port moves next.
All of it is plain data, its shapes fixed by the parameter tuple (R39), and `State.reset` is R62. -/

namespace Sys2Proof.Machine

/-! ## Configuration banks (R31 to R38) -/

/-- One gateway entry `gw[t][i]` (R36). `valid` is a plain bit (R37). -/
structure GwEntry (p : Params) where
  valid : Bool
  value : Cell (BitVec p.W)
  dc : Cell (BitVec p.W)
  ver : Cell (BitVec p.V)
  payload : Cell (BitVec p.P)
  deriving DecidableEq, Repr

/-- The selectors `gsel[t]` of one gateway table (R38). -/
structure GwSelect where
  in0 : Cell (BitVec 16)
  in1 : Cell (BitVec 16)
  tmode : Cell (BitVec 8)
  deriving DecidableEq, Repr

/-- One configuration bank (R31 to R38). -/
structure Bank (p : Params) where
  /-- `coef[u][r][c]` (R32) -/
  coef : Vector (Vector (Vector (Cell Bool) p.N) p.M) p.U
  /-- `seed[u]` (R33) -/
  seed : Vector (Cell (BitVec p.N)) p.U
  /-- `gunit[g]`, a unit index (R34; log entry 18) -/
  gunit : Vector (Cell (Fin p.U)) p.G
  /-- `gwidth[g]`, legal values 1 to LMAX (R34; log entry 18) -/
  gwidth : Vector (Cell Nat) p.G
  /-- `gmask[g][j]` (R35) -/
  gmask : Vector (Vector (Cell (BitVec p.N)) p.LMAX) p.G
  /-- `gw[t][i]`, `t = (row, tbl)` (R36) -/
  gw : Vector (Vector (Vector (GwEntry p) p.K) p.TPR) p.ROWS
  /-- `gsel[t]` (R38) -/
  gsel : Vector (Vector GwSelect p.TPR) p.ROWS
  deriving DecidableEq, Repr

/-! ## Status (R40 to R43) -/

/-- `CFG_STATUS` but for `GEN`, which has its own home in `Block`. The reserved bits hold nothing: they read 0 (R43), in
`CfgStatus.word0` and `CfgStatus.word1` (log entry 11). -/
structure CfgStatus where
  err : Bool
  code : Status
  capOpc : BitVec 8
  capA : BitVec 16
  capB : BitVec 16
  capC : BitVec 16
  capF : BitVec 8
  deriving DecidableEq, Repr

/-! ## Ports (R55 to R58) -/

/-- A port: CFGP, or one of the `E` evaluation ports (R55). -/
inductive Port (E : Nat) where
  | cfgp
  | evp (k : Fin E)
  deriving DecidableEq, Repr

/-- A response (R110): the word `R0`, then the result words. -/
structure Response where
  r0 : Word
  result : List Word
  deriving DecidableEq, Repr

/-- What one port holds: `prog[p]` and `pc[p]` (R56), and `resp[p]`, oldest first (R58). -/
structure PortState where
  prog : List Frame
  pc : Nat
  resp : List Response
  deriving DecidableEq, Repr

/-! ## The fault record (R46, R240) -/

/-- A field that `CfgRead` can find `Unwritten` (R22, R240). -/
inductive ConfigField where
  | coef (u r c : Nat)
  | seed (u : Nat)
  | gunit (g : Nat)
  | gwidth (g : Nat)
  | gmask (g j : Nat)
  | gwVer (row tbl i : Nat)
  | gwValue (row tbl i : Nat)
  | gwDc (row tbl i : Nat)
  | gwPayload (row tbl i : Nat)
  deriving DecidableEq, Repr

/-- One recorded fault `UnwrittenConfigRead(f)`: `(port p, pc[p], H.OPC, f)` (R240). -/
structure FaultRecord (E : Nat) where
  port : Port E
  pc : Nat
  opc : Opcode
  field : ConfigField
  deriving DecidableEq, Repr

/-! ## The environment's schedule (R81, R260) -/

/-- What the environment makes happen next: one port executes its next command (R81), or reset is applied (R260). -/
inductive Event (E : Nat) where
  | turn (q : Port E)
  | reset
  deriving DecidableEq, Repr

/-! ## The block and the machine's state -/

/-- Every piece of state of a GFHG with the parameters `p`. `schedule`, `picks` and `cur` are the model's own. -/
structure Block (p : Params) where
  /-- the staged bank `STG` (R31) -/
  stg : Bank p
  /-- the active bank `ACT` (R31) -/
  act : Bank p
  /-- `CFG_STATUS` (R40) -/
  status : CfgStatus
  /-- `GEN` (R45) -/
  gen : BitVec 32
  /-- `FAULT`, oldest first (R46) -/
  fault : List (FaultRecord p.E)
  /-- the configuration port (R55) -/
  cfgp : PortState
  /-- the evaluation ports (R55) -/
  evp : Vector PortState p.E
  /-- the port whose command is being executed (the model's own: exec's form has no port argument; log entry 6) -/
  cur : Port p.E
  /-- the order the environment chooses, the next event first (the model's own; log entry 5) -/
  schedule : List (Event p.E)
  /-- how many free choices between ports have been made (the model's own; log entry 5) -/
  picks : Nat
  deriving DecidableEq, Repr

/-- The machine's state: the parameter tuple, which nothing changes, and the block it describes. -/
structure State where
  params : Params
  block : Block params
  deriving DecidableEq, Repr

/-- Why a step can stop. Neither is raised by an instruction, whose outcome is always a next state: `Sys2Proof.Machine.step`
raises them where the spec gives the run no further step (log entry 8). -/
inductive Fault where
  /-- Raised by `step` in a final state: every port has consumed its stream and `FAULT` is empty, so the run is over (R275).
  Safe: the spec gives no step from such a state. -/
  | runOver
  /-- Raised by `step` where no port can step but the state is not final: every port that has not finished has faulted, and a
  port that faulted has no step (R240, R275). Safe: the spec says the run is stuck there. -/
  | stuck
  deriving DecidableEq, Repr

/-- Why the model gives no meaning (log entry 17). -/
inductive Refusal where
  /-- Raised by `exec` for an instruction without a meaning; no arm of `exec` raises it. Safe. -/
  | notModelled (mnemonic : String)
  /-- Raised by `step` for a parameter tuple that breaks a constraint of R10: it is not a GFHG (R13, R241). Safe. -/
  | illegalParameters
  deriving DecidableEq, Repr

/-! ## Reset (R62, R63) -/

/-- A configuration cell after reset: unwritten, or the given zero under `CONFIG_RESET_POLICY = Zero`. -/
def resetCell {α : Type} (p : Params) (zero : α) : Cell α :=
  match p.resetPolicy with
  | .unwritten => .unwritten
  | .zero => .val zero

/-- A `gunit` cell after reset. (Where `U = 0`, which R10 forbids, there is no unit 0 to name.) -/
def resetUnit (p : Params) : Cell (Fin p.U) :=
  if h : 0 < p.U then resetCell p ⟨0, h⟩ else .unwritten

/-- A bank after reset. Valid bits are 0 under either policy (R37), and a group's width resets to 1, not 0 (R63). -/
def Bank.reset (p : Params) : Bank p where
  coef := .replicate p.U (.replicate p.M (.replicate p.N (resetCell p false)))
  seed := .replicate p.U (resetCell p 0)
  gunit := .replicate p.G (resetUnit p)
  gwidth := .replicate p.G (resetCell p 1)
  gmask := .replicate p.G (.replicate p.LMAX (resetCell p 0))
  gw := .replicate p.ROWS (.replicate p.TPR (.replicate p.K
    { valid := false, value := resetCell p 0, dc := resetCell p 0, ver := resetCell p 0, payload := resetCell p 0 }))
  gsel := .replicate p.ROWS (.replicate p.TPR
    { in0 := resetCell p 0, in1 := resetCell p 0, tmode := resetCell p 0 })

/-- `CFG_STATUS` after reset: every field 0 (R62); the code 0x00 is `OK`. -/
def CfgStatus.reset : CfgStatus :=
  { err := false, code := .ok, capOpc := 0, capA := 0, capB := 0, capC := 0, capF := 0 }

/-- The block right after reset, with empty command streams (R62; log entries 4 to 7 for what the spec does not give). -/
def Block.reset (p : Params) : Block p where
  stg := Bank.reset p
  act := Bank.reset p
  status := CfgStatus.reset
  gen := 0
  fault := []
  cfgp := { prog := [], pc := 0, resp := [] }
  evp := .replicate p.E { prog := [], pc := 0, resp := [] }
  cur := .cfgp
  schedule := []
  picks := 0

/-- The machine right after reset, with the parameters of `Config.params`. -/
def State.reset : State := { params := Config.params, block := Block.reset Config.params }

end Sys2Proof.Machine
end

