-- ==== Sys2Proof/Machine/Flags.lean ====
section
/-! DEFINITION. GFHG has no persistent flags (spec/10_state.md R60): what stands for them is here, the status codes as bytes
(spec/60_exceptions.md R231), the two words of `CFG_STATUS` (R40, R43), and the first response word `R0` in each of its forms
(spec/30_encoding.md R110 to R115). -/

namespace Sys2Proof

/-- The status code as a byte (R231). -/
def Status.byte : Status → Byte
  | .ok => 0x00
  | .illegalOpcode => 0x01
  | .portDenied => 0x02
  | .reservedNonzero => 0x03
  | .lengthMismatch => 0x04
  | .padNonzero => 0x05
  | .unitRange => 0x06
  | .rowRange => 0x07
  | .colRange => 0x08
  | .groupRange => 0x09
  | .groupBitRange => 0x0A
  | .widthRange => 0x0B
  | .tableRange => 0x0C
  | .entryRange => 0x0D
  | .versionRange => 0x0E
  | .threadRange => 0x0F
  | .loadFailed => 0x10

end Sys2Proof

namespace Sys2Proof.Machine

/-! ## `CFG_STATUS` as words (R40) -/

/-- One bit as a vector of width 1. -/
def bit (b : Bool) : BitVec 1 := BitVec.ofBool b

/-- `STATUS0`: GEN [63:32], 0 [31:24], CAP_OPC [23:16], CODE [15:8], 0 [7:1], ERR [0]. -/
def CfgStatus.word0 (st : CfgStatus) (gen : BitVec 32) : Word :=
  gen ++ (0 : BitVec 8) ++ st.capOpc ++ st.code.byte ++ (0 : BitVec 7) ++ bit st.err

/-- `STATUS1`: 0 [63:56], CAP_F [55:48], CAP_C [47:32], CAP_B [31:16], CAP_A [15:0]. -/
def CfgStatus.word1 (st : CfgStatus) : Word :=
  (0 : BitVec 8) ++ st.capF ++ st.capC ++ st.capB ++ st.capA

/-! ## Responses (R110 to R115) -/

/-- `R0` (R110): the status code in [7:0], the opcode in [15:8], a 16-bit and a 32-bit field above them. -/
def respWord (hi : BitVec 32) (mid : BitVec 16) (opc : Byte) (c : Status) : Word := hi ++ mid ++ opc ++ c.byte

/-- A rejection: `R0[63:16] = 0` and no result words (R110). -/
def rejection (opc : Byte) (c : Status) : Response := { r0 := respWord 0 0 opc c, result := [] }

/-- `OK` with no result (R111). -/
def okResponse (op : Opcode) : Response := { r0 := respWord 0 0 op.byte .ok, result := [] }

/-- `OK` of COMMIT: the new GEN in `R0[63:32]` (R115). -/
def commitResponse (gen : BitVec 32) : Response := { r0 := respWord gen 0 Opcode.commit.byte .ok, result := [] }

/-- `OK` of READ_STATUS: the two status words (R115). -/
def statusResponse (st : CfgStatus) (gen : BitVec 32) : Response :=
  { r0 := respWord 0 0 Opcode.readStatus.byte .ok, result := [st.word0 gen, st.word1] }

/-- `OK` of HASH_RAW and HASH: GEN, and the N-bit result (R112). -/
def hashResponse {n : Nat} (op : Opcode) (gen : BitVec 32) (h : BitVec n) : Response :=
  { r0 := respWord gen 0 op.byte .ok, result := vecWords h }

/-- `OK` of HGROUP: GEN, the width in `R0[31:16]`, and the value zero-extended to LMAX bits (R113). -/
def groupResponse {n : Nat} (gen : BitVec 32) (L : Nat) (out : BitVec n) : Response :=
  { r0 := respWord gen (BitVec.ofNat 16 L) Opcode.hgroup.byte .ok, result := vecWords out }

/-- The source's `GatewayResult` (R114): `none` for index and payload on a miss. -/
structure GatewayResult (P : Nat) where
  hit : Bool
  index : Option Nat
  payload : Option (BitVec P)
  deriving DecidableEq, Repr

/-- The miss result (R162). -/
def GatewayResult.miss (P : Nat) : GatewayResult P := { hit := false, index := none, payload := none }

/-- `OK` of GW_EVAL: hit in `R0[16]`, 0 in [23:17], index in [31:24], GEN in [63:32], then the payload words; the fields of
a miss are 0, the encoding of `None` (R114). -/
def gatewayResponse {P : Nat} (gen : BitVec 32) (r : GatewayResult P) : Response :=
  { r0 := respWord gen (BitVec.ofNat 8 (r.index.getD 0) ++ (0 : BitVec 7) ++ bit r.hit) Opcode.gwEval.byte .ok,
    result := vecWords (r.payload.getD 0) }

end Sys2Proof.Machine
end

