-- ==== Sys2Proof/Machine/Operands.lean ====
section
/-! DEFINITION. Operands: the range checks of the header fields and the padding check of the vector operands in the forms
spec/60_exceptions.md R231 and R232 give them, the read of a configuration cell (spec/00_scope.md R22), and the loops of the
spec's pseudocode over indices and bits (R21, R24). -/

namespace Sys2Proof.Machine

/-! ## Range and padding checks -/

/-- An index field against its limit: the index, or the range error `code` (R71, R92). No index wraps or is truncated. -/
def index (n : Nat) (code : Status) (v : Nat) : Except Status (Fin n) :=
  if h : v < n then .ok ⟨v, h⟩ else .error code

/-- A value against a width: the vector, or the error `code` where it needs more bits. It is never truncated (R96). -/
def fits (X : Nat) (code : Status) (v : Nat) : Except Status (BitVec X) :=
  if v < 2 ^ X then .ok (BitVec.ofNat X v) else .error code

/-- The address of a gateway table (R93). -/
structure TableAddr (p : Params) where
  row : Fin p.ROWS
  tbl : Fin p.TPR
  deriving DecidableEq, Repr

/-- A table address in field A: in range when `row < ROWS` and `tbl < TPR` (R93, `TABLE_RANGE`). -/
def tableOperand (p : Params) (row tbl : BitVec 8) : Except Status (TableAddr p) := do
  let r ← index p.ROWS .tableRange row.toNat
  let t ← index p.TPR .tableRange tbl.toNat
  return { row := r, tbl := t }

/-- A group width in field C: `1 <= L <= LMAX` (R183, `WIDTH_RANGE`). -/
def widthOperand (p : Params) (L : BitVec 16) : Except Status Nat :=
  if 1 ≤ L.toNat ∧ L.toNat ≤ p.LMAX then .ok L.toNat else .error .widthRange

/-- A version in field C: `H.C < 2^V` (R101, `VERSION_RANGE`). -/
def versionOperand (p : Params) (version : BitVec 16) : Except Status (BitVec p.V) :=
  fits p.V .versionRange version.toNat

/-- A thread in field `F[3:0]`: below THREADS (R161, `THREAD_RANGE`). -/
def threadOperand (p : Params) (thread : BitVec 4) : Except Status (BitVec 4) :=
  if thread.toNat < p.THREADS then .ok thread else .error .threadRange

/-- A vector operand of width `X` from its data words: every bit from `X` on is padding and must be 0 (R95, R96). -/
def vectorOperand (X : Nat) (ws : List Word) : Except Status (BitVec X) := fits X .padNonzero (wordsToNat ws)

/-! ## Reading a cell -/

/-- `CfgRead` (R22): the value, or the fault on the field `f`. -/
def readCell {α : Type} (f : ConfigField) : Cell α → Except ConfigField α
  | .unwritten => .error f
  | .val v => .ok v

/-- Whether a cell holds a value. -/
def isWritten {α : Type} : Cell α → Bool
  | .unwritten => false
  | .val _ => true

/-! ## Loops over indices -/

/-- `XOR over i in 0..n of f i` (R21). -/
def xorOver : (n : Nat) → (Fin n → Bool) → Bool
  | 0, _ => false
  | n + 1, f => xorOver n (fun i => f i.castSucc) ^^ f (Fin.last n)

/-- The vector of width `n` whose bit `i` is `f i` (R20). -/
def bitsOf : (n : Nat) → (Fin n → Bool) → BitVec n
  | 0, _ => 0
  | n + 1, f => BitVec.cons (f (Fin.last n)) (bitsOf n fun i => f i.castSucc)

/-- The first answer of `f` in ascending order of index, if any. -/
def firstOver {α : Type} : (n : Nat) → (Fin n → Option α) → Option α
  | 0, _ => none
  | n + 1, f =>
    match firstOver n fun i => f i.castSucc with
    | some a => some a
    | none => f (Fin.last n)

/-- `parity(v)`: the XOR of all bits of `v`, 0 for the empty or all-zero vector (R21). -/
def parity {n : Nat} (v : BitVec n) : Bool := xorOver n fun i => v.getLsbD i

end Sys2Proof.Machine
end

