-- ==== Sys2Proof/Machine/Ops.lean ====
section
/-! DEFINITION. The shared operations: the constraints on a parameter tuple, the access to the configuration spaces, a port's
response and advance, the rejection of a command and the recording of a fault (GFHG's "trap entry", spec/60_exceptions.md
R233, R234, R237, R240; there is no trap return, R237), the frame every command has (port check, checks, effect), reset, and
the choice of the port that moves next. -/

namespace Sys2Proof.Machine

/-! ## The constraints of R10 -/

/-- `lo <= v <= hi`. -/
def within (lo hi v : Nat) : Bool := lo ≤ v && v ≤ hi

/-- The constraints of R10 on a parameter tuple, in its order. A tuple that breaks one is not a GFHG (R13; log entry
17). -/
def legalParams (p : Params) : Bool :=
  [within 1 65536 p.U, within 1 65536 p.M, within 1 65536 p.N, within 0 65536 p.G, within 1 65536 p.LMAX,
    within 1 256 p.ROWS, within 1 256 p.TPR, within 0 256 p.K, within 1 65536 p.W, within 0 16 p.V, within 0 65536 p.P,
    within 1 16 p.THREADS, decide (1 ≤ p.E)].all fun ok => ok

/-! ## Access to a bank -/

variable {p : Params}

/-- A vector with the element at `i` replaced. -/
def put {α : Type} {n : Nat} (v : Vector α n) (i : Fin n) (x : α) : Vector α n := v.set i.val x i.isLt

/-- The cell `coef[u][r][c]` (R32). -/
def Bank.coefAt (b : Bank p) (u : Fin p.U) (r : Fin p.M) (c : Fin p.N) : Cell Bool := ((b.coef.get u).get r).get c

/-- The cell `gmask[g][j]` (R35). -/
def Bank.maskAt (b : Bank p) (g : Fin p.G) (j : Fin p.LMAX) : Cell (BitVec p.N) := (b.gmask.get g).get j

/-- The entry `gw[t][i]` (R36). -/
def Bank.entryAt (b : Bank p) (t : TableAddr p) (i : Fin p.K) : GwEntry p := ((b.gw.get t.row).get t.tbl).get i

/-- The selectors `gsel[t]` (R38). -/
def Bank.selectAt (b : Bank p) (t : TableAddr p) : GwSelect := (b.gsel.get t.row).get t.tbl

/-- Write `coef[u][r][c]`. -/
def Bank.setCoef (b : Bank p) (u : Fin p.U) (r : Fin p.M) (c : Fin p.N) (v : Bool) : Bank p :=
  { b with coef := put b.coef u (put (b.coef.get u) r (put ((b.coef.get u).get r) c (.val v))) }

/-- Write `seed[u]`. -/
def Bank.setSeed (b : Bank p) (u : Fin p.U) (v : BitVec p.N) : Bank p := { b with seed := put b.seed u (.val v) }

/-- Write `gunit[g]` and `gwidth[g]` together. -/
def Bank.setGroup (b : Bank p) (g : Fin p.G) (u : Fin p.U) (L : Nat) : Bank p :=
  { b with gunit := put b.gunit g (.val u), gwidth := put b.gwidth g (.val L) }

/-- Write `gmask[g][j]`. -/
def Bank.setMask (b : Bank p) (g : Fin p.G) (j : Fin p.LMAX) (v : BitVec p.N) : Bank p :=
  { b with gmask := put b.gmask g (put (b.gmask.get g) j (.val v)) }

/-- Write the entry `gw[t][i]` whole. -/
def Bank.setEntry (b : Bank p) (t : TableAddr p) (i : Fin p.K) (e : GwEntry p) : Bank p :=
  { b with gw := put b.gw t.row (put (b.gw.get t.row) t.tbl (put ((b.gw.get t.row).get t.tbl) i e)) }

/-- Write the selectors `gsel[t]` together. -/
def Bank.setSelect (b : Bank p) (t : TableAddr p) (x : GwSelect) : Bank p :=
  { b with gsel := put b.gsel t.row (put (b.gsel.get t.row) t.tbl x) }

/-- The selectors GFHG exports to the external live-word multiplexer: `ACT.gsel[t]` whole, `tmode` with `in0` and `in1` (R58,
R70, R160). Log entry 16: R38 and R160 name only `in0` and `in1` as what that circuit uses. -/
def Block.exported (m : Block p) (t : TableAddr p) : GwSelect := m.act.selectAt t

/-! ## Ports -/

/-- What port `q` holds. -/
def Block.port (m : Block p) : Port p.E → PortState
  | .cfgp => m.cfgp
  | .evp k => m.evp.get k

/-- The block with what port `q` holds replaced. -/
def Block.setPort (m : Block p) (q : Port p.E) (ps : PortState) : Block p :=
  { m with
    cfgp := match q with
      | .cfgp => ps
      | .evp _ => m.cfgp
    evp := match q with
      | .cfgp => m.evp
      | .evp k => put m.evp k ps }

/-- The command completes: its response is appended and `pc <- pc + 1`, on the port that issued it (R56, R58, R110). -/
def Block.complete (m : Block p) (r : Response) : Block p :=
  m.setPort m.cur
    { prog := (m.port m.cur).prog, pc := (m.port m.cur).pc + 1, resp := (m.port m.cur).resp ++ [r] }

/-- Whether the port in turn may issue the opcode (R57, R235, R245). -/
def Block.allows (m : Block p) (op : Opcode) : Bool := m.cur == .cfgp || !op.cfgpOnly

/-! ## Rejections and faults (R233, R234, R240) -/

/-- The capture of R233: the first failure is recorded, a later one leaves it (R42, R238). -/
def CfgStatus.capture (st : CfgStatus) (h : Word) (c : Status) : CfgStatus :=
  if st.err then st
  else
    { err := true, code := c, capOpc := Header.opc h, capA := Header.a h, capB := Header.b h, capC := Header.c h,
      capF := Header.f h }

/-- `raise ConfigError(code)`, the sticky path (R233). -/
def Block.configError (m : Block p) (h : Word) (c : Status) : Block p :=
  { m with status := m.status.capture h c }.complete (rejection (Header.opc h) c)

/-- `raise ConfigMismatch(code)`, the non-sticky path (R234). -/
def Block.configMismatch (m : Block p) (h : Word) (c : Status) : Block p := m.complete (rejection (Header.opc h) c)

/-- The rejection of the command with header `h` and code `c`: sticky where it is a configuration write issued on CFGP,
non-sticky everywhere else (R231). -/
def Block.reject (m : Block p) (h : Word) (c : Status) : Block p :=
  if isConfigWrite (Header.opc h) && m.cur == .cfgp then m.configError h c else m.configMismatch h c

/-- The fault `UnwrittenConfigRead(f)` (R240): it is recorded; there is no response and `pc` stays (R116;
log entry 1). -/
def Block.recordFault (m : Block p) (op : Opcode) (f : ConfigField) : Block p :=
  { m with fault := m.fault ++ [{ port := m.cur, pc := (m.port m.cur).pc, opc := op, field := f }] }

/-! ## The three endings of a command -/

/-- A configuration write whose checks pass: the new staged bank, `OK`, and the advance (R180). -/
def Block.stage (m : Block p) (op : Opcode) (b : Bank p) : Block p := { m with stg := b }.complete (okResponse op)

/-- The end of an evaluation: its response, or the fault its reads raised (R230). -/
def Block.answer (m : Block p) (op : Opcode) : Except ConfigField Response → Block p
  | .ok r => m.complete r
  | .error f => m.recordFault op f

/-- The frame of every command (R230, R232): the port check, then the instruction's own checks and effect. A failed check
rejects the command with its header (R231). -/
def State.command (s : State) (i : Instr) (body : Except Status (Block s.params)) :
    Host.Outcome State Fault Refusal :=
  .next { params := s.params
          block :=
            if s.block.allows i.opcode then
              match body with
              | .ok m => m
              | .error c => s.block.reject i.header c
            else s.block.reject i.header .portDenied }

/-- The code a frame is rejected with that the decoder rejects with `c`: the port check stands before the decoder's checks of
the reserved bits and of the length, and after its check of the opcode (R232). -/
def Block.frameCode (m : Block p) (h : Word) (c : Status) : Status :=
  match Opcode.ofByte (Header.opc h) with
  | none => c
  | some op => if m.allows op then c else .portDenied

/-- The rejection of a frame the decoder does not take (R102, R232). -/
def State.rejectFrame (s : State) (h : Word) (c : Status) : State :=
  { params := s.params, block := s.block.reject h (s.block.frameCode h c) }

/-! ## Reset (R260) and the end of a run (R275) -/

/-- Reset is applied: every piece of state takes its value of R62 in one step, on every port at once. The command streams
are the host's and stay, as does what the environment still has in its schedule (R56, R86, R261; log entry 9). -/
def Block.applyReset (m : Block p) : Block p :=
  { Block.reset p with
    cfgp := { prog := m.cfgp.prog, pc := 0, resp := [] }
    evp := m.evp.map fun ps => { prog := ps.prog, pc := 0, resp := [] }
    schedule := m.schedule
    picks := m.picks }

/-- The ports, CFGP first (R55). -/
def allPorts (E : Nat) : List (Port E) := .cfgp :: (List.finRange E).map .evp

/-- Port `q` has finished: `pc[q] = length(prog[q])` (R56). -/
def Block.finished (m : Block p) (q : Port p.E) : Bool := (m.port q).pc == (m.port q).prog.length

/-- Port `q` has faulted, and so has no further step (R240). -/
def Block.faulted (m : Block p) (q : Port p.E) : Bool := m.fault.any fun r => r.port == q

/-- A final state: every port has finished and `FAULT` is empty (R275). -/
def Block.final (m : Block p) : Bool := m.fault.isEmpty && (allPorts p.E).all m.finished

/-! ## Which port moves next (R81) -/

/-- The frame that port `q` would execute next, if it can step. -/
def Block.pending (m : Block p) (q : Port p.E) : Option Frame :=
  if m.faulted q then none else (m.port q).prog[(m.port q).pc]?

/-- What the next step does: apply reset, or serve a frame; in either case the block with the schedule moved on and, for a
frame, the port in turn noted. -/
inductive Turn (p : Params) where
  | reset (m : Block p)
  | serve (fr : Frame) (m : Block p)
  deriving DecidableEq, Repr

/-- The first event of the schedule that can happen. A turn of a port that cannot step names no step (R81) and is passed
over (log entry 10). -/
def Block.scheduled (m : Block p) : List (Event p.E) → Option (Turn p)
  | [] => none
  | .reset :: es => some (.reset { m with schedule := es })
  | .turn q :: es =>
    match m.pending q with
    | some fr => some (.serve fr { m with schedule := es, cur := q })
    | none => m.scheduled es

/-- The ports that can step, each with the frame it would execute. -/
def Block.ready (m : Block p) : List (Port p.E × Frame) :=
  (allPorts p.E).filterMap fun q => (m.pending q).map fun fr => (q, fr)

/-- The turn where the schedule names none: the only port that can step, or one of several by a free choice (R81; log
entry 5). -/
def Block.unscheduled (m : Block p) : Option (Turn p) :=
  match m.ready with
  | [] => none
  | [(q, fr)] => some (.serve fr { m with schedule := [], cur := q })
  | (q, fr) :: x :: xs =>
    let chosen := ((q, fr) :: x :: xs).getD (Config.portChoice m.picks % (xs.length + 2)) (q, fr)
    some (.serve chosen.2 { m with schedule := [], cur := chosen.1, picks := m.picks + 1 })

/-- The next turn, if any port can step or reset is due. -/
def Block.nextTurn (m : Block p) : Option (Turn p) :=
  match m.scheduled m.schedule with
  | some t => some t
  | none => m.unscheduled

end Sys2Proof.Machine
end

