-- ==== Sys2Proof/Machine/ConfigWrite.lean ====
section
/-! DEFINITION. The seven configuration writes (spec/42_config.md R180 to R187). Each makes its range checks in the order of
the header fields A, B, C, then its padding checks in frame order (R232), and then writes the staged bank alone. A write is
performed even while `ERR = 1` (R180). -/

namespace Sys2Proof.Machine

/-- SET_COEF u, r, c, bit (R181). -/
def execSetCoef (u r c : BitVec 16) (bit : Bool) (s : State) : Host.Outcome State Fault Refusal :=
  s.command (.setCoef u r c bit) do
    let u ← index s.params.U .unitRange u.toNat
    let r ← index s.params.M .rowRange r.toNat
    let c ← index s.params.N .colRange c.toNat
    return s.block.stage .setCoef (s.block.stg.setCoef u r c bit)

/-- SET_SEED u, seed (R182). -/
def execSetSeed (u : BitVec 16) (seed : List Word) (s : State) : Host.Outcome State Fault Refusal :=
  s.command (.setSeed u seed) do
    let u ← index s.params.U .unitRange u.toNat
    let seed ← vectorOperand s.params.N seed
    return s.block.stage .setSeed (s.block.stg.setSeed u seed)

/-- SET_GROUP g, u, L (R183): both cells change together. -/
def execSetGroup (g u L : BitVec 16) (s : State) : Host.Outcome State Fault Refusal :=
  s.command (.setGroup g u L) do
    let g ← index s.params.G .groupRange g.toNat
    let u ← index s.params.U .unitRange u.toNat
    let L ← widthOperand s.params L
    return s.block.stage .setGroup (s.block.stg.setGroup g u L)

/-- SET_PMASK g, j, mask (R184): `j` is checked against LMAX, not against the group's width. -/
def execSetPmask (g j : BitVec 16) (mask : List Word) (s : State) : Host.Outcome State Fault Refusal :=
  s.command (.setPmask g j mask) do
    let g ← index s.params.G .groupRange g.toNat
    let j ← index s.params.LMAX .groupBitRange j.toNat
    let mask ← vectorOperand s.params.N mask
    return s.block.stage .setPmask (s.block.stg.setMask g j mask)

/-- SET_GW_ENTRY row:tbl, i, valid, version, value, dont_care (R185): four fields change together, `payload` is not
touched; with `valid = 0` the other three are still written. -/
def execSetGwEntry (row tbl : BitVec 8) (i version : BitVec 16) (valid : Bool) (value dontCare : List Word) (s : State) :
    Host.Outcome State Fault Refusal :=
  s.command (.setGwEntry row tbl i version valid value dontCare) do
    let t ← tableOperand s.params row tbl
    let i ← index s.params.K .entryRange i.toNat
    let ver ← versionOperand s.params version
    let value ← vectorOperand s.params.W value
    let dc ← vectorOperand s.params.W dontCare
    return s.block.stage .setGwEntry (s.block.stg.setEntry t i
      { s.block.stg.entryAt t i with valid := valid, value := .val value, dc := .val dc, ver := .val ver })

/-- SET_GW_PAYLOAD row:tbl, i, payload (R186). -/
def execSetGwPayload (row tbl : BitVec 8) (i : BitVec 16) (payload : List Word) (s : State) :
    Host.Outcome State Fault Refusal :=
  s.command (.setGwPayload row tbl i payload) do
    let t ← tableOperand s.params row tbl
    let i ← index s.params.K .entryRange i.toNat
    let payload ← vectorOperand s.params.P payload
    return s.block.stage .setGwPayload (s.block.stg.setEntry t i
      { s.block.stg.entryAt t i with payload := .val payload })

/-- SET_GW_SELECT row:tbl, in0, in1, tmode (R187): every value is accepted, and the three cells change together. -/
def execSetGwSelect (row tbl : BitVec 8) (in0 in1 : BitVec 16) (tmode : BitVec 8) (s : State) :
    Host.Outcome State Fault Refusal :=
  s.command (.setGwSelect row tbl in0 in1 tmode) do
    let t ← tableOperand s.params row tbl
    return s.block.stage .setGwSelect (s.block.stg.setSelect t
      { in0 := .val in0, in1 := .val in1, tmode := .val tmode })

end Sys2Proof.Machine
end

