-- ==== Sys2Proof/Machine/Control.lean ====
section
/-! DEFINITION. The control commands: NOP, COMMIT, ABORT, CLEAR_ERR, READ_STATUS (spec/43_control.md). -/

namespace Sys2Proof.Machine

/-- NOP (R210). -/
def execNop (s : State) : Host.Outcome State Fault Refusal :=
  s.command .nop (.ok (s.block.complete (okResponse .nop)))

/-- COMMIT (R211): refused with `LOAD_FAILED` while `ERR = 1`; else `ACT <- STG` and `GEN <- (GEN + 1) mod 2^32` in one
step, and the response carries the new `GEN`. -/
def execCommit (s : State) : Host.Outcome State Fault Refusal :=
  s.command .commit
    (if s.block.status.err then .error .loadFailed
     else .ok ({ s.block with act := s.block.stg, gen := s.block.gen + 1 }.complete (commitResponse (s.block.gen + 1))))

/-- ABORT (R212): `STG <- ACT`, and `ERR` and the captures become 0; `ACT` and `GEN` stay. -/
def execAbort (s : State) : Host.Outcome State Fault Refusal :=
  s.command .abort
    (.ok ({ s.block with stg := s.block.act, status := CfgStatus.reset }.complete (okResponse .abort)))

/-- CLEAR_ERR (R213): `ERR` and the captures become 0; the staged bank stays. -/
def execClearErr (s : State) : Host.Outcome State Fault Refusal :=
  s.command .clearErr (.ok ({ s.block with status := CfgStatus.reset }.complete (okResponse .clearErr)))

/-- READ_STATUS (R214): `STATUS0` and `STATUS1`, without side effect. -/
def execReadStatus (s : State) : Host.Outcome State Fault Refusal :=
  s.command .readStatus (.ok (s.block.complete (statusResponse s.block.status s.block.gen)))

end Sys2Proof.Machine
end

