-- ==== Sys2Proof/Machine/Gateway.lean ====
section
/-! DEFINITION. The evaluation command of the gateway predicate table: GW_EVAL (spec/41_gateway.md). -/

namespace Sys2Proof.Machine

variable {p : Params}

/-- The evaluation's context `(thread, version)` (R161). -/
structure Context (V : Nat) where
  thread : BitVec 4
  version : BitVec V
  deriving DecidableEq, Repr

/-- `VersionMatch(tm, ver, ctx)` (R163): the reference instance is equality of the tag and the context's version, which
ignores `tm` and the thread; every other rule is `Config.versionMatch`. -/
def versionMatches (p : Params) (tm : Cell (BitVec 8)) (ver : BitVec p.V) (ctx : Context p.V) : Bool :=
  match p.versionRule with
  | .reference => ver == ctx.version
  | .other n => Config.versionMatch n p.V tm ver ctx.thread ctx.version

/-- Steps 1a and 1b of the scan for the entry `i` of table `t` (R162): valid, version, then the masked comparison
`(live ^ value) & ~dc == 0`. An invalid entry's cells are not read; after a failed version test neither are `value` and
`dc` (R168). -/
def entryPasses (b : Bank p) (t : TableAddr p) (live : BitVec p.W) (ctx : Context p.V) (i : Fin p.K) :
    Except ConfigField Bool := do
  let e := b.entryAt t i
  if e.valid then
    let ver ← readCell (.gwVer t.row t.tbl i) e.ver
    if versionMatches p (b.selectAt t).tmode ver ctx then
      let value ← readCell (.gwValue t.row t.tbl i) e.value
      let dc ← readCell (.gwDc t.row t.tbl i) e.dc
      return ((live ^^^ value) &&& ~~~dc) == 0
    else return false
  else return false

/-- What the scan does at entry `i`: nothing (go on), a fault, or the hit with the winner's payload (R162, step 1c). -/
def entryOutcome (b : Bank p) (t : TableAddr p) (live : BitVec p.W) (ctx : Context p.V) (i : Fin p.K) :
    Option (Except ConfigField (GatewayResult p.P)) :=
  match entryPasses b t live ctx i with
  | .error f => some (.error f)
  | .ok false => none
  | .ok true =>
    some do
      let payload ← readCell (.gwPayload t.row t.tbl i) (b.entryAt t i).payload
      return { hit := true, index := some i.val, payload := some payload }

/-- `Evaluate(B, t, live, ctx)` (R162): entries in ascending index, the first that passes wins (R164); a miss where none
does. -/
def evaluate (b : Bank p) (t : TableAddr p) (live : BitVec p.W) (ctx : Context p.V) :
    Except ConfigField (GatewayResult p.P) :=
  match firstOver p.K (entryOutcome b t live ctx) with
  | some r => r
  | none => .ok (GatewayResult.miss p.P)

/-- GW_EVAL row:tbl, thread, version, live (R161): evaluate one gateway table of `ACT`. A miss is a normal result (R166). -/
def execGwEval (row tbl : BitVec 8) (thread : BitVec 4) (version : BitVec 16) (live : List Word) (s : State) :
    Host.Outcome State Fault Refusal :=
  s.command (.gwEval row tbl thread version live) do
    let t ← tableOperand s.params row tbl
    let ver ← versionOperand s.params version
    let th ← threadOperand s.params thread
    let live ← vectorOperand s.params.W live
    return s.block.answer .gwEval do
      let r ← evaluate s.block.act t live { thread := th, version := ver }
      return gatewayResponse s.block.gen r

end Sys2Proof.Machine
end

