-- ==== Sys2Proof/Machine/Hash.lean ====
section
/-! DEFINITION. The evaluation commands of the hash engine: HASH_RAW, HASH, HGROUP (spec/40_hash.md). -/

namespace Sys2Proof.Machine

variable {p : Params}

/-! ## Shared functions (R130, R132, R134) -/

/-- The bit a coefficient cell holds; `Compute` uses it only where every coefficient of the unit is written. -/
def coefBit : Cell Bool → Bool
  | .unwritten => false
  | .val b => b

/-- The first unwritten coefficient of unit `u`, rows ascending and within a row columns ascending (R130). -/
def firstUnwrittenCoef (b : Bank p) (u : Fin p.U) : Option ConfigField :=
  firstOver p.M fun r => firstOver p.N fun c =>
    if isWritten (b.coefAt u r c) then none else some (.coef u r c)

/-- The GF(2) product: `out[c] = XOR over r of (x[r] & k[r][c])` (R130). -/
def product (b : Bank p) (u : Fin p.U) (x : BitVec p.M) : BitVec p.N :=
  bitsOf p.N fun c => xorOver p.M fun r => x.getLsbD r && coefBit (b.coefAt u r c)

/-- `Compute(B, u, x)` (R130): every coefficient of the unit is read first, whatever `x` is. -/
def compute (b : Bank p) (u : Fin p.U) (x : BitVec p.M) : Except ConfigField (BitVec p.N) :=
  match firstUnwrittenCoef b u with
  | some f => .error f
  | none => .ok (product b u x)

/-- `Seeded(B, u, x) = Compute(B, u, x) ^ CfgRead(B, seed[u])`, `Compute` first (R132). -/
def seeded (b : Bank p) (u : Fin p.U) (x : BitVec p.M) : Except ConfigField (BitVec p.N) := do
  let h ← compute b u x
  let s ← readCell (.seed u) (b.seed.get u)
  return h ^^^ s

/-- `Reduce(h, m) = parity(h & m)` (R134). -/
def reduce {n : Nat} (h m : BitVec n) : Bool := parity (h &&& m)

/-- The first unwritten mask of group `g` among the `L` that are read, `j` ascending (R135). -/
def firstUnwrittenMask (b : Bank p) (g : Fin p.G) (L : Nat) : Option ConfigField :=
  firstOver p.LMAX fun j =>
    if j.val < L && !isWritten (b.maskAt g j) then some (.gmask g j) else none

/-- One bit of a group's value: the reduction under the cell's mask. -/
def maskBit {n : Nat} (h : BitVec n) : Cell (BitVec n) → Bool
  | .unwritten => false
  | .val m => reduce h m

/-- The value of group `g` of width `L` over the seeded hash `h`: bit `j < L` is `Reduce(h, gmask[g][j])`, and the bits from
`L` on are 0 (R135). -/
def groupValue (b : Bank p) (g : Fin p.G) (L : Nat) (h : BitVec p.N) : Except ConfigField (BitVec p.LMAX) :=
  match firstUnwrittenMask b g L with
  | some f => .error f
  | none => .ok (bitsOf p.LMAX fun j => decide (j.val < L) && maskBit h (b.maskAt g j))

/-! ## Commands -/

/-- HASH_RAW u, x (R131): the raw hash of one unit of `ACT`. -/
def execHashRaw (u : BitVec 16) (x : List Word) (s : State) : Host.Outcome State Fault Refusal :=
  s.command (.hashRaw u x) do
    let u ← index s.params.U .unitRange u.toNat
    let x ← vectorOperand s.params.M x
    return s.block.answer .hashRaw do
      let h ← compute s.block.act u x
      return hashResponse .hashRaw s.block.gen h

/-- HASH u, x (R133): the seeded hash of one unit of `ACT`. -/
def execHash (u : BitVec 16) (x : List Word) (s : State) : Host.Outcome State Fault Refusal :=
  s.command (.hash u x) do
    let u ← index s.params.U .unitRange u.toNat
    let x ← vectorOperand s.params.M x
    return s.block.answer .hash do
      let h ← seeded s.block.act u x
      return hashResponse .hash s.block.gen h

/-- HGROUP g, x (R135): the value of one hash group of `ACT`. Reads in order: `gunit[g]`, `gwidth[g]`, the coefficients and
the seed of the unit, then the masks below the width. -/
def execHgroup (g : BitVec 16) (x : List Word) (s : State) : Host.Outcome State Fault Refusal :=
  s.command (.hgroup g x) do
    let g ← index s.params.G .groupRange g.toNat
    let x ← vectorOperand s.params.M x
    return s.block.answer .hgroup do
      let u ← readCell (.gunit g) (s.block.act.gunit.get g)
      let L ← readCell (.gwidth g) (s.block.act.gwidth.get g)
      let h ← seeded s.block.act u x
      let out ← groupValue s.block.act g L h
      return groupResponse s.block.gen L out

end Sys2Proof.Machine
end

