-- ==== Sys2Proof/Machine/Dispatch.lean ====
section
/-! DEFINITION. `exec`: one arm per constructor of `Instr`. -/

namespace Sys2Proof.Machine

-- The instruction `i` as the next command of the port in turn, `s.block.cur`.
def exec (i : Instr) (s : State) : Host.Outcome State Fault Refusal :=
  match i with
  | .nop => Sys2Proof.Machine.execNop s
  | .setCoef u r c bit => Sys2Proof.Machine.execSetCoef u r c bit s
  | .setSeed u seed => Sys2Proof.Machine.execSetSeed u seed s
  | .setGroup g u L => Sys2Proof.Machine.execSetGroup g u L s
  | .setPmask g j mask => Sys2Proof.Machine.execSetPmask g j mask s
  | .setGwEntry row tbl k version valid value dontCare => Sys2Proof.Machine.execSetGwEntry row tbl k version valid value dontCare s
  | .setGwPayload row tbl k payload => Sys2Proof.Machine.execSetGwPayload row tbl k payload s
  | .setGwSelect row tbl in0 in1 tmode => Sys2Proof.Machine.execSetGwSelect row tbl in0 in1 tmode s
  | .commit => Sys2Proof.Machine.execCommit s
  | .abort => Sys2Proof.Machine.execAbort s
  | .clearErr => Sys2Proof.Machine.execClearErr s
  | .readStatus => Sys2Proof.Machine.execReadStatus s
  | .hashRaw u x => Sys2Proof.Machine.execHashRaw u x s
  | .hash u x => Sys2Proof.Machine.execHash u x s
  | .hgroup g x => Sys2Proof.Machine.execHgroup g x s
  | .gwEval row tbl thread version live => Sys2Proof.Machine.execGwEval row tbl thread version live s

end Sys2Proof.Machine
end

