-- ==== Sys2Proof/Machine/Step.lean ====
section
/-! DEFINITION. One step of GFHG: one command of one port, or reset (spec/20_memory.md R72, R80, R81; spec/70 R260). -/

namespace Sys2Proof.Machine

/-- One step. A parameter tuple that breaks R10 is refused (R13, R241). Otherwise the next turn is taken: reset is applied,
or the frame the port in turn has next is decoded and executed, or rejected where it does not decode (R102). Where no port
can step, the run is over or stuck (R275). -/
def step (s : State) : Host.Outcome State Fault Refusal :=
  if legalParams s.params then
    match s.block.nextTurn with
    | some (.serve fr m) =>
      match decode s.params fr with
      | .ok i => exec i { params := s.params, block := m }
      | .error c => .next (State.rejectFrame { params := s.params, block := m } fr.header c)
    | some (.reset m) => .next { params := s.params, block := m.applyReset }
    | none => .fault (if s.block.final then .runOver else .stuck)
  else .refused .illegalParameters

/-- The state `s` with the frame of a row's word as the next command: CFGP's stream holds the frame at `pc[CFGP]`, CFGP has
no recorded fault, and the schedule gives CFGP the next turn. It stands for the host's load of a command stream (R56, R86;
log entry 4). -/
def State.withFetchWord (s : State) (nbits w : Nat) : State :=
  let m := s.block
  let ps := m.cfgp
  let fr := tableFrame s.params nbits w
  let nop : Frame := { header := 0, data := [] }
  { params := s.params
    block :=
      { m with
        cfgp := { ps with
          prog := ps.prog.take ps.pc ++ List.replicate (ps.pc - ps.prog.length) nop ++ fr :: ps.prog.drop (ps.pc + 1) }
        fault := m.fault.filter fun r => r.port != .cfgp
        schedule := .turn .cfgp :: m.schedule } }

end Sys2Proof.Machine
end

