-- ==== Sys2Proof/Machine/Assembler.lean ====
section
/-! DEFINITION. The assembler of spec/30_encoding.md: the syntax of one command per line (R105), and the pseudo-commands, which
are expanded here and which GFHG never sees (R106). What R105 leaves open is in log entry 14. -/

namespace Sys2Proof.Assembler

/-! ## Lines -/

/-- An operand: an integer (a vector operand is the integer it is, R20), or a table address `row:tbl`. -/
inductive Operand where
  | int (n : Nat)
  | table (row tbl : Nat)
  deriving DecidableEq, Repr

/-- The mnemonic of a line: a command (R105), or a pseudo-command (R106). -/
inductive Mnemonic where
  | command (op : Opcode)
  | setRow
  | setMatrix
  | gwInvalidate
  | gwClearTable
  deriving DecidableEq, Repr

/-- One line: the mnemonic, then its operands (R105). -/
structure Line where
  mnemonic : Mnemonic
  operands : List Operand
  deriving DecidableEq, Repr

/-! ## Operands into fields: no operand is scaled or offset (R105) -/

/-- An integer operand for a header field of `w` bits, or none where the field cannot hold it. -/
def field (w n : Nat) : Option (BitVec w) := if n < 2 ^ w then some (BitVec.ofNat w n) else none

/-- An integer operand for the one-bit field `F[0]`. -/
def flag (n : Nat) : Option Bool := if n < 2 then some (n == 1) else none

/-- A vector operand of width `X` in its `nw(X)` words. A value wider than `X` that the words still hold is left to the
block's padding check (R96). -/
def vector (X n : Nat) : Option (List Word) :=
  if n < 2 ^ (64 * nw X) then some (natToWords (nw X) n) else none

/-- A command line, its operands in the order of R105. -/
def command (p : Params) (op : Opcode) (operands : List Operand) : Option Instr :=
  match op with
  | .nop => match operands with
    | [] => some .nop
    | _ => none
  | .setCoef => match operands with
    | [.int u, .int r, .int c, .int bit] => do
      return .setCoef (← field 16 u) (← field 16 r) (← field 16 c) (← flag bit)
    | _ => none
  | .setSeed => match operands with
    | [.int u, .int seed] => do return .setSeed (← field 16 u) (← vector p.N seed)
    | _ => none
  | .setGroup => match operands with
    | [.int g, .int u, .int L] => do return .setGroup (← field 16 g) (← field 16 u) (← field 16 L)
    | _ => none
  | .setPmask => match operands with
    | [.int g, .int j, .int mask] => do return .setPmask (← field 16 g) (← field 16 j) (← vector p.N mask)
    | _ => none
  | .setGwEntry => match operands with
    | [.table row tbl, .int i, .int valid, .int version, .int value, .int dontCare] => do
      return .setGwEntry (← field 8 row) (← field 8 tbl) (← field 16 i) (← field 16 version) (← flag valid)
        (← vector p.W value) (← vector p.W dontCare)
    | _ => none
  | .setGwPayload => match operands with
    | [.table row tbl, .int i, .int payload] => do
      return .setGwPayload (← field 8 row) (← field 8 tbl) (← field 16 i) (← vector p.P payload)
    | _ => none
  | .setGwSelect => match operands with
    | [.table row tbl, .int in0, .int in1, .int tmode] => do
      return .setGwSelect (← field 8 row) (← field 8 tbl) (← field 16 in0) (← field 16 in1) (← field 8 tmode)
    | _ => none
  | .commit => match operands with
    | [] => some .commit
    | _ => none
  | .abort => match operands with
    | [] => some .abort
    | _ => none
  | .clearErr => match operands with
    | [] => some .clearErr
    | _ => none
  | .readStatus => match operands with
    | [] => some .readStatus
    | _ => none
  | .hashRaw => match operands with
    | [.int u, .int x] => do return .hashRaw (← field 16 u) (← vector p.M x)
    | _ => none
  | .hash => match operands with
    | [.int u, .int x] => do return .hash (← field 16 u) (← vector p.M x)
    | _ => none
  | .hgroup => match operands with
    | [.int g, .int x] => do return .hgroup (← field 16 g) (← vector p.M x)
    | _ => none
  | .gwEval => match operands with
    | [.table row tbl, .int thread, .int version, .int live] => do
      return .gwEval (← field 8 row) (← field 8 tbl) (← field 4 thread) (← field 16 version) (← vector p.W live)
    | _ => none

/-! ## Pseudo-commands (R106) -/

/-- `SET_ROW u, r, v`: `SET_COEF u, r, c, v[c]` for c = 0, 1, .., N-1. -/
def setRow (p : Params) (u r : BitVec 16) (v : BitVec p.N) : List Instr :=
  (List.range p.N).map fun c => .setCoef u r (BitVec.ofNat 16 c) (v.getLsbD c)

/-- `SET_MATRIX u, v0, ..`: `SET_ROW u, r, vr` for each row in order, from row `r` on. -/
def setMatrix (p : Params) (u : BitVec 16) (r : Nat) : List (BitVec p.N) → List Instr
  | [] => []
  | v :: vs => setRow p u (BitVec.ofNat 16 r) v ++ setMatrix p u (r + 1) vs

/-- `GW_INVALIDATE row:tbl, i`: `SET_GW_ENTRY row:tbl, i, 0, 0, 0, 0`. -/
def gwInvalidate (p : Params) (row tbl : BitVec 8) (i : BitVec 16) : Instr :=
  .setGwEntry row tbl i 0 false (List.replicate (nw p.W) 0) (List.replicate (nw p.W) 0)

/-- `GW_CLEAR_TABLE row:tbl`: `GW_INVALIDATE row:tbl, i` for i = 0, 1, .., K-1. -/
def gwClearTable (p : Params) (row tbl : BitVec 8) : List Instr :=
  (List.range p.K).map fun i => gwInvalidate p row tbl (BitVec.ofNat 16 i)

/-- The integer operands of a row list, each a vector of width N. -/
def rowOperands (p : Params) : List Operand → Option (List (BitVec p.N))
  | [] => some []
  | .int v :: os => do return (← field p.N v) :: (← rowOperands p os)
  | .table _ _ :: _ => none

/-- The commands a line stands for, in order. SET_MATRIX takes one operand for each of the M rows. -/
def expand (p : Params) (l : Line) : Option (List Instr) :=
  match l.mnemonic with
  | .command op => do return [← command p op l.operands]
  | .setRow => match l.operands with
    | [.int u, .int r, .int v] => do return setRow p (← field 16 u) (← field 16 r) (← field p.N v)
    | _ => none
  | .setMatrix => match l.operands with
    | .int u :: rows => do
      let vs ← rowOperands p rows
      if vs.length = p.M then return setMatrix p (← field 16 u) 0 vs else none
    | _ => none
  | .gwInvalidate => match l.operands with
    | [.table row tbl, .int i] => do return [gwInvalidate p (← field 8 row) (← field 8 tbl) (← field 16 i)]
    | _ => none
  | .gwClearTable => match l.operands with
    | [.table row tbl] => do return gwClearTable p (← field 8 row) (← field 8 tbl)
    | _ => none

/-- The frames of a list of lines. -/
def assemble (p : Params) : List Line → Option (List Frame)
  | [] => some []
  | l :: ls => do return (← expand p l).map encode ++ (← assemble p ls)

/-! ## Text -/

/-- The digits, each at the place of its value; the first ten are the decimal ones. -/
def numerals : List Char := "0123456789abcdef".toList

/-- The value of a digit; a hexadecimal digit may be of either case (log entry 14). -/
def digit (c : Char) : Option Nat := numerals.idxOf? c.toLower

/-- Digits to a given base, after the value `acc` of those already read. -/
def digits (base acc : Nat) : List Char → Option Nat
  | [] => some acc
  | c :: cs =>
    match digit c with
    | some d => if d < base then digits base (base * acc + d) cs else none
    | none => none

/-- An integer: decimal, or hexadecimal with the prefix `0x` (R105). -/
def integer : List Char → Option Nat
  | [] => none
  | ['0', 'x'] => none
  | '0' :: 'x' :: cs => digits 16 0 cs
  | cs => digits 10 0 cs

/-- The characters up to the first `c`, and those after it where there is one. -/
def splitAt (c : Char) : List Char → List Char × Option (List Char)
  | [] => ([], none)
  | x :: xs =>
    if x == c then ([], some xs)
    else
      let r := splitAt c xs
      (x :: r.1, r.2)

/-- The pieces between the separators `c`. -/
def pieces (c : Char) (cs : List Char) : List (List Char) :=
  cs.foldr (fun x acc => if x == c then [] :: acc else
    match acc with
    | [] => [[x]]
    | w :: ws => (x :: w) :: ws) [[]]

/-- The text without the spaces at its beginning. -/
def skipSpaces (cs : List Char) : List Char := cs.dropWhile fun c => c == ' '

/-- The text without the spaces at its beginning and its end; a space between two other characters stays, so that no two
pieces of a text are run together (log entry 14). -/
def trim (cs : List Char) : List Char := (skipSpaces (skipSpaces cs).reverse).reverse

/-- An operand's text: `row:tbl`, or an integer, with spaces around it but none within it (log entry 14). -/
def operand (cs : List Char) : Option Operand :=
  match splitAt ':' (trim cs) with
  | (n, none) => do return .int (← integer n)
  | (row, some tbl) => do return .table (← integer row) (← integer tbl)

/-- The operands' texts, in order. -/
def operands : List (List Char) → Option (List Operand)
  | [] => some []
  | cs :: rest => do return (← operand cs) :: (← operands rest)

/-- The mnemonics and pseudo-mnemonics with their spelling (R105, R106). -/
def mnemonics : List (List Char × Mnemonic) :=
  [("NOP".toList, .command .nop), ("SET_COEF".toList, .command .setCoef), ("SET_SEED".toList, .command .setSeed),
    ("SET_GROUP".toList, .command .setGroup), ("SET_PMASK".toList, .command .setPmask),
    ("SET_GW_ENTRY".toList, .command .setGwEntry), ("SET_GW_PAYLOAD".toList, .command .setGwPayload),
    ("SET_GW_SELECT".toList, .command .setGwSelect), ("COMMIT".toList, .command .commit),
    ("ABORT".toList, .command .abort), ("CLEAR_ERR".toList, .command .clearErr),
    ("READ_STATUS".toList, .command .readStatus), ("HASH_RAW".toList, .command .hashRaw),
    ("HASH".toList, .command .hash), ("HGROUP".toList, .command .hgroup), ("GW_EVAL".toList, .command .gwEval),
    ("SET_ROW".toList, .setRow), ("SET_MATRIX".toList, .setMatrix), ("GW_INVALIDATE".toList, .gwInvalidate),
    ("GW_CLEAR_TABLE".toList, .gwClearTable)]

/-- A line's text: the mnemonic, a space, then the operands separated by commas (R105). -/
def line (cs : List Char) : Option Line :=
  match splitAt ' ' (skipSpaces cs) with
  | (m, rest) =>
    match mnemonics.find? fun x => x.1 == m with
    | none => none
    | some (_, mn) => do
      let ops := trim (rest.getD [])
      return { mnemonic := mn, operands := ← operands (if ops.isEmpty then [] else pieces ',' ops) }

/-- The lines of a text; a blank line stands for nothing. -/
def lines : List (List Char) → Option (List Line)
  | [] => some []
  | cs :: rest =>
    if (skipSpaces cs).isEmpty then lines rest
    else do return (← line cs) :: (← lines rest)

/-- A program's text, one command per line, as the frames the host presents. -/
def program (p : Params) (text : String) : Option (List Frame) := do assemble p (← lines (pieces '\n' text.toList))

end Sys2Proof.Assembler
end

