-- ==== Sys2Proof/Safety.lean ====
section
/-! DEFINITION. What claims about a run are stated in: the observation of a state (spec/70_reset_and_hazards.md R275), the ways a
command can end (spec/60_exceptions.md R230) as relations between the block before and after, the checks of R232 as a list,
and the invariants every step keeps. -/

namespace Sys2Proof.Machine

variable {p : Params}

/-! ## Safe runs and observations -/

/-- No fault is recorded: no command so far has read a cell that nothing has written (R240). -/
def Block.Safe (m : Block p) : Prop := m.fault = []

/-- What is observed of a final state: the response streams with `ACT`, `STG`, `CFG_STATUS` and `GEN` (R275). -/
structure Observation (p : Params) where
  resp : List (List Response)
  act : Bank p
  stg : Bank p
  status0 : Word
  status1 : Word
  gen : BitVec 32
  deriving DecidableEq, Repr

/-- The observation of a block (R275). -/
def Block.observe (m : Block p) : Observation p where
  resp := (allPorts p.E).map fun q => (m.port q).resp
  act := m.act
  stg := m.stg
  status0 := m.status.word0 m.gen
  status1 := m.status.word1
  gen := m.gen

/-! ## How a command ends, from the block `m` to the block `m'` -/

/-- What no command changes: the command streams, the port in turn, the schedule and the count of free choices (R86). -/
structure Block.SameInputs (m m' : Block p) : Prop where
  cur : m'.cur = m.cur
  schedule : m'.schedule = m.schedule
  picks : m'.picks = m.picks
  prog : ∀ q, (m'.port q).prog = (m.port q).prog

/-- The command answered `r`: it is appended to the stream of the port in turn, that port's index advances by one, and every
other port is as before (R56, R58, R110). -/
structure Block.Answered (m m' : Block p) (r : Response) : Prop where
  inputs : m.SameInputs m'
  resp : (m'.port m.cur).resp = (m.port m.cur).resp ++ [r]
  pc : (m'.port m.cur).pc = (m.port m.cur).pc + 1
  others : ∀ q, q ≠ m.cur → m'.port q = m.port q

/-- Both banks are as before. -/
structure Block.SameBanks (m m' : Block p) : Prop where
  stg : m'.stg = m.stg
  act : m'.act = m.act

/-- Only ports have changed: both banks, `CFG_STATUS`, `GEN` and `FAULT` are as before. -/
structure Block.SameConfig (m m' : Block p) : Prop where
  banks : m.SameBanks m'
  status : m'.status = m.status
  gen : m'.gen = m.gen
  fault : m'.fault = m.fault

/-- The command answered `r` and changed nothing else. -/
structure Block.OnlyAnswered (m m' : Block p) (r : Response) : Prop where
  answered : m.Answered m' r
  same : m.SameConfig m'

/-- The command faulted on the field `f`: one entry is added to `FAULT`, and nothing else changes; there is no response and
no index advances (R116, R240). -/
structure Block.Faulted (m m' : Block p) (op : Opcode) (f : ConfigField) : Prop where
  inputs : m.SameInputs m'
  fault : m'.fault = m.fault ++ [{ port := m.cur, pc := (m.port m.cur).pc, opc := op, field := f }]
  ports : ∀ q, m'.port q = m.port q
  banks : m.SameBanks m'
  status : m'.status = m.status
  gen : m'.gen = m.gen

/-- The command was a configuration write that answered `OK`: the staged bank is `b`, and the rest of the configuration, the
status and `FAULT` are as before (R180). -/
structure Block.Staged (m m' : Block p) (op : Opcode) (b : Bank p) : Prop where
  answered : m.Answered m' { r0 := respWord 0 0 op.byte .ok, result := [] }
  stg : m'.stg = b
  act : m'.act = m.act
  status : m'.status = m.status
  gen : m'.gen = m.gen
  fault : m'.fault = m.fault

/-- The command with header `h` was rejected with code `c` (R230): the response carries the code and nothing else changes,
but for the capture, which happens exactly where the command is a configuration write on CFGP and `ERR` was 0 (R231, R233,
R234). -/
structure Block.Rejected (m m' : Block p) (h : Word) (c : Status) : Prop where
  answered : m.Answered m' { r0 := respWord 0 0 (Header.opc h) c, result := [] }
  banks : m.SameBanks m'
  gen : m'.gen = m.gen
  fault : m'.fault = m.fault
  status : m'.status =
    if isConfigWrite (Header.opc h) && m.cur == .cfgp && !m.status.err then
      { err := true, code := c, capOpc := Header.opc h, capA := Header.a h, capB := Header.b h, capC := Header.c h,
        capF := Header.f h }
    else m.status

/-! ## The checks of R232, items 5 to 7, as a list -/

/-- The conditions an instruction's operands must meet, in the order R232 gives them (fields A, B, C, `F[3:0]`, then the
padding of each vector operand in frame order), each with the code its failure has (R231). -/
def operandChecks (p : Params) : Instr → List (Bool × Status)
  | .nop => []
  | .setCoef u r c _ =>
      [(u.toNat < p.U, .unitRange), (r.toNat < p.M, .rowRange), (c.toNat < p.N, .colRange)]
  | .setSeed u seed => [(u.toNat < p.U, .unitRange), (wordsToNat seed < 2 ^ p.N, .padNonzero)]
  | .setGroup g u L =>
      [(g.toNat < p.G, .groupRange), (u.toNat < p.U, .unitRange), (1 ≤ L.toNat && L.toNat ≤ p.LMAX, .widthRange)]
  | .setPmask g j mask =>
      [(g.toNat < p.G, .groupRange), (j.toNat < p.LMAX, .groupBitRange), (wordsToNat mask < 2 ^ p.N, .padNonzero)]
  | .setGwEntry row tbl i version _ value dontCare =>
      [(row.toNat < p.ROWS && tbl.toNat < p.TPR, .tableRange), (i.toNat < p.K, .entryRange),
        (version.toNat < 2 ^ p.V, .versionRange), (wordsToNat value < 2 ^ p.W, .padNonzero),
        (wordsToNat dontCare < 2 ^ p.W, .padNonzero)]
  | .setGwPayload row tbl i payload =>
      [(row.toNat < p.ROWS && tbl.toNat < p.TPR, .tableRange), (i.toNat < p.K, .entryRange),
        (wordsToNat payload < 2 ^ p.P, .padNonzero)]
  | .setGwSelect row tbl _ _ _ => [(row.toNat < p.ROWS && tbl.toNat < p.TPR, .tableRange)]
  | .commit => []
  | .abort => []
  | .clearErr => []
  | .readStatus => []
  | .hashRaw u x => [(u.toNat < p.U, .unitRange), (wordsToNat x < 2 ^ p.M, .padNonzero)]
  | .hash u x => [(u.toNat < p.U, .unitRange), (wordsToNat x < 2 ^ p.M, .padNonzero)]
  | .hgroup g x => [(g.toNat < p.G, .groupRange), (wordsToNat x < 2 ^ p.M, .padNonzero)]
  | .gwEval row tbl thread version live =>
      [(row.toNat < p.ROWS && tbl.toNat < p.TPR, .tableRange), (version.toNat < 2 ^ p.V, .versionRange),
        (thread.toNat < p.THREADS, .threadRange), (wordsToNat live < 2 ^ p.W, .padNonzero)]

/-- The last check, which only COMMIT has: `ERR = 0` (R232, item 7). -/
def errCheck (m : Block p) (i : Instr) : List (Bool × Status) :=
  if i.opcode = .commit then [(!m.status.err, .loadFailed)] else []

/-- The code of the first check that fails: the port check, then the operands', then `ERR` (R232, items 2 and 5 to 7). -/
def firstFailure (m : Block p) (i : Instr) : Option Status :=
  (((m.cur == .cfgp || !i.opcode.cfgpOnly, Status.portDenied) :: (operandChecks p i ++ errCheck m i)).find?
    fun x => !x.1).map fun x => x.2

/-! ## Evaluation commands, and the cells they read -/

/-- The evaluation opcodes (R50). -/
def isEvaluation (op : Opcode) : Bool := op == .hashRaw || op == .hash || op == .hgroup || op == .gwEval

/-- Every coefficient of unit `u` is written in the bank (R265). -/
def Bank.UnitWritten (b : Bank p) (u : Fin p.U) : Prop := ∀ r c, isWritten (b.coefAt u r c) = true

/-- Every cell of the bank is written (R262). -/
structure Bank.AllWritten (b : Bank p) : Prop where
  coef : ∀ u r c, isWritten (b.coefAt u r c) = true
  seed : ∀ u, isWritten (b.seed.get u) = true
  gunit : ∀ g, isWritten (b.gunit.get g) = true
  gwidth : ∀ g, isWritten (b.gwidth.get g) = true
  gmask : ∀ g j, isWritten (b.maskAt g j) = true
  ver : ∀ t i, isWritten (b.entryAt t i).ver = true
  value : ∀ t i, isWritten (b.entryAt t i).value = true
  dc : ∀ t i, isWritten (b.entryAt t i).dc = true
  payload : ∀ t i, isWritten (b.entryAt t i).payload = true
  in0 : ∀ t, isWritten (b.selectAt t).in0 = true
  in1 : ∀ t, isWritten (b.selectAt t).in1 = true
  tmode : ∀ t, isWritten (b.selectAt t).tmode = true

/-- Entry `i` of table `t` passes steps 1a to 1c of the scan for `live` and `ctx` (R162, R165): it is valid, its tag matches
the context, and `live` equals its value at every bit position that its don't-care mask leaves in. -/
def Bank.Matches (b : Bank p) (t : TableAddr p) (live : BitVec p.W) (ctx : Context p.V) (i : Fin p.K) : Prop :=
  (b.entryAt t i).valid = true ∧
  ∃ ver value dc, (b.entryAt t i).ver = .val ver ∧ (b.entryAt t i).value = .val value ∧ (b.entryAt t i).dc = .val dc ∧
    versionMatches p (b.selectAt t).tmode ver ctx = true ∧
    ∀ k, k < p.W → dc.getLsbD k = false → live.getLsbD k = value.getLsbD k

/-- The turn `t` of a step is the turn of CFGP with a frame that decodes to `i`. -/
def Turn.IsCfgp (t : Turn p) (i : Instr) : Prop :=
  ∃ fr m, t = .serve fr m ∧ m.cur = .cfgp ∧ decode p fr = .ok i

/-- The turn `t` of a step applies reset. -/
def Turn.IsReset (t : Turn p) : Prop := ∃ m, t = .reset m

/-! ## Invariants -/

/-- What holds of a bank: a valid entry has its match fields written (R168), and a width that is written is legal (R34). -/
structure Bank.Inv (b : Bank p) : Prop where
  entries : ∀ t i, (b.entryAt t i).valid = true →
    isWritten (b.entryAt t i).ver = true ∧ isWritten (b.entryAt t i).value = true ∧ isWritten (b.entryAt t i).dc = true
  widths : ∀ g L, b.gwidth.get g = .val L → 1 ≤ L ∧ L ≤ p.LMAX

/-- What holds of `CFG_STATUS`: with `ERR = 0` every capture field is 0, and with `ERR = 1` the captured opcode is a
configuration write and the code names a failure (R42, R231, R233). -/
structure CfgStatus.Inv (st : CfgStatus) : Prop where
  clear : st.err = false → st = CfgStatus.reset
  captured : st.err = true → isConfigWrite st.capOpc = true ∧ st.code ≠ .ok

/-- What holds of the ports and `FAULT`: a port has answered as many commands as its index says, which is within its stream
(R56, R58, R236); a recorded fault names the command its port still stands at, an evaluation (R240); and no port has two
(R240, R242). -/
structure Block.PortsInv (m : Block p) : Prop where
  counted : ∀ q, (m.port q).resp.length = (m.port q).pc
  within : ∀ q, (m.port q).pc ≤ (m.port q).prog.length
  stands : ∀ r ∈ m.fault, (m.port r.port).pc = r.pc ∧ r.pc < (m.port r.port).prog.length ∧ isEvaluation r.opc = true
  once : m.fault.Pairwise fun r r' => r.port ≠ r'.port

/-- The invariant every step keeps. -/
structure Block.Inv (m : Block p) : Prop where
  stg : m.stg.Inv
  act : m.act.Inv
  status : m.status.Inv
  ports : m.PortsInv

end Sys2Proof.Machine
end

