-- ==== Sys2Proof/Certificates/Slice0/Obligations.lean ====
section
/-! DEFINITION. The statements for the provers. Throughout, `p` is any parameter tuple and `m` any block of it, so a statement
holds in states no run reaches unless a hypothesis says otherwise; `m'` is the block after the command. -/

open Sys2Proof Sys2Proof.Machine

/-! ## Encoding -/

/-- R102, R98: no bit of an encoding is dropped. Every well-formed instruction is what its frame decodes to. -/
def Obligations.DecodeOfEncode : Prop :=
  ∀ (p : Params) (i : Instr), i.wf p = true → decode p (encode i) = .ok i

/-- R90, R98, R101: a frame that decodes is exactly the frame of its instruction, which is well-formed. -/
def Obligations.EncodeOfDecode : Prop :=
  ∀ (p : Params) (fr : Frame) (i : Instr), decode p fr = .ok i → encode i = fr ∧ i.wf p = true

/-- R100, R101, R102: the decoder's verdict on every frame, by its opcode byte, its reserved bits and its length. -/
def Obligations.DecodeVerdict : Prop :=
  ∀ (p : Params) (fr : Frame),
    (decode p fr = .error .illegalOpcode ↔
      (0x08 ≤ (Header.opc fr.header).toNat ∧ (Header.opc fr.header).toNat ≤ 0x0F) ∨
      (0x14 ≤ (Header.opc fr.header).toNat ∧ (Header.opc fr.header).toNat ≤ 0x1F) ∨
      0x24 ≤ (Header.opc fr.header).toNat) ∧
    ∀ op : Opcode, op.byte = Header.opc fr.header →
      (fr.header &&& op.reservedZero ≠ 0 → decode p fr = .error .reservedNonzero) ∧
      (fr.header &&& op.reservedZero = 0 → fr.data.length ≠ op.dataWords p → decode p fr = .error .lengthMismatch) ∧
      (fr.header &&& op.reservedZero = 0 → fr.data.length = op.dataWords p →
        ∃ i, decode p fr = .ok i ∧ i.opcode = op)

/-- R91: the header is `OPC + A·2^8 + B·2^24 + C·2^40 + F·2^56`, each field within its width. -/
def Obligations.HeaderFieldLayout : Prop :=
  (∀ h : Word, h.toNat = (Header.opc h).toNat + (Header.a h).toNat * 2 ^ 8 + (Header.b h).toNat * 2 ^ 24 +
    (Header.c h).toNat * 2 ^ 40 + (Header.f h).toNat * 2 ^ 56) ∧
  ∀ (opc : BitVec 8) (a b c : BitVec 16) (f : BitVec 8),
    (Header.make opc a b c f).toNat =
      opc.toNat + a.toNat * 2 ^ 8 + b.toNat * 2 ^ 24 + c.toNat * 2 ^ 40 + f.toNat * 2 ^ 56

/-- R93: a table address in field A is `row·2^8 + tbl`, and it is accepted exactly when both parts are in range. -/
def Obligations.TableAddressInFieldA : Prop :=
  (∀ h : Word, (Header.a h).toNat = (Header.row h).toNat * 2 ^ 8 + (Header.tbl h).toNat) ∧
  ∀ (p : Params) (row tbl : BitVec 8),
    (∀ (hr : row.toNat < p.ROWS) (ht : tbl.toNat < p.TPR),
      tableOperand p row tbl = .ok { row := ⟨row.toNat, hr⟩, tbl := ⟨tbl.toNat, ht⟩ }) ∧
    (¬ (row.toNat < p.ROWS ∧ tbl.toNat < p.TPR) → tableOperand p row tbl = .error .tableRange)

/-- R95, R96: an operand of width `X` in `nw(X)` words. A 1 at a bit position from `X` on is rejected; else bit `k` of the
operand is bit `k mod 64` of word `k / 64`. -/
def Obligations.VectorOperandBits : Prop :=
  ∀ (X : Nat) (ws : List Word), ws.length = nw X →
    ((∃ k, X ≤ k ∧ k < 64 * nw X ∧ (ws.getD (k / 64) 0).getLsbD (k % 64) = true) →
      vectorOperand X ws = .error .padNonzero) ∧
    ((∀ k, X ≤ k → k < 64 * nw X → (ws.getD (k / 64) 0).getLsbD (k % 64) = false) →
      ∃ v, vectorOperand X ws = .ok v ∧ ∀ k, k < X → v.getLsbD k = (ws.getD (k / 64) 0).getLsbD (k % 64))

/-- R95, R112: a result vector is sent in `nw(X)` words laid out in the same way, its padding zero. -/
def Obligations.ResultVectorWords : Prop :=
  ∀ (X : Nat) (v : BitVec X), (vecWords v).length = nw X ∧
    ∀ k, ((vecWords v).getD (k / 64) 0).getLsbD (k % 64) = v.getLsbD k

/-- R98: words written out from the encoding tables decode to what they stand for. -/
def Obligations.SpecWordsDecode : Prop :=
  decode Params.tv { header := 0x0100030002000001, data := [] } = .ok (.setCoef 0 2 3 true) ∧
  decode Params.tv { header := 0x0100000003020105, data := [0x50, 0x0F] } =
    .ok (.setGwEntry 2 1 3 0 true [0x50] [0x0F]) ∧
  decode Params.tv { header := 0x0100340012020107, data := [] } = .ok (.setGwSelect 2 1 0x12 0x34 1) ∧
  decode Params.tv { header := 0x0000000000000013, data := [] } = .ok .readStatus ∧
  decode Params.tv { header := 0x0000000000000122, data := [0x3] } = .ok (.hgroup 1 [0x3]) ∧
  decode Params.tv { header := 0x0100010000020123, data := [0x5F] } = .ok (.gwEval 2 1 1 1 [0x5F])

/-! ## The step -/

/-- R72, R80: where the next turn serves a frame that decodes to `i`, the step is `exec i`, after the schedule has moved on
and the port in turn is noted (the model's own fields, log entries 5 and 6). -/
def Obligations.StepRunsDecodedCommand : Prop :=
  ∀ (p : Params) (m m1 : Block p) (fr : Frame) (i : Instr), legalParams p = true →
    m.nextTurn = some (.serve fr m1) → decode p fr = .ok i →
    step { params := p, block := m } = exec i { params := p, block := m1 }

/-- R56, R81, R240, with the schedule of log entry 5 (the model's choice): the port the schedule names has the next turn,
with the frame at its index, if it has one left and has not faulted. -/
def Obligations.ScheduledPortHasTheTurn : Prop :=
  ∀ (p : Params) (m : Block p) (q : Port p.E) (es : List (Event p.E)) (fr : Frame),
    m.schedule = .turn q :: es → (∀ r ∈ m.fault, r.port ≠ q) → (m.port q).prog[(m.port q).pc]? = some fr →
    m.nextTurn = some (.serve fr { m with schedule := es, cur := q })

/-- R100, R231 to R235: a frame that does not decode is rejected, the port check standing between the opcode check and the
checks of reserved bits and length; the rejection is sticky exactly for a configuration-write opcode on CFGP. -/
def Obligations.UndecodedFrameIsRejected : Prop :=
  ∀ (p : Params) (m m1 : Block p) (fr : Frame) (c : Status), legalParams p = true →
    m.nextTurn = some (.serve fr m1) → decode p fr = .error c →
    ∃ m' : Block p, step { params := p, block := m } = .next { params := p, block := m' } ∧
      m1.Rejected m' fr.header
        (if c = .illegalOpcode then .illegalOpcode
         else if m1.cur ≠ .cfgp ∧
           ((0x01 ≤ (Header.opc fr.header).toNat ∧ (Header.opc fr.header).toNat ≤ 0x07) ∨
             (0x10 ≤ (Header.opc fr.header).toNat ∧ (Header.opc fr.header).toNat ≤ 0x12)) then .portDenied
         else c)

/-- R240, R275, with the two stops of log entry 8 (the model's choice): under legal parameters a step stops exactly when
reset is not due and every port has faulted or has no command left, and it reports the run as over exactly when the state is
final besides. It is never a refusal, and the parameters never change. -/
def Obligations.StepStopsExactlyAtTheEnd : Prop :=
  ∀ (p : Params) (m : Block p), legalParams p = true →
    ((Event.reset ∉ m.schedule ∧ ∀ q, (∃ r ∈ m.fault, r.port = q) ∨ (m.port q).prog.length ≤ (m.port q).pc) →
      (m.fault = [] ∧ (∀ q, (m.port q).pc = (m.port q).prog.length) →
        step { params := p, block := m } = .fault .runOver) ∧
      (¬ (m.fault = [] ∧ ∀ q, (m.port q).pc = (m.port q).prog.length) →
        step { params := p, block := m } = .fault .stuck)) ∧
    (¬ (Event.reset ∉ m.schedule ∧ ∀ q, (∃ r ∈ m.fault, r.port = q) ∨ (m.port q).prog.length ≤ (m.port q).pc) →
      ∃ m' : Block p, step { params := p, block := m } = .next { params := p, block := m' })

/-- R10, R13: a tuple that breaks a constraint of R10 is refused, and no other. -/
def Obligations.IllegalParametersRefused : Prop :=
  ∀ s : State, step s = .refused .illegalParameters ↔
    ¬ ((1 ≤ s.params.U ∧ s.params.U ≤ 65536) ∧ (1 ≤ s.params.M ∧ s.params.M ≤ 65536) ∧
      (1 ≤ s.params.N ∧ s.params.N ≤ 65536) ∧ s.params.G ≤ 65536 ∧ (1 ≤ s.params.LMAX ∧ s.params.LMAX ≤ 65536) ∧
      (1 ≤ s.params.ROWS ∧ s.params.ROWS ≤ 256) ∧ (1 ≤ s.params.TPR ∧ s.params.TPR ≤ 256) ∧ s.params.K ≤ 256 ∧
      (1 ≤ s.params.W ∧ s.params.W ≤ 65536) ∧ s.params.V ≤ 16 ∧ s.params.P ≤ 65536 ∧
      (1 ≤ s.params.THREADS ∧ s.params.THREADS ≤ 16) ∧ 1 ≤ s.params.E)

/-! ## Reset -/

/-- R62, R63: every piece of state after reset, under either policy. -/
def Obligations.ResetValuesOfEveryField : Prop :=
  ∀ p : Params,
    (∀ b, b = (Block.reset p).stg ∨ b = (Block.reset p).act →
      (∀ t i, (b.entryAt t i).valid = false) ∧
      (p.resetPolicy = .unwritten →
        (∀ u r c, b.coefAt u r c = .unwritten) ∧ (∀ u, b.seed.get u = .unwritten) ∧
        (∀ g, b.gunit.get g = .unwritten ∧ b.gwidth.get g = .unwritten) ∧ (∀ g j, b.maskAt g j = .unwritten) ∧
        (∀ t i, (b.entryAt t i).value = .unwritten ∧ (b.entryAt t i).dc = .unwritten ∧
          (b.entryAt t i).ver = .unwritten ∧ (b.entryAt t i).payload = .unwritten) ∧
        (∀ t, b.selectAt t = { in0 := .unwritten, in1 := .unwritten, tmode := .unwritten })) ∧
      (p.resetPolicy = .zero →
        (∀ u r c, b.coefAt u r c = .val false) ∧ (∀ u, b.seed.get u = .val 0) ∧
        (∀ (h : 0 < p.U) g, b.gunit.get g = .val ⟨0, h⟩) ∧ (∀ g, b.gwidth.get g = .val 1) ∧
        (∀ g j, b.maskAt g j = .val 0) ∧
        (∀ t i, (b.entryAt t i).value = .val 0 ∧ (b.entryAt t i).dc = .val 0 ∧
          (b.entryAt t i).ver = .val 0 ∧ (b.entryAt t i).payload = .val 0) ∧
        (∀ t, b.selectAt t = { in0 := .val 0, in1 := .val 0, tmode := .val 0 }))) ∧
    (Block.reset p).status.word0 (Block.reset p).gen = 0 ∧ (Block.reset p).status.word1 = 0 ∧
    (Block.reset p).gen = 0 ∧ (Block.reset p).fault = [] ∧
    ∀ q, ((Block.reset p).port q).pc = 0 ∧ ((Block.reset p).port q).resp = []

/-- R260, R261, with reset an event of the schedule (the model's choice, log entry 9): applied reset gives, in one step,
every bank, the status, `GEN`, `FAULT` and every port's index and responses their values after reset, whatever the state
before; each port's stream stays and starts again at index 0. -/
def Obligations.ResetAppliedInOneStep : Prop :=
  ∀ (p : Params) (m : Block p) (es : List (Event p.E)), legalParams p = true → m.schedule = .reset :: es →
    ∃ m' : Block p, step { params := p, block := m } = .next { params := p, block := m' } ∧
      m'.stg = (Block.reset p).stg ∧ m'.act = (Block.reset p).act ∧ m'.status = (Block.reset p).status ∧
      m'.gen = (Block.reset p).gen ∧ m'.fault = (Block.reset p).fault ∧ m'.schedule = es ∧
      ∀ q, m'.port q = { prog := (m.port q).prog, pc := 0, resp := [] }

/-! ## Control commands -/

/-- R210: NOP answers the all-zero word on any port and changes nothing else. -/
def Obligations.NopOnlyAnswers : Prop :=
  ∀ (p : Params) (m : Block p), ∃ m' : Block p,
    exec .nop { params := p, block := m } = .next { params := p, block := m' } ∧
    m.OnlyAnswered m' { r0 := 0x0000000000000000, result := [] }

/-- R211: on CFGP with `ERR = 0`, COMMIT copies `STG` to `ACT`, adds 1 to `GEN` and answers the new `GEN`; with `ERR = 1` it
is refused with `LOAD_FAILED` and changes no bank, no status and not `GEN`. -/
def Obligations.CommitPublishesOrIsRefused : Prop :=
  ∀ (p : Params) (m : Block p), m.cur = .cfgp →
    (m.status.err = false → ∃ m' : Block p,
      exec .commit { params := p, block := m } = .next { params := p, block := m' } ∧
      m.Answered m' { r0 := (m.gen + 1) ++ (0x00001000 : BitVec 32), result := [] } ∧
      m'.act = m.stg ∧ m'.stg = m.stg ∧ m'.gen = m.gen + 1 ∧ m'.status = m.status ∧ m'.fault = m.fault) ∧
    (m.status.err = true → ∃ m' : Block p,
      exec .commit { params := p, block := m } = .next { params := p, block := m' } ∧
      m.OnlyAnswered m' { r0 := 0x0000000000001010, result := [] })

/-- R212: on CFGP, ABORT copies `ACT` to `STG` and clears `ERR` and the captures; `ACT` and `GEN` stay. -/
def Obligations.AbortRestoresStagedBank : Prop :=
  ∀ (p : Params) (m : Block p), m.cur = .cfgp → ∃ m' : Block p,
    exec .abort { params := p, block := m } = .next { params := p, block := m' } ∧
    m.Answered m' { r0 := 0x0000000000001100, result := [] } ∧
    m'.stg = m.act ∧ m'.act = m.act ∧ m'.gen = m.gen ∧ m'.fault = m.fault ∧
    m'.status = { err := false, code := .ok, capOpc := 0, capA := 0, capB := 0, capC := 0, capF := 0 }

/-- R213: on CFGP, CLEAR_ERR clears `ERR` and the captures and keeps both banks and `GEN`. -/
def Obligations.ClearErrKeepsStagedBank : Prop :=
  ∀ (p : Params) (m : Block p), m.cur = .cfgp → ∃ m' : Block p,
    exec .clearErr { params := p, block := m } = .next { params := p, block := m' } ∧
    m.Answered m' { r0 := 0x0000000000001200, result := [] } ∧
    m'.stg = m.stg ∧ m'.act = m.act ∧ m'.gen = m.gen ∧ m'.fault = m.fault ∧
    m'.status = { err := false, code := .ok, capOpc := 0, capA := 0, capB := 0, capC := 0, capF := 0 }

/-- R40, R43, R214: READ_STATUS answers, on any port, the two status words with every field at its place and every reserved
bit 0, and changes nothing else. -/
def Obligations.ReadStatusAnswersBothWords : Prop :=
  ∀ (p : Params) (m : Block p), ∃ (m' : Block p) (s0 s1 : Word),
    exec .readStatus { params := p, block := m } = .next { params := p, block := m' } ∧
    m.OnlyAnswered m' { r0 := 0x0000000000001300, result := [s0, s1] } ∧
    s0.extractLsb' 0 1 = BitVec.ofBool m.status.err ∧ s0.extractLsb' 1 7 = 0 ∧
    s0.extractLsb' 8 8 = m.status.code.byte ∧ s0.extractLsb' 16 8 = m.status.capOpc ∧ s0.extractLsb' 24 8 = 0 ∧
    s0.extractLsb' 32 32 = m.gen ∧
    s1.extractLsb' 0 16 = m.status.capA ∧ s1.extractLsb' 16 16 = m.status.capB ∧
    s1.extractLsb' 32 16 = m.status.capC ∧ s1.extractLsb' 48 8 = m.status.capF ∧ s1.extractLsb' 56 8 = 0

/-! ## Configuration writes -/

/-- R181: SET_COEF writes the one staged coefficient it names, and no other cell. -/
def Obligations.SetCoefWritesOneCoefficient : Prop :=
  ∀ (p : Params) (m : Block p) (u r c : BitVec 16) (bit : Bool) (hu : u.toNat < p.U) (hr : r.toNat < p.M)
    (hc : c.toNat < p.N), m.cur = .cfgp → ∃ (m' : Block p) (b : Bank p),
    exec (.setCoef u r c bit) { params := p, block := m } = .next { params := p, block := m' } ∧
    m.Staged m' .setCoef b ∧ b.coefAt ⟨u.toNat, hu⟩ ⟨r.toNat, hr⟩ ⟨c.toNat, hc⟩ = .val bit ∧
    (∀ u' r' c', ¬ (u'.val = u.toNat ∧ r'.val = r.toNat ∧ c'.val = c.toNat) →
      b.coefAt u' r' c' = m.stg.coefAt u' r' c') ∧
    b.seed = m.stg.seed ∧ b.gunit = m.stg.gunit ∧ b.gwidth = m.stg.gwidth ∧ b.gmask = m.stg.gmask ∧ b.gw = m.stg.gw ∧
    b.gsel = m.stg.gsel

/-- R182: SET_SEED writes the one staged seed it names, whole, and no other cell. -/
def Obligations.SetSeedWritesOneSeed : Prop :=
  ∀ (p : Params) (m : Block p) (u : BitVec 16) (seed : List Word) (hu : u.toNat < p.U),
    wordsToNat seed < 2 ^ p.N → m.cur = .cfgp → ∃ (m' : Block p) (b : Bank p),
    exec (.setSeed u seed) { params := p, block := m } = .next { params := p, block := m' } ∧
    m.Staged m' .setSeed b ∧ b.seed.get ⟨u.toNat, hu⟩ = .val (BitVec.ofNat p.N (wordsToNat seed)) ∧
    (∀ u', u'.val ≠ u.toNat → b.seed.get u' = m.stg.seed.get u') ∧
    b.coef = m.stg.coef ∧ b.gunit = m.stg.gunit ∧ b.gwidth = m.stg.gwidth ∧ b.gmask = m.stg.gmask ∧ b.gw = m.stg.gw ∧
    b.gsel = m.stg.gsel

/-- R183: SET_GROUP writes the unit and the width of the one group it names together, and no other cell. -/
def Obligations.SetGroupWritesUnitAndWidth : Prop :=
  ∀ (p : Params) (m : Block p) (g u L : BitVec 16) (hg : g.toNat < p.G) (hu : u.toNat < p.U),
    1 ≤ L.toNat → L.toNat ≤ p.LMAX → m.cur = .cfgp → ∃ (m' : Block p) (b : Bank p),
    exec (.setGroup g u L) { params := p, block := m } = .next { params := p, block := m' } ∧
    m.Staged m' .setGroup b ∧ b.gunit.get ⟨g.toNat, hg⟩ = .val ⟨u.toNat, hu⟩ ∧
    b.gwidth.get ⟨g.toNat, hg⟩ = .val L.toNat ∧
    (∀ g', g'.val ≠ g.toNat → b.gunit.get g' = m.stg.gunit.get g' ∧ b.gwidth.get g' = m.stg.gwidth.get g') ∧
    b.coef = m.stg.coef ∧ b.seed = m.stg.seed ∧ b.gmask = m.stg.gmask ∧ b.gw = m.stg.gw ∧ b.gsel = m.stg.gsel

/-- R184: SET_PMASK writes the one staged mask it names, whole, and no other cell; the index `j` is held against LMAX. -/
def Obligations.SetPmaskWritesOneMask : Prop :=
  ∀ (p : Params) (m : Block p) (g j : BitVec 16) (mask : List Word) (hg : g.toNat < p.G) (hj : j.toNat < p.LMAX),
    wordsToNat mask < 2 ^ p.N → m.cur = .cfgp → ∃ (m' : Block p) (b : Bank p),
    exec (.setPmask g j mask) { params := p, block := m } = .next { params := p, block := m' } ∧
    m.Staged m' .setPmask b ∧ b.maskAt ⟨g.toNat, hg⟩ ⟨j.toNat, hj⟩ = .val (BitVec.ofNat p.N (wordsToNat mask)) ∧
    (∀ g' j', ¬ (g'.val = g.toNat ∧ j'.val = j.toNat) → b.maskAt g' j' = m.stg.maskAt g' j') ∧
    b.coef = m.stg.coef ∧ b.seed = m.stg.seed ∧ b.gunit = m.stg.gunit ∧ b.gwidth = m.stg.gwidth ∧ b.gw = m.stg.gw ∧
    b.gsel = m.stg.gsel

/-- R185: SET_GW_ENTRY writes `valid`, `value`, `dc` and `ver` of the one entry it names together, leaves its payload, and
writes no other cell. -/
def Obligations.SetGwEntryWritesMatchFields : Prop :=
  ∀ (p : Params) (m : Block p) (row tbl : BitVec 8) (i version : BitVec 16) (valid : Bool) (value dontCare : List Word)
    (hr : row.toNat < p.ROWS) (ht : tbl.toNat < p.TPR) (hi : i.toNat < p.K),
    version.toNat < 2 ^ p.V → wordsToNat value < 2 ^ p.W → wordsToNat dontCare < 2 ^ p.W → m.cur = .cfgp →
    ∃ (m' : Block p) (b : Bank p),
    exec (.setGwEntry row tbl i version valid value dontCare) { params := p, block := m } =
      .next { params := p, block := m' } ∧
    m.Staged m' .setGwEntry b ∧
    b.entryAt { row := ⟨row.toNat, hr⟩, tbl := ⟨tbl.toNat, ht⟩ } ⟨i.toNat, hi⟩ =
      { valid := valid, value := .val (BitVec.ofNat p.W (wordsToNat value)),
        dc := .val (BitVec.ofNat p.W (wordsToNat dontCare)), ver := .val (BitVec.ofNat p.V version.toNat),
        payload := (m.stg.entryAt { row := ⟨row.toNat, hr⟩, tbl := ⟨tbl.toNat, ht⟩ } ⟨i.toNat, hi⟩).payload } ∧
    (∀ t i', ¬ (t.row.val = row.toNat ∧ t.tbl.val = tbl.toNat ∧ i'.val = i.toNat) →
      b.entryAt t i' = m.stg.entryAt t i') ∧
    b.coef = m.stg.coef ∧ b.seed = m.stg.seed ∧ b.gunit = m.stg.gunit ∧ b.gwidth = m.stg.gwidth ∧
    b.gmask = m.stg.gmask ∧ b.gsel = m.stg.gsel

/-- R186: SET_GW_PAYLOAD writes the payload of the one entry it names, and no other cell. -/
def Obligations.SetGwPayloadWritesOnePayload : Prop :=
  ∀ (p : Params) (m : Block p) (row tbl : BitVec 8) (i : BitVec 16) (payload : List Word)
    (hr : row.toNat < p.ROWS) (ht : tbl.toNat < p.TPR) (hi : i.toNat < p.K),
    wordsToNat payload < 2 ^ p.P → m.cur = .cfgp → ∃ (m' : Block p) (b : Bank p),
    exec (.setGwPayload row tbl i payload) { params := p, block := m } = .next { params := p, block := m' } ∧
    m.Staged m' .setGwPayload b ∧
    b.entryAt { row := ⟨row.toNat, hr⟩, tbl := ⟨tbl.toNat, ht⟩ } ⟨i.toNat, hi⟩ =
      { m.stg.entryAt { row := ⟨row.toNat, hr⟩, tbl := ⟨tbl.toNat, ht⟩ } ⟨i.toNat, hi⟩ with
        payload := .val (BitVec.ofNat p.P (wordsToNat payload)) } ∧
    (∀ t i', ¬ (t.row.val = row.toNat ∧ t.tbl.val = tbl.toNat ∧ i'.val = i.toNat) →
      b.entryAt t i' = m.stg.entryAt t i') ∧
    b.coef = m.stg.coef ∧ b.seed = m.stg.seed ∧ b.gunit = m.stg.gunit ∧ b.gwidth = m.stg.gwidth ∧
    b.gmask = m.stg.gmask ∧ b.gsel = m.stg.gsel

/-- R187: SET_GW_SELECT writes the three selector cells of the one table it names together, with any value, and no other
cell. -/
def Obligations.SetGwSelectWritesSelectors : Prop :=
  ∀ (p : Params) (m : Block p) (row tbl : BitVec 8) (in0 in1 : BitVec 16) (tmode : BitVec 8)
    (hr : row.toNat < p.ROWS) (ht : tbl.toNat < p.TPR), m.cur = .cfgp → ∃ (m' : Block p) (b : Bank p),
    exec (.setGwSelect row tbl in0 in1 tmode) { params := p, block := m } = .next { params := p, block := m' } ∧
    m.Staged m' .setGwSelect b ∧
    b.selectAt { row := ⟨row.toNat, hr⟩, tbl := ⟨tbl.toNat, ht⟩ } =
      { in0 := .val in0, in1 := .val in1, tmode := .val tmode } ∧
    (∀ t, ¬ (t.row.val = row.toNat ∧ t.tbl.val = tbl.toNat) → b.selectAt t = m.stg.selectAt t) ∧
    b.coef = m.stg.coef ∧ b.seed = m.stg.seed ∧ b.gunit = m.stg.gunit ∧ b.gwidth = m.stg.gwidth ∧
    b.gmask = m.stg.gmask ∧ b.gw = m.stg.gw

/-- R76: a configuration write on CFGP, given again to any block with the staged bank it left, leaves the same staged bank. -/
def Obligations.RepeatedWriteLeavesSameBank : Prop :=
  ∀ (p : Params) (m m' n n' : Block p) (i : Instr), isConfigWrite i.opcode.byte = true → m.cur = .cfgp → n.cur = .cfgp →
    exec i { params := p, block := m } = .next { params := p, block := m' } → n.stg = m'.stg →
    exec i { params := p, block := n } = .next { params := p, block := n' } → n'.stg = m'.stg

/-! ## Hash engine -/

/-- R130, R131: HASH_RAW on a unit of `ACT` with every coefficient written answers `GEN` and the GF(2) product, bit `c` being
the XOR over the input lines `r` of `x[r] & coef[u][r][c]`, on any port, and changes nothing else. -/
def Obligations.HashRawAnswersProduct : Prop :=
  ∀ (p : Params) (m : Block p) (u : BitVec 16) (x : List Word) (hu : u.toNat < p.U), wordsToNat x < 2 ^ p.M →
    m.act.UnitWritten ⟨u.toNat, hu⟩ → ∃ (m' : Block p) (h : BitVec p.N),
    exec (.hashRaw u x) { params := p, block := m } = .next { params := p, block := m' } ∧
    m.OnlyAnswered m' { r0 := m.gen ++ (0x00002000 : BitVec 32), result := vecWords h } ∧
    ∀ c : Fin p.N, h.getLsbD c =
      xorOver p.M fun r => (wordsToNat x).testBit r && decide (m.act.coefAt ⟨u.toNat, hu⟩ r c = .val true)

/-- R132, R133: HASH on a unit of `ACT` with every coefficient and the seed written answers `GEN` and the product XOR the
seed, on any port, and changes nothing else. -/
def Obligations.HashAnswersSeededProduct : Prop :=
  ∀ (p : Params) (m : Block p) (u : BitVec 16) (x : List Word) (hu : u.toNat < p.U) (seed : BitVec p.N),
    wordsToNat x < 2 ^ p.M → m.act.UnitWritten ⟨u.toNat, hu⟩ → m.act.seed.get ⟨u.toNat, hu⟩ = .val seed →
    ∃ (m' : Block p) (h : BitVec p.N),
    exec (.hash u x) { params := p, block := m } = .next { params := p, block := m' } ∧
    m.OnlyAnswered m' { r0 := m.gen ++ (0x00002100 : BitVec 32), result := vecWords h } ∧
    ∀ c : Fin p.N, h.getLsbD c =
      (xorOver p.M (fun r => (wordsToNat x).testBit r && decide (m.act.coefAt ⟨u.toNat, hu⟩ r c = .val true)) ^^
        seed.getLsbD c)

/-- R113, R134, R135: HGROUP on a group whose binding, unit and masks below the width are written in `ACT` answers `GEN`, the
width, and the value whose bit `j` below the width is the parity of the seeded hash under mask `j` and whose other bits are 0;
the masks from the width on need not be written. It changes nothing else. -/
def Obligations.HgroupAnswersParities : Prop :=
  ∀ (p : Params) (m : Block p) (g : BitVec 16) (x : List Word) (hg : g.toNat < p.G) (u : Fin p.U) (L : Nat)
    (seed : BitVec p.N), wordsToNat x < 2 ^ p.M → m.act.gunit.get ⟨g.toNat, hg⟩ = .val u →
    m.act.gwidth.get ⟨g.toNat, hg⟩ = .val L → m.act.UnitWritten u → m.act.seed.get u = .val seed →
    (∀ j : Fin p.LMAX, j.val < L → isWritten (m.act.maskAt ⟨g.toNat, hg⟩ j) = true) →
    ∃ (m' : Block p) (h : BitVec p.N) (out : BitVec p.LMAX),
    exec (.hgroup g x) { params := p, block := m } = .next { params := p, block := m' } ∧
    m.OnlyAnswered m'
      { r0 := m.gen ++ BitVec.ofNat 16 L ++ (0x2200 : BitVec 16), result := vecWords out } ∧
    (∀ c : Fin p.N, h.getLsbD c =
      (xorOver p.M (fun r => (wordsToNat x).testBit r && decide (m.act.coefAt u r c = .val true)) ^^ seed.getLsbD c)) ∧
    ∀ j : Fin p.LMAX,
      (∀ mask, j.val < L → m.act.maskAt ⟨g.toNat, hg⟩ j = .val mask →
        out.getLsbD j = xorOver p.N fun c => h.getLsbD c && mask.getLsbD c) ∧
      (L ≤ j.val → out.getLsbD j = false)

/-- R130, R133, R240: HASH_RAW and HASH fault on the first unwritten coefficient of the unit in row, then column order,
whatever `x` is; HASH faults on the seed where every coefficient is written and the seed is not. -/
def Obligations.HashFaultsOnFirstUnwrittenCell : Prop :=
  ∀ (p : Params) (m : Block p) (u : BitVec 16) (x : List Word) (hu : u.toNat < p.U), wordsToNat x < 2 ^ p.M →
    (∀ r c, m.act.coefAt ⟨u.toNat, hu⟩ r c = .unwritten →
      (∀ r' c', r' < r ∨ (r' = r ∧ c' < c) → isWritten (m.act.coefAt ⟨u.toNat, hu⟩ r' c') = true) →
      (∃ m' : Block p, exec (.hashRaw u x) { params := p, block := m } = .next { params := p, block := m' } ∧
        m.Faulted m' .hashRaw (.coef u.toNat r c)) ∧
      ∃ m' : Block p, exec (.hash u x) { params := p, block := m } = .next { params := p, block := m' } ∧
        m.Faulted m' .hash (.coef u.toNat r c)) ∧
    (m.act.UnitWritten ⟨u.toNat, hu⟩ → m.act.seed.get ⟨u.toNat, hu⟩ = .unwritten →
      ∃ m' : Block p, exec (.hash u x) { params := p, block := m } = .next { params := p, block := m' } ∧
        m.Faulted m' .hash (.seed u.toNat))

/-- R135, R240: the order in which HGROUP reads, and so the field its fault names: `gunit`, `gwidth`, the unit's coefficients
in order, its seed, then the masks below the width in order. -/
def Obligations.HgroupFaultsInReadOrder : Prop :=
  ∀ (p : Params) (m : Block p) (g : BitVec 16) (x : List Word) (hg : g.toNat < p.G), wordsToNat x < 2 ^ p.M →
    let faults := fun f => ∃ m' : Block p,
      exec (.hgroup g x) { params := p, block := m } = .next { params := p, block := m' } ∧ m.Faulted m' .hgroup f
    (m.act.gunit.get ⟨g.toNat, hg⟩ = .unwritten → faults (.gunit g.toNat)) ∧
    ∀ u : Fin p.U, m.act.gunit.get ⟨g.toNat, hg⟩ = .val u →
      (m.act.gwidth.get ⟨g.toNat, hg⟩ = .unwritten → faults (.gwidth g.toNat)) ∧
      ∀ L, m.act.gwidth.get ⟨g.toNat, hg⟩ = .val L →
        (∀ r c, m.act.coefAt u r c = .unwritten →
          (∀ r' c', r' < r ∨ (r' = r ∧ c' < c) → isWritten (m.act.coefAt u r' c') = true) → faults (.coef u r c)) ∧
        (m.act.UnitWritten u →
          (m.act.seed.get u = .unwritten → faults (.seed u)) ∧
          (isWritten (m.act.seed.get u) = true → ∀ j : Fin p.LMAX, j.val < L →
            m.act.maskAt ⟨g.toNat, hg⟩ j = .unwritten →
            (∀ j' : Fin p.LMAX, j' < j → isWritten (m.act.maskAt ⟨g.toNat, hg⟩ j') = true) →
            faults (.gmask g.toNat j)))

/-- R136: `Compute` is linear over GF(2) for every unit whose coefficients are written, and maps 0 to 0. -/
def Obligations.ComputeIsLinear : Prop :=
  ∀ (p : Params) (b : Bank p) (u : Fin p.U), b.UnitWritten u →
    compute b u 0 = .ok 0 ∧
    ∀ x y, ∃ hx hy, compute b u x = .ok hx ∧ compute b u y = .ok hy ∧ compute b u (x ^^^ y) = .ok (hx ^^^ hy)

/-- R137: `Seeded` is `Compute` XOR the seed, and affine. -/
def Obligations.SeededIsAffine : Prop :=
  ∀ (p : Params) (b : Bank p) (u : Fin p.U) (seed : BitVec p.N), b.UnitWritten u → b.seed.get u = .val seed →
    ∀ x y, ∃ hx hy h, compute b u x = .ok h ∧ seeded b u x = .ok (h ^^^ seed) ∧ seeded b u x = .ok hx ∧
      seeded b u y = .ok hy ∧ seeded b u (x ^^^ y) = .ok (hx ^^^ hy ^^^ seed)

/-- R134, R138: `Reduce` is the parity of the selected bits, additive in the hash and in the mask, 0 under the zero mask, and
under disjoint masks a change of one mask's bits leaves the other's reduction. -/
def Obligations.ReduceLaws : Prop :=
  ∀ (n : Nat) (h h' m m' : BitVec n),
    reduce h m = xorOver n (fun i => h.getLsbD i && m.getLsbD i) ∧
    reduce (h ^^^ h') m = (reduce h m ^^ reduce h' m) ∧ reduce h (m ^^^ m') = (reduce h m ^^ reduce h m') ∧
    reduce h 0 = false ∧ (m &&& m' = 0 → reduce (h ^^^ (h' &&& m')) m = reduce h m)

/-! ## Gateway -/

/-- R161, R162, R164: GW_EVAL on a table of `ACT` whose valid entries have their match fields written. Where entry `i` matches
and no lower one does, and its payload is written, it answers the hit with index `i` and that payload; where no entry
matches, it answers the miss. On any port, and it changes nothing else. -/
def Obligations.GwEvalAnswersLowestMatch : Prop :=
  ∀ (p : Params) (m : Block p) (row tbl : BitVec 8) (thread : BitVec 4) (version : BitVec 16) (live : List Word)
    (hr : row.toNat < p.ROWS) (ht : tbl.toNat < p.TPR), version.toNat < 2 ^ p.V → thread.toNat < p.THREADS →
    wordsToNat live < 2 ^ p.W →
    let t : TableAddr p := { row := ⟨row.toNat, hr⟩, tbl := ⟨tbl.toNat, ht⟩ }
    let x := BitVec.ofNat p.W (wordsToNat live)
    let ctx : Context p.V := { thread := thread, version := BitVec.ofNat p.V version.toNat }
    (∀ i, (m.act.entryAt t i).valid = true → isWritten (m.act.entryAt t i).ver = true ∧
      isWritten (m.act.entryAt t i).value = true ∧ isWritten (m.act.entryAt t i).dc = true) →
    (∀ i pl, m.act.Matches t x ctx i → (∀ j, j < i → ¬ m.act.Matches t x ctx j) →
      (m.act.entryAt t i).payload = .val pl → ∃ m' : Block p,
      exec (.gwEval row tbl thread version live) { params := p, block := m } = .next { params := p, block := m' } ∧
      m.OnlyAnswered m' { r0 := m.gen ++ BitVec.ofNat 8 i ++ (0x012300 : BitVec 24), result := vecWords pl }) ∧
    ((∀ i, ¬ m.act.Matches t x ctx i) → ∃ m' : Block p,
      exec (.gwEval row tbl thread version live) { params := p, block := m } = .next { params := p, block := m' } ∧
      m.OnlyAnswered m' { r0 := m.gen ++ (0x00002300 : BitVec 32), result := vecWords (0 : BitVec p.P) })

/-- R168, R240: GW_EVAL faults on the winner's payload where nothing has written it, and, in a bank whose valid entries have
their match fields written, on nothing else. -/
def Obligations.GwEvalFaultsOnWinnersPayload : Prop :=
  ∀ (p : Params) (m m' : Block p) (row tbl : BitVec 8) (thread : BitVec 4) (version : BitVec 16) (live : List Word)
    (f : ConfigField), m.act.Inv →
    exec (.gwEval row tbl thread version live) { params := p, block := m } = .next { params := p, block := m' } →
    (m.Faulted m' .gwEval f ↔
      ∃ (t : TableAddr p) (i : Fin p.K), t.row.val = row.toNat ∧ t.tbl.val = tbl.toNat ∧ version.toNat < 2 ^ p.V ∧
        thread.toNat < p.THREADS ∧ wordsToNat live < 2 ^ p.W ∧
        m.act.Matches t (BitVec.ofNat p.W (wordsToNat live))
          { thread := thread, version := BitVec.ofNat p.V version.toNat } i ∧
        (∀ j, j < i → ¬ m.act.Matches t (BitVec.ofNat p.W (wordsToNat live))
          { thread := thread, version := BitVec.ofNat p.V version.toNat } j) ∧
        (m.act.entryAt t i).payload = .unwritten ∧ f = .gwPayload row.toNat tbl.toNat i)

/-- R164, R165, R170: whatever the bank, a hit names an entry that matches, below which no entry matches, and gives its
payload; and, in a bank whose valid entries have their match fields written, the first entry that matches wins. A don't-care
bit takes no part in the match. -/
def Obligations.HitIsTheLowestMatch : Prop :=
  ∀ (p : Params) (b : Bank p) (t : TableAddr p) (live : BitVec p.W) (ctx : Context p.V),
    (∀ r : GatewayResult p.P, evaluate b t live ctx = .ok r → r.hit = true →
      ∃ (i : Fin p.K) (pl : BitVec p.P), r.index = some i.val ∧ r.payload = some pl ∧
        (b.entryAt t i).payload = .val pl ∧ b.Matches t live ctx i ∧ ∀ j, b.Matches t live ctx j → i ≤ j) ∧
    (b.Inv → ∀ i pl, b.Matches t live ctx i → (∀ j, j < i → ¬ b.Matches t live ctx j) →
      (b.entryAt t i).payload = .val pl →
      evaluate b t live ctx = .ok { hit := true, index := some i.val, payload := some pl })

/-- R166, R167: a table without a valid entry always misses, as does any table where `K = 0` and any table of the reset bank;
and a miss has no index and no payload. -/
def Obligations.AllInvalidTableMisses : Prop :=
  ∀ (p : Params) (b : Bank p) (t : TableAddr p) (live : BitVec p.W) (ctx : Context p.V),
    ((∀ i, (b.entryAt t i).valid = false) →
      evaluate b t live ctx = .ok { hit := false, index := none, payload := none }) ∧
    (p.K = 0 → evaluate b t live ctx = .ok { hit := false, index := none, payload := none }) ∧
    evaluate (Bank.reset p) t live ctx = .ok { hit := false, index := none, payload := none }

/-- R169: don't-care invariance in the form the first-match scan has. Let `live` hit at entry `i`, let bit `k` be don't-care
for it, and let `live'` be `live` with bit `k` flipped. Where no lower entry matches `live'`, its evaluation hits at `i` with
the same payload. The least lower entry that matches `live'` compares bit `k`, differs from `live` there and agrees with it at
every other bit it compares; where its payload is written, the evaluation of `live'` hits at it with that payload. -/
def Obligations.DontCareInvariance : Prop :=
  ∀ (p : Params) (b : Bank p) (t : TableAddr p) (live live' : BitVec p.W) (ctx : Context p.V) (i : Fin p.K)
    (dc : BitVec p.W) (k : Nat) (pl : BitVec p.P), b.Inv →
    evaluate b t live ctx = .ok { hit := true, index := some i.val, payload := some pl } →
    (b.entryAt t i).dc = .val dc → k < p.W → dc.getLsbD k = true →
    (∀ l, l < p.W → live'.getLsbD l = (live.getLsbD l ^^ decide (l = k))) →
    ((∀ j, j < i → ¬ b.Matches t live' ctx j) →
      evaluate b t live' ctx = .ok { hit := true, index := some i.val, payload := some pl }) ∧
    ∀ j, j < i → b.Matches t live' ctx j →
      (∀ j', j' < j → ¬ b.Matches t live' ctx j') →
      (∀ d v, (b.entryAt t j).dc = .val d → (b.entryAt t j).value = .val v →
        d.getLsbD k = false ∧ live.getLsbD k ≠ v.getLsbD k ∧
        ∀ l, l < p.W → l ≠ k → d.getLsbD l = false → live.getLsbD l = v.getLsbD l) ∧
      ∀ pl', (b.entryAt t j).payload = .val pl' →
        evaluate b t live' ctx = .ok { hit := true, index := some j.val, payload := some pl' }

/-- R171: `Evaluate` is a function of the table's entries, its `tmode`, the live word and the context. -/
def Obligations.EvaluateReadsOneTable : Prop :=
  ∀ (p : Params) (b b' : Bank p) (t : TableAddr p) (live : BitVec p.W) (ctx : Context p.V),
    (∀ i, b.entryAt t i = b'.entryAt t i) → (b.selectAt t).tmode = (b'.selectAt t).tmode →
    evaluate b t live ctx = evaluate b' t live ctx

/-! ## Outcomes, rejections and ports -/

/-- R231 to R236: every instruction whose port, range, padding or `ERR` check fails is rejected with the code of the first
failing check, has no other effect than the response, the advance and, for a configuration write on CFGP with `ERR = 0`, the
capture of its code and header. -/
def Obligations.FirstFailingCheckRejects : Prop :=
  ∀ (p : Params) (m : Block p) (i : Instr) (c : Status), firstFailure m i = some c → ∃ m' : Block p,
    exec i { params := p, block := m } = .next { params := p, block := m' } ∧ m.Rejected m' i.header c

/-- R110, R116, R230: an instruction whose checks all pass answers `OK` with its opcode echoed, exactly one response and no
fault; or, if it is an evaluation, faults on one field. -/
def Obligations.PassedChecksAnswerOkOrFault : Prop :=
  ∀ (p : Params) (m : Block p) (i : Instr), firstFailure m i = none → ∃ m' : Block p,
    exec i { params := p, block := m } = .next { params := p, block := m' } ∧
    ((∃ r : Response, m.Answered m' r ∧ r.r0.extractLsb' 0 8 = (0x00 : BitVec 8) ∧
        r.r0.extractLsb' 8 8 = i.opcode.byte ∧ m'.fault = m.fault) ∨
      (isEvaluation i.opcode = true ∧ ∃ f, m.Faulted m' i.opcode f))

/-- R57, R235, R245: an instruction issued on an evaluation port changes no bank, no status and not `GEN`, and a
configuration write, COMMIT, ABORT or CLEAR_ERR there answers `PORT_DENIED`. -/
def Obligations.EvaluationPortChangesNoConfiguration : Prop :=
  ∀ (p : Params) (m m' : Block p) (i : Instr), m.cur ≠ .cfgp →
    exec i { params := p, block := m } = .next { params := p, block := m' } →
    m.SameBanks m' ∧ m'.status = m.status ∧ m'.gen = m.gen ∧
    (isConfigWrite i.opcode.byte = true ∨ i = .commit ∨ i = .abort ∨ i = .clearErr →
      m.OnlyAnswered m' { r0 := BitVec.setWidth 64 (i.opcode.byte ++ (0x02 : BitVec 8)), result := [] })

/-- R50: an evaluation writes nothing in either bank, nothing in `CFG_STATUS` and nothing in `GEN`, whatever it answers. -/
def Obligations.EvaluationsWriteNothing : Prop :=
  ∀ (p : Params) (m m' : Block p) (i : Instr), isEvaluation i.opcode = true →
    exec i { params := p, block := m } = .next { params := p, block := m' } →
    m.SameBanks m' ∧ m'.status = m.status ∧ m'.gen = m.gen

/-- R50, R82, R83: the answer of an evaluation, or its fault, is a function of its operands, of `ACT` and of `GEN`: two
blocks that agree on these two, and differ anywhere else (the staged bank, the status, the port in turn, the streams), give
the same response or the same faulting field. -/
def Obligations.EvaluationDependsOnActiveBankOnly : Prop :=
  ∀ (p : Params) (m n : Block p) (i : Instr), isEvaluation i.opcode = true → m.act = n.act → m.gen = n.gen →
    ∃ m' n' : Block p, exec i { params := p, block := m } = .next { params := p, block := m' } ∧
      exec i { params := p, block := n } = .next { params := p, block := n' } ∧
      ((∃ r, m.OnlyAnswered m' r ∧ n.OnlyAnswered n' r) ∨
        ∃ f, m.Faulted m' i.opcode f ∧ n.Faulted n' i.opcode f)

/-! ## Rules about every step -/

/-- R41: once set, `ERR` stays 1 over every step but those that apply reset or execute CLEAR_ERR or ABORT on CFGP; and while
it is 1, a COMMIT on CFGP is rejected and publishes nothing. -/
def Obligations.ErrIsSticky : Prop :=
  ∀ (p : Params) (m m' : Block p) (t : Turn p), m.nextTurn = some t →
    step { params := p, block := m } = .next { params := p, block := m' } → m.status.err = true →
    (m'.status.err = true ∨ t.IsReset ∨ t.IsCfgp .clearErr ∨ t.IsCfgp .abort) ∧
    (t.IsCfgp .commit → m'.act = m.act ∧ m'.gen = m.gen ∧
      ∃ rs, m'.cfgp.resp = rs ++ [{ r0 := 0x0000000000001010, result := [] }])

/-- R42, R233: over a step `ERR` and the captures stay as they are, or all become 0 (by reset, or CLEAR_ERR or ABORT on CFGP),
or, where `ERR` was 0, record one failed configuration write on CFGP: the command was rejected, and the code captured is the
one its response carries. -/
def Obligations.CaptureRecordsFirstFailure : Prop :=
  ∀ (p : Params) (m m' : Block p) (t : Turn p), m.nextTurn = some t →
    step { params := p, block := m } = .next { params := p, block := m' } →
    m'.status = m.status ∨
    (m'.status = CfgStatus.reset ∧ (t.IsReset ∨ t.IsCfgp .clearErr ∨ t.IsCfgp .abort)) ∨
    (m.status.err = false ∧ ∃ fr m1 c, t = .serve fr m1 ∧ m1.cur = .cfgp ∧
      isConfigWrite (Header.opc fr.header) = true ∧ c ≠ .ok ∧ m1.Rejected m' fr.header c ∧
      m'.status = { err := true, code := c, capOpc := Header.opc fr.header, capA := Header.a fr.header,
                    capB := Header.b fr.header, capC := Header.c fr.header, capF := Header.f fr.header })

/-- R31, R45, R82: over a step `GEN` and `ACT` stay as they are, or a COMMIT on CFGP with `ERR = 0` adds 1 to `GEN` and makes
`ACT` the staged bank, or reset is applied; and the staged bank changes only by reset, by ABORT, or by a configuration write
on CFGP. -/
def Obligations.BanksChangeOnlyByTheirCommands : Prop :=
  ∀ (p : Params) (m m' : Block p) (t : Turn p), m.nextTurn = some t →
    step { params := p, block := m } = .next { params := p, block := m' } →
    ((m'.gen = m.gen ∧ m'.act = m.act) ∨ t.IsReset ∨
      (t.IsCfgp .commit ∧ m.status.err = false ∧ m'.gen = m.gen + 1 ∧ m'.act = m.stg)) ∧
    (m'.stg = m.stg ∨ t.IsReset ∨ t.IsCfgp .abort ∨ ∃ i, t.IsCfgp i ∧ isConfigWrite i.opcode.byte = true)

/-- R46: over every step that does not apply reset, the fault record keeps its entries in order and gains at most one. -/
def Obligations.FaultRecordOnlyGrows : Prop :=
  ∀ (p : Params) (m m' : Block p) (t : Turn p), m.nextTurn = some t → ¬ t.IsReset →
    step { params := p, block := m } = .next { params := p, block := m' } →
    m'.fault = m.fault ∨ ∃ r, m'.fault = m.fault ++ [r]

/-- R240: a port that has faulted has no further step. Over every step that does not apply reset, what it holds stays. -/
def Obligations.FaultedPortStandsStill : Prop :=
  ∀ (p : Params) (m m' : Block p) (t : Turn p) (q : Port p.E), m.nextTurn = some t → ¬ t.IsReset →
    (∃ r ∈ m.fault, r.port = q) → step { params := p, block := m } = .next { params := p, block := m' } →
    m'.port q = m.port q

/-- R56, R58, R80: over a step that serves a frame, the port in turn either gains one response and advances by one, or
faults and holds what it held; every other port holds what it held, and no stream of commands changes. -/
def Obligations.OnePortMovesByOneCommand : Prop :=
  ∀ (p : Params) (m m1 m' : Block p) (fr : Frame), m.nextTurn = some (.serve fr m1) →
    step { params := p, block := m } = .next { params := p, block := m' } →
    (m.port m1.cur).prog[(m.port m1.cur).pc]? = some fr ∧
    (∀ q, q ≠ m1.cur → m'.port q = m.port q) ∧
    ((∃ r, m'.port m1.cur = { prog := (m.port m1.cur).prog, pc := (m.port m1.cur).pc + 1,
                              resp := (m.port m1.cur).resp ++ [r] } ∧ m'.fault = m.fault) ∨
      (m'.port m1.cur = m.port m1.cur ∧ ∃ f op, isEvaluation op = true ∧
        m'.fault = m.fault ++ [{ port := m1.cur, pc := (m.port m1.cur).pc, opc := op, field := f }]))

/-! ## Invariants -/

/-- R34, R42, R56, R168, R236, R240: every step keeps the invariant of Safety.lean, from every state that meets it. -/
def Obligations.StepKeepsTheInvariant : Prop :=
  ∀ (p : Params) (m m' : Block p), m.Inv →
    step { params := p, block := m } = .next { params := p, block := m' } → m'.Inv

/-- The block after reset meets the invariant, for every legal parameter tuple; so does `State.reset`. -/
def Obligations.ResetMeetsTheInvariant : Prop :=
  (∀ p : Params, legalParams p = true → (Block.reset p).Inv) ∧ State.reset.block.Inv

/-- R262: under `CONFIG_RESET_POLICY = Zero` no evaluation can fault. Both banks are wholly written after reset, every step
keeps them so, and no step from such a state records a fault. -/
def Obligations.ZeroPolicyNeverFaults : Prop :=
  ∀ p : Params, legalParams p = true → p.resetPolicy = .zero →
    ((Block.reset p).stg.AllWritten ∧ (Block.reset p).act.AllWritten) ∧
    ∀ m m' : Block p, m.stg.AllWritten → m.act.AllWritten →
      step { params := p, block := m } = .next { params := p, block := m' } →
      m'.stg.AllWritten ∧ m'.act.AllWritten ∧ (m'.fault = m.fault ∨ m'.fault = [])

/-! ## The assembler -/

/-- R105, R106: the pseudo-commands' expansions, command by command; and whatever a line assembles to is well-formed, so that
its frames decode to the instructions they were made from. The last clause rests on the model's choice of log entry 14, by
which a line with an operand that its field or its words cannot hold assembles to nothing. -/
def Obligations.AssemblerExpansions : Prop :=
  (∀ (p : Params) (u r v : Nat), u < 2 ^ 16 → r < 2 ^ 16 → v < 2 ^ p.N →
    ∃ is, Assembler.expand p { mnemonic := .setRow, operands := [.int u, .int r, .int v] } = some is ∧
      is.length = p.N ∧
      ∀ c, c < p.N → is[c]? =
        some (.setCoef (BitVec.ofNat 16 u) (BitVec.ofNat 16 r) (BitVec.ofNat 16 c) (v.testBit c))) ∧
  (∀ (p : Params) (u : Nat) (vs : List Nat), u < 2 ^ 16 → vs.length = p.M → (∀ v ∈ vs, v < 2 ^ p.N) →
    ∃ is, Assembler.expand p { mnemonic := .setMatrix, operands := .int u :: vs.map .int } = some is ∧
      is.length = p.M * p.N ∧
      ∀ r c, r < p.M → c < p.N → is[r * p.N + c]? =
        some (.setCoef (BitVec.ofNat 16 u) (BitVec.ofNat 16 r) (BitVec.ofNat 16 c) ((vs.getD r 0).testBit c))) ∧
  (∀ (p : Params) (row tbl i : Nat), row < 2 ^ 8 → tbl < 2 ^ 8 → i < 2 ^ 16 →
    ∃ x, Assembler.expand p { mnemonic := .gwInvalidate, operands := [.table row tbl, .int i] } = some [x] ∧
      Assembler.expand p { mnemonic := .command .setGwEntry,
                           operands := [.table row tbl, .int i, .int 0, .int 0, .int 0, .int 0] } = some [x]) ∧
  (∀ (p : Params) (row tbl : Nat), row < 2 ^ 8 → tbl < 2 ^ 8 → p.K ≤ 2 ^ 16 →
    ∃ is, Assembler.expand p { mnemonic := .gwClearTable, operands := [.table row tbl] } = some is ∧
      is.length = p.K ∧
      ∀ i, i < p.K → ∃ x, is[i]? = some x ∧
        Assembler.expand p { mnemonic := .gwInvalidate, operands := [.table row tbl, .int i] } = some [x]) ∧
  ∀ (p : Params) (l : Assembler.Line) (is : List Instr), Assembler.expand p l = some is → ∀ i ∈ is, i.wf p = true
end

