-- ==== Sys2Proof/Laws/Decode.lean ====
section
/-! SUPPORT. Header fields of a header made from fields, the opcode map, and the packing of vectors into words. -/

namespace Sys2Proof

/-! ## Header fields -/

section
variable (opc : BitVec 8) (a b c : BitVec 16) (f : BitVec 8)

@[simp] theorem Header.opc_make : Header.opc (Header.make opc a b c f) = opc := by
  ext i hi
  simp only [Header.opc, Header.make, BitVec.getElem_extractLsb', BitVec.getLsbD_append]
  simp [hi, BitVec.getLsbD_eq_getElem]

@[simp] theorem Header.a_make : Header.a (Header.make opc a b c f) = a := by
  ext i hi
  simp only [Header.a, Header.make, BitVec.getElem_extractLsb', BitVec.getLsbD_append]
  simp [hi, BitVec.getLsbD_eq_getElem]

@[simp] theorem Header.b_make : Header.b (Header.make opc a b c f) = b := by
  ext i hi
  simp only [Header.b, Header.make, BitVec.getElem_extractLsb', BitVec.getLsbD_append]
  have h1 : ¬ 24 + i < 8 := by omega
  have h2 : ¬ 24 + i - 8 < 16 := by omega
  have h3 : 24 + i - 8 - 16 = i := by omega
  simp [h1, h2, h3, hi, BitVec.getLsbD_eq_getElem]

@[simp] theorem Header.c_make : Header.c (Header.make opc a b c f) = c := by
  ext i hi
  simp only [Header.c, Header.make, BitVec.getElem_extractLsb', BitVec.getLsbD_append]
  have h1 : ¬ 40 + i < 8 := by omega
  have h2 : ¬ 40 + i - 8 < 16 := by omega
  have h3 : ¬ 40 + i - 8 - 16 < 16 := by omega
  have h4 : 40 + i - 8 - 16 - 16 = i := by omega
  simp [h1, h2, h3, h4, hi, BitVec.getLsbD_eq_getElem]

@[simp] theorem Header.f_make : Header.f (Header.make opc a b c f) = f := by
  ext i hi
  simp only [Header.f, Header.make, BitVec.getElem_extractLsb', BitVec.getLsbD_append]
  have h1 : ¬ 56 + i < 8 := by omega
  have h2 : ¬ 56 + i - 8 < 16 := by omega
  have h3 : ¬ 56 + i - 8 - 16 < 16 := by omega
  have h4 : ¬ 56 + i - 8 - 16 - 16 < 16 := by omega
  have h5 : 56 + i - 8 - 16 - 16 - 16 = i := by omega
  simp [h1, h2, h3, h4, h5, BitVec.getLsbD_eq_getElem, hi]

/-- A header is made of its fields. -/
theorem Header.make_fields (h : Word) :
    Header.make (Header.opc h) (Header.a h) (Header.b h) (Header.c h) (Header.f h) = h := by
  ext i hi
  rw [← BitVec.getLsbD_eq_getElem, ← BitVec.getLsbD_eq_getElem]
  simp only [Header.make, Header.opc, Header.a, Header.b, Header.c, Header.f, BitVec.getLsbD_append,
    BitVec.getLsbD_extractLsb']
  by_cases h1 : i < 8
  · simp [h1]
  · by_cases h2 : i - 8 < 16
    · simp [h1, h2, show 8 + (i - 8) = i by omega]
    · by_cases h3 : i - 8 - 16 < 16
      · simp [h1, h2, h3, show 24 + (i - 8 - 16) = i by omega]
      · by_cases h4 : i - 8 - 16 - 16 < 16
        · simp [h1, h2, h3, h4, show 40 + (i - 8 - 16 - 16) = i by omega]
        · have h5 : i - 8 - 16 - 16 - 16 < 8 := by omega
          simp [h1, h2, h3, h4, h5, show 56 + (i - 8 - 16 - 16 - 16) = i by omega]

/-- Masking a header masks its fields. -/
theorem Header.make_and (opc' : BitVec 8) (a' b' c' : BitVec 16) (f' : BitVec 8) :
    Header.make opc a b c f &&& Header.make opc' a' b' c' f' =
      Header.make (opc &&& opc') (a &&& a') (b &&& b') (c &&& c') (f &&& f') := by
  simp only [Header.make]
  ext i hi
  rw [← BitVec.getLsbD_eq_getElem, ← BitVec.getLsbD_eq_getElem]
  simp only [BitVec.getLsbD_and, BitVec.getLsbD_append]
  split <;> [skip; split <;> [skip; split <;> [skip; split]]] <;> simp

/-- A header is 0 exactly when its fields are. -/
theorem Header.make_eq_zero : Header.make opc a b c f = 0 ↔ opc = 0 ∧ a = 0 ∧ b = 0 ∧ c = 0 ∧ f = 0 := by
  constructor
  · intro h
    refine ⟨?_, ?_, ?_, ?_, ?_⟩
    · rw [← Header.opc_make opc a b c f, h]; rfl
    · rw [← Header.a_make opc a b c f, h]; rfl
    · rw [← Header.b_make opc a b c f, h]; rfl
    · rw [← Header.c_make opc a b c f, h]; rfl
    · rw [← Header.f_make opc a b c f, h]; rfl
  · rintro ⟨rfl, rfl, rfl, rfl, rfl⟩; rfl

end

@[simp] theorem Header.row_make (opc : BitVec 8) (row tbl : BitVec 8) (b c : BitVec 16) (f : BitVec 8) :
    Header.row (Header.make opc (row ++ tbl) b c f) = row := by
  simp only [Header.row, Header.a_make]
  ext i hi
  simp only [BitVec.getElem_extractLsb', BitVec.getLsbD_append]
  simp [hi, BitVec.getLsbD_eq_getElem]

@[simp] theorem Header.tbl_make (opc : BitVec 8) (row tbl : BitVec 8) (b c : BitVec 16) (f : BitVec 8) :
    Header.tbl (Header.make opc (row ++ tbl) b c f) = tbl := by
  simp only [Header.tbl, Header.a_make]
  ext i hi
  simp only [BitVec.getElem_extractLsb', BitVec.getLsbD_append]
  simp [hi, BitVec.getLsbD_eq_getElem]

/-- Field A is the table address (R93). -/
theorem Header.row_append_tbl (h : Word) : Header.row h ++ Header.tbl h = Header.a h := by
  ext i hi
  rw [← BitVec.getLsbD_eq_getElem, ← BitVec.getLsbD_eq_getElem]
  simp only [Header.row, Header.tbl, BitVec.getLsbD_append, BitVec.getLsbD_extractLsb']
  by_cases h1 : i < 8
  · simp [h1]
  · simp [h1, show i - 8 < 8 by omega, show 8 + (i - 8) = i by omega]

@[simp] theorem Header.flag_make (opc : BitVec 8) (a b c : BitVec 16) (x : Bool) :
    Header.flag (Header.make opc a b c (flagByte x)) = x := by
  simp only [Header.flag, Header.f_make]
  cases x <;> rfl

@[simp] theorem Header.thread_make (opc : BitVec 8) (a b c : BitVec 16) (t : BitVec 4) :
    Header.thread (Header.make opc a b c ((0 : BitVec 4) ++ t)) = t := by
  simp only [Header.thread, Header.f_make]
  ext i hi
  simp only [BitVec.getElem_extractLsb', BitVec.getLsbD_append]
  simp [hi, BitVec.getLsbD_eq_getElem]

/-! ## The opcode map -/

theorem Opcode.mem_all (op : Opcode) : op ∈ Opcode.all := by cases op <;> decide

@[simp] theorem Opcode.ofByte_byte (op : Opcode) : Opcode.ofByte op.byte = some op := by cases op <;> decide

theorem Opcode.ofByte_eq_some {b : Byte} {op : Opcode} : Opcode.ofByte b = some op ↔ op.byte = b := by
  constructor
  · intro h
    simpa [Opcode.ofByte] using List.find?_some h
  · rintro rfl; simp

theorem Opcode.byte_injective {op op' : Opcode} (h : op.byte = op'.byte) : op = op' := by
  have := Opcode.ofByte_byte op
  rw [h, Opcode.ofByte_byte] at this
  exact (Option.some.inj this).symm

theorem Opcode.ofByte_eq_none {b : Byte} : Opcode.ofByte b = none ↔ ∀ op : Opcode, op.byte ≠ b := by
  constructor
  · intro h op hop; rw [Opcode.ofByte_eq_some.mpr hop] at h; simp at h
  · intro h
    cases hb : Opcode.ofByte b with
    | none => rfl
    | some op => exact absurd (Opcode.ofByte_eq_some.mp hb) (h op)

/-- The opcode byte of an instruction's header is its opcode's. -/
@[simp] theorem Instr.opc_header (i : Instr) : Header.opc i.header = i.opcode.byte := by
  cases i <;> simp [Instr.header, Instr.opcode]

@[simp] theorem Instr.ofByte_header (i : Instr) : Opcode.ofByte (Header.opc i.header) = some i.opcode := by simp

/-- The instruction built from a frame has the opcode it is built for. -/
@[simp] theorem Opcode.opcode_build (p : Params) (fr : Frame) (op : Opcode) : (op.build p fr).opcode = op := by
  cases op <;> rfl

/-! ## Decoding, by its verdicts -/

theorem decode_illegal {p : Params} {fr : Frame} (h : Opcode.ofByte (Header.opc fr.header) = none) :
    decode p fr = .error .illegalOpcode := by simp [decode, h]

theorem decode_reserved {p : Params} {fr : Frame} {op : Opcode} (h : Opcode.ofByte (Header.opc fr.header) = some op)
    (hr : fr.header &&& op.reservedZero ≠ 0) : decode p fr = .error .reservedNonzero := by
  simp only [decode, h, if_pos hr]

theorem decode_length {p : Params} {fr : Frame} {op : Opcode} (h : Opcode.ofByte (Header.opc fr.header) = some op)
    (hr : fr.header &&& op.reservedZero = 0) (hl : fr.data.length ≠ op.dataWords p) :
    decode p fr = .error .lengthMismatch := by
  simp only [decode, h, if_neg (not_not.mpr hr), if_pos hl]

theorem decode_build {p : Params} {fr : Frame} {op : Opcode} (h : Opcode.ofByte (Header.opc fr.header) = some op)
    (hr : fr.header &&& op.reservedZero = 0) (hl : fr.data.length = op.dataWords p) :
    decode p fr = .ok (op.build p fr) := by
  simp only [decode, h, if_neg (not_not.mpr hr), if_neg (not_not.mpr hl)]

/-- What a frame that decodes passes, and what it decodes to. -/
theorem decode_ok {p : Params} {fr : Frame} {i : Instr} (h : decode p fr = .ok i) :
    ∃ op : Opcode, op.byte = Header.opc fr.header ∧ fr.header &&& op.reservedZero = 0 ∧ fr.data.length = op.dataWords p ∧
      i = op.build p fr := by
  cases ho : Opcode.ofByte (Header.opc fr.header) with
  | none => simp [decode_illegal ho] at h
  | some op =>
    by_cases hr : fr.header &&& op.reservedZero = 0
    · by_cases hl : fr.data.length = op.dataWords p
      · rw [decode_build ho hr hl] at h
        exact ⟨op, Opcode.ofByte_eq_some.mp ho, hr, hl, (Except.ok.inj h).symm⟩
      · simp [decode_length ho hr hl] at h
    · simp [decode_reserved ho hr] at h

/-- The codes the decoder rejects with. -/
theorem decode_error {p : Params} {fr : Frame} {c : Status} (h : decode p fr = .error c) :
    (c = .illegalOpcode ∧ Opcode.ofByte (Header.opc fr.header) = none) ∨
    ((c = .reservedNonzero ∨ c = .lengthMismatch) ∧ ∃ op : Opcode, op.byte = Header.opc fr.header) := by
  cases ho : Opcode.ofByte (Header.opc fr.header) with
  | none => rw [decode_illegal ho] at h; exact .inl ⟨(Except.error.inj h).symm, rfl⟩
  | some op =>
    refine .inr ⟨?_, op, Opcode.ofByte_eq_some.mp ho⟩
    by_cases hr : fr.header &&& op.reservedZero = 0
    · by_cases hl : fr.data.length = op.dataWords p
      · simp [decode_build ho hr hl] at h
      · rw [decode_length ho hr hl] at h; exact .inr (Except.error.inj h).symm
    · rw [decode_reserved ho hr] at h; exact .inl (Except.error.inj h).symm

/-! ## Words and numbers (R95) -/

/-- A concatenation as a number. -/
theorem toNat_append_eq {n m : Nat} (a : BitVec n) (b : BitVec m) : (a ++ b).toNat = a.toNat * 2 ^ m + b.toNat := by
  rw [BitVec.toNat_append, Nat.shiftLeft_eq, Nat.mul_comm, ← Nat.two_pow_add_eq_or_of_lt b.isLt, Nat.mul_comm]

@[simp] theorem natToWords_length (n v : Nat) : (natToWords n v).length = n := by
  induction n generalizing v with
  | zero => rfl
  | succ n ih => simp [natToWords, ih]

/-- Bit `k` of the number is bit `k mod 64` of word `k / 64`. -/
theorem wordsToNat_testBit (ws : List Word) (k : Nat) :
    (wordsToNat ws).testBit k = (ws.getD (k / 64) 0).getLsbD (k % 64) := by
  induction ws generalizing k with
  | nil => simp [wordsToNat]
  | cons w ws ih =>
    have hw : w.toNat < 2 ^ 64 := w.isLt
    rw [wordsToNat, Nat.add_comm, Nat.testBit_two_pow_mul_add _ hw]
    by_cases hk : k < 64
    · simp [hk, Nat.div_eq_of_lt hk, Nat.mod_eq_of_lt hk, BitVec.getLsbD]
    · have h1 : k / 64 = (k - 64) / 64 + 1 := by omega
      have h2 : k % 64 = (k - 64) % 64 := by omega
      rw [if_neg hk, ih, h1, h2]
      simp

theorem natToWords_getLsbD (n v k : Nat) (hv : v < 2 ^ (64 * n)) :
    ((natToWords n v).getD (k / 64) 0).getLsbD (k % 64) = v.testBit k := by
  induction n generalizing v k with
  | zero =>
    have : v = 0 := by simpa using hv
    simp [natToWords, this]
  | succ n ih =>
    have hv' : v / 2 ^ 64 < 2 ^ (64 * n) := by
      rw [Nat.div_lt_iff_lt_mul (by positivity), ← pow_add]
      exact hv.trans_le (le_of_eq (by ring_nf))
    by_cases hk : k < 64
    · rw [natToWords, Nat.div_eq_of_lt hk, Nat.mod_eq_of_lt hk, List.getD_cons_zero, BitVec.getLsbD_ofNat]
      simp [hk]
    · have h1 : k / 64 = (k - 64) / 64 + 1 := by omega
      have h2 : k % 64 = (k - 64) % 64 := by omega
      rw [natToWords, h1, h2, List.getD_cons_succ, ih _ _ hv', Nat.testBit_div_two_pow]
      congr 1; omega

theorem wordsToNat_lt (ws : List Word) : wordsToNat ws < 2 ^ (64 * ws.length) := by
  induction ws with
  | nil => simp [wordsToNat]
  | cons w ws ih =>
    have hw : w.toNat < 2 ^ 64 := w.isLt
    have : 2 ^ (64 * (w :: ws).length) = 2 ^ 64 * 2 ^ (64 * ws.length) := by
      rw [← pow_add]; congr 1; simp; ring
    rw [wordsToNat, this]
    nlinarith

theorem le_mul_nw (X : Nat) : X ≤ 64 * nw X := by unfold nw; omega

end Sys2Proof
end

