-- ==== Sys2Proof/Laws/Assembler.lean ====
section
/-! SUPPORT. What the parts of the assembler answer: the fields, the vectors and the pseudo-commands' expansions. -/

namespace Sys2Proof.Assembler

variable {p : Params}

theorem field_of_lt {w n : Nat} (h : n < 2 ^ w) : field w n = some (BitVec.ofNat w n) := by simp [field, h]

theorem vector_length {X n : Nat} {ws : List Word} (h : vector X n = some ws) : ws.length = nw X := by
  unfold vector at h
  split at h
  · simp only [Option.some.injEq] at h
    rw [← h, natToWords_length]
  · simp at h

theorem natToWords_zero (n : Nat) : natToWords n 0 = List.replicate n 0 := by
  induction n with
  | zero => rfl
  | succ n ih => simp [natToWords, ih, List.replicate]

theorem setRow_length (u r : BitVec 16) (v : BitVec p.N) : (setRow p u r v).length = p.N := by simp [setRow]

theorem setRow_get (u r : BitVec 16) (v : BitVec p.N) {c : Nat} (hc : c < p.N) :
    (setRow p u r v)[c]? = some (.setCoef u r (BitVec.ofNat 16 c) (v.getLsbD c)) := by simp [setRow, hc]

/-- The commands of a matrix, in row, then column order. -/
theorem setMatrix_get (u : BitVec 16) (r0 : Nat) (vs : List (BitVec p.N)) :
    (setMatrix p u r0 vs).length = vs.length * p.N ∧
    ∀ r c, r < vs.length → c < p.N → (setMatrix p u r0 vs)[r * p.N + c]? =
      some (.setCoef u (BitVec.ofNat 16 (r0 + r)) (BitVec.ofNat 16 c) ((vs.getD r 0).getLsbD c)) := by
  induction vs generalizing r0 with
  | nil => simp [setMatrix]
  | cons v vs ih =>
    obtain ⟨h1, h2⟩ := ih (r0 + 1)
    refine ⟨by simp only [setMatrix, List.length_append, h1, setRow_length, List.length_cons]; ring, fun r c hr hc => ?_⟩
    rw [setMatrix]
    cases r with
    | zero =>
      rw [List.getElem?_append_left (by rw [setRow_length]; omega)]
      simp [setRow, hc]
    | succ r =>
      have e : (r + 1) * p.N + c = p.N + (r * p.N + c) := by ring
      rw [List.getElem?_append_right (by rw [setRow_length, e]; omega), setRow_length, e, Nat.add_sub_cancel_left,
        h2 r c (by simpa using hr) hc]
      simp [Nat.add_assoc, Nat.add_comm 1 r]

theorem rowOperands_map (vs : List Nat) (h : ∀ v ∈ vs, v < 2 ^ p.N) :
    rowOperands p (vs.map .int) = some (vs.map (BitVec.ofNat p.N)) := by
  induction vs with
  | nil => rfl
  | cons v vs ih =>
    simp only [List.map_cons, rowOperands, field_of_lt (h v (by simp)), ih fun w hw => h w (by simp [hw])]
    rfl

end Sys2Proof.Assembler
end

