-- ==== Sys2Proof/Laws/Operands.lean ====
section
/-! SUPPORT. One lemma per operand check and per loop of Machine/Operands.lean: everything it can answer. -/

namespace Sys2Proof.Machine

/-! ## Checks -/

@[simp] theorem index_of_lt {n v : Nat} {code : Status} (h : v < n) : index n code v = .ok ⟨v, h⟩ := by simp [index, h]

@[simp] theorem index_of_not_lt {n v : Nat} {code : Status} (h : ¬ v < n) : index n code v = .error code := by
  simp [index, h]

@[simp] theorem fits_of_lt {X v : Nat} {code : Status} (h : v < 2 ^ X) : fits X code v = .ok (BitVec.ofNat X v) := by
  simp [fits, h]

@[simp] theorem fits_of_not_lt {X v : Nat} {code : Status} (h : ¬ v < 2 ^ X) : fits X code v = .error code := by
  simp [fits, h]

theorem index_cases (n : Nat) (code : Status) (v : Nat) :
    (∃ h : v < n, index n code v = .ok ⟨v, h⟩) ∨ (¬ v < n ∧ index n code v = .error code) := by
  by_cases h : v < n
  · exact .inl ⟨h, index_of_lt h⟩
  · exact .inr ⟨h, index_of_not_lt h⟩

theorem fits_cases (X : Nat) (code : Status) (v : Nat) :
    (v < 2 ^ X ∧ fits X code v = .ok (BitVec.ofNat X v)) ∨ (¬ v < 2 ^ X ∧ fits X code v = .error code) := by
  by_cases h : v < 2 ^ X
  · exact .inl ⟨h, fits_of_lt h⟩
  · exact .inr ⟨h, fits_of_not_lt h⟩

@[simp] theorem vectorOperand_of_lt {X : Nat} {ws : List Word} (h : wordsToNat ws < 2 ^ X) :
    vectorOperand X ws = .ok (BitVec.ofNat X (wordsToNat ws)) := fits_of_lt h

@[simp] theorem vectorOperand_of_not_lt {X : Nat} {ws : List Word} (h : ¬ wordsToNat ws < 2 ^ X) :
    vectorOperand X ws = .error .padNonzero := fits_of_not_lt h

@[simp] theorem versionOperand_of_lt {p : Params} {v : BitVec 16} (h : v.toNat < 2 ^ p.V) :
    versionOperand p v = .ok (BitVec.ofNat p.V v.toNat) := fits_of_lt h

@[simp] theorem versionOperand_of_not_lt {p : Params} {v : BitVec 16} (h : ¬ v.toNat < 2 ^ p.V) :
    versionOperand p v = .error .versionRange := fits_of_not_lt h

@[simp] theorem threadOperand_of_lt {p : Params} {t : BitVec 4} (h : t.toNat < p.THREADS) :
    threadOperand p t = .ok t := by simp [threadOperand, h]

@[simp] theorem threadOperand_of_not_lt {p : Params} {t : BitVec 4} (h : ¬ t.toNat < p.THREADS) :
    threadOperand p t = .error .threadRange := by simp [threadOperand, h]

@[simp] theorem widthOperand_of_legal {p : Params} {L : BitVec 16} (h : 1 ≤ L.toNat ∧ L.toNat ≤ p.LMAX) :
    widthOperand p L = .ok L.toNat := by simp [widthOperand, h]

@[simp] theorem widthOperand_of_not_legal {p : Params} {L : BitVec 16} (h : ¬ (1 ≤ L.toNat ∧ L.toNat ≤ p.LMAX)) :
    widthOperand p L = .error .widthRange := by simp only [widthOperand, if_neg h]

theorem widthOperand_cases (p : Params) (L : BitVec 16) :
    ((1 ≤ L.toNat ∧ L.toNat ≤ p.LMAX) ∧ widthOperand p L = .ok L.toNat) ∨
    (¬ (1 ≤ L.toNat ∧ L.toNat ≤ p.LMAX) ∧ widthOperand p L = .error .widthRange) := by
  by_cases h : 1 ≤ L.toNat ∧ L.toNat ≤ p.LMAX
  · exact .inl ⟨h, widthOperand_of_legal h⟩
  · exact .inr ⟨h, widthOperand_of_not_legal h⟩

@[simp] theorem tableOperand_of_lt {p : Params} {row tbl : BitVec 8} (hr : row.toNat < p.ROWS) (ht : tbl.toNat < p.TPR) :
    tableOperand p row tbl = .ok { row := ⟨row.toNat, hr⟩, tbl := ⟨tbl.toNat, ht⟩ } := by
  simp [tableOperand, hr, ht, bind, Except.bind, pure, Except.pure]

@[simp] theorem tableOperand_of_not_lt {p : Params} {row tbl : BitVec 8}
    (h : ¬ (row.toNat < p.ROWS ∧ tbl.toNat < p.TPR)) : tableOperand p row tbl = .error .tableRange := by
  by_cases hr : row.toNat < p.ROWS
  · have ht : ¬ tbl.toNat < p.TPR := fun ht => h ⟨hr, ht⟩
    simp [tableOperand, hr, ht, bind, Except.bind]
  · simp [tableOperand, hr, bind, Except.bind]

/-! ## Cells -/

@[simp] theorem readCell_val {α : Type} (f : ConfigField) (v : α) : readCell f (.val v) = .ok v := rfl
@[simp] theorem readCell_unwritten {α : Type} (f : ConfigField) : readCell f (.unwritten : Cell α) = .error f := rfl
@[simp] theorem isWritten_val {α : Type} (v : α) : isWritten (.val v) = true := rfl
@[simp] theorem isWritten_unwritten {α : Type} : isWritten (.unwritten : Cell α) = false := rfl

theorem isWritten_iff {α : Type} (c : Cell α) : isWritten c = true ↔ ∃ v, c = .val v := by
  cases c <;> simp

/-! ## Loops -/

theorem xorOver_congr {n : Nat} {f g : Fin n → Bool} (h : ∀ i, f i = g i) : xorOver n f = xorOver n g := by
  rw [funext h]

@[simp] theorem xorOver_false (n : Nat) : xorOver n (fun _ => false) = false := by
  induction n with
  | zero => rfl
  | succ n ih => simp [xorOver, ih]

theorem xorOver_xor (n : Nat) (f g : Fin n → Bool) :
    xorOver n (fun i => f i ^^ g i) = (xorOver n f ^^ xorOver n g) := by
  induction n with
  | zero => rfl
  | succ n ih =>
    simp only [xorOver, ih]
    cases xorOver n (fun i => f i.castSucc) <;> cases xorOver n (fun i => g i.castSucc) <;> simp

@[simp] theorem getLsbD_bitsOf {n : Nat} (f : Fin n → Bool) (i : Nat) :
    (bitsOf n f).getLsbD i = if h : i < n then f ⟨i, h⟩ else false := by
  induction n with
  | zero => simp [bitsOf]
  | succ n ih =>
    simp only [bitsOf, BitVec.getLsbD_cons, ih]
    by_cases h : i = n
    · subst h; simp [Fin.last]
    · by_cases h' : i < n
      · simp [h, h', Nat.lt_succ_of_lt h']
      · have : ¬ i < n + 1 := by omega
        simp [h, h', this]

@[simp] theorem getElem_bitsOf {n : Nat} (f : Fin n → Bool) (i : Nat) (h : i < n) : (bitsOf n f)[i] = f ⟨i, h⟩ := by
  rw [← BitVec.getLsbD_eq_getElem, getLsbD_bitsOf, dif_pos h]

theorem firstOver_eq_none {α : Type} {n : Nat} {f : Fin n → Option α} :
    firstOver n f = none ↔ ∀ i, f i = none := by
  induction n with
  | zero => simp [firstOver]
  | succ n ih =>
    simp only [firstOver, Fin.forall_fin_succ']
    cases h : firstOver n fun i => f i.castSucc with
    | none => simp [ih.mp h]
    | some a =>
      have := ih.not.mp (by simp [h] : ¬ firstOver n (fun i => f i.castSucc) = none)
      simp [this]

theorem firstOver_eq_some {α : Type} {n : Nat} {f : Fin n → Option α} {a : α} :
    firstOver n f = some a ↔ ∃ i, f i = some a ∧ ∀ j, j < i → f j = none := by
  induction n generalizing a with
  | zero => simp [firstOver]
  | succ n ih =>
    simp only [firstOver]
    cases h : firstOver n fun i => f i.castSucc with
    | none =>
      have h0 := firstOver_eq_none.mp h
      constructor
      · intro hf
        refine ⟨Fin.last n, hf, fun j hj => ?_⟩
        have := h0 ⟨j.val, by simpa [Fin.lt_def] using hj⟩
        simpa using this
      · rintro ⟨i, hi, -⟩
        rcases Fin.eq_castSucc_or_eq_last i with ⟨k, rfl⟩ | rfl
        · simp [h0 k] at hi
        · exact hi
    | some b =>
      obtain ⟨i, hi, hlt⟩ := ih.mp h
      simp only [Option.some.injEq]
      constructor
      · rintro rfl
        refine ⟨i.castSucc, hi, fun j hj => ?_⟩
        have hjn : j.val < n := lt_of_lt_of_le (by simpa [Fin.lt_def] using hj) (Nat.le_of_lt i.isLt)
        simpa using hlt ⟨j.val, hjn⟩ (by simpa [Fin.lt_def] using hj)
      · rintro ⟨k, hk, hkl⟩
        rcases lt_trichotomy k i.castSucc with hlt' | heq | hgt
        · have hkn : k.val < n := lt_of_lt_of_le (by simpa [Fin.lt_def] using hlt') (Nat.le_of_lt i.isLt)
          have := hlt ⟨k.val, hkn⟩ (by simpa [Fin.lt_def] using hlt')
          simp only [Fin.castSucc_mk] at this
          rw [show (⟨k.val, _⟩ : Fin (n + 1)) = k from rfl, hk] at this
          simp at this
        · rw [heq, hi] at hk; simpa using hk
        · rw [hkl _ hgt] at hi; simp at hi

/-! ## Parity -/

@[simp] theorem parity_zero (n : Nat) : parity (0#n) = false := by simp [parity]

theorem parity_xor {n : Nat} (a b : BitVec n) : parity (a ^^^ b) = (parity a ^^ parity b) := by
  simp [parity, xorOver_xor]

end Sys2Proof.Machine
end

