-- ==== Sys2Proof/Laws/State.lean ====
section
/-! SUPPORT. What each field of the block and of a bank reads after each update, so that no proof unfolds a record update. -/

namespace Sys2Proof.Machine

variable {p : Params}

/-! ## Vectors -/

theorem get_put {α : Type} {n : Nat} (v : Vector α n) (i j : Fin n) (x : α) :
    (put v i x).get j = if j = i then x else v.get j := by
  simp only [put, Vector.get_eq_getElem, Vector.getElem_set, Fin.ext_iff]
  by_cases h : i.val = j.val
  · simp [h]
  · simp [h, Ne.symm h]

@[simp] theorem get_put_same {α : Type} {n : Nat} (v : Vector α n) (i : Fin n) (x : α) : (put v i x).get i = x := by
  simp [get_put]

@[simp] theorem get_put_ne {α : Type} {n : Nat} (v : Vector α n) {i j : Fin n} (x : α) (h : j ≠ i) :
    (put v i x).get j = v.get j := by simp [get_put, h]

/-- A second write of the same place takes the first one's. -/
@[simp] theorem put_put {α : Type} {n : Nat} (v : Vector α n) (i : Fin n) (x y : α) : put (put v i x) i y = put v i y := by
  simp [put]

@[simp] theorem get_replicate {α : Type} (n : Nat) (x : α) (i : Fin n) : (Vector.replicate n x).get i = x := by
  simp [Vector.get_eq_getElem]

/-! ## Banks -/

theorem Bank.coefAt_setCoef (b : Bank p) (u u' : Fin p.U) (r r' : Fin p.M) (c c' : Fin p.N) (v : Bool) :
    (b.setCoef u r c v).coefAt u' r' c' = if u' = u ∧ r' = r ∧ c' = c then .val v else b.coefAt u' r' c' := by
  simp only [Bank.coefAt, Bank.setCoef, get_put]
  by_cases hu : u' = u
  · subst hu
    by_cases hr : r' = r
    · subst hr
      simp [get_put]
    · simp [hr]
  · simp [hu]

theorem Bank.maskAt_setMask (b : Bank p) (g g' : Fin p.G) (j j' : Fin p.LMAX) (v : BitVec p.N) :
    (b.setMask g j v).maskAt g' j' = if g' = g ∧ j' = j then .val v else b.maskAt g' j' := by
  simp only [Bank.maskAt, Bank.setMask, get_put]
  by_cases hg : g' = g
  · subst hg
    simp [get_put]
  · simp [hg]

theorem Bank.entryAt_setEntry (b : Bank p) (t t' : TableAddr p) (i i' : Fin p.K) (e : GwEntry p) :
    (b.setEntry t i e).entryAt t' i' = if t' = t ∧ i' = i then e else b.entryAt t' i' := by
  obtain ⟨r, c⟩ := t
  obtain ⟨r', c'⟩ := t'
  simp only [Bank.entryAt, Bank.setEntry, get_put, TableAddr.mk.injEq]
  by_cases hr : r' = r
  · subst hr
    by_cases hc : c' = c
    · subst hc
      simp [get_put]
    · simp [hc]
  · simp [hr]

theorem Bank.selectAt_setSelect (b : Bank p) (t t' : TableAddr p) (x : GwSelect) :
    (b.setSelect t x).selectAt t' = if t' = t then x else b.selectAt t' := by
  obtain ⟨r, c⟩ := t
  obtain ⟨r', c'⟩ := t'
  simp only [Bank.selectAt, Bank.setSelect, get_put, TableAddr.mk.injEq]
  by_cases hr : r' = r
  · subst hr
    simp [get_put]
  · simp [hr]

@[simp] theorem Bank.setCoef_seed (b : Bank p) (u r c v) : (b.setCoef u r c v).seed = b.seed := rfl
@[simp] theorem Bank.setCoef_gunit (b : Bank p) (u r c v) : (b.setCoef u r c v).gunit = b.gunit := rfl
@[simp] theorem Bank.setCoef_gwidth (b : Bank p) (u r c v) : (b.setCoef u r c v).gwidth = b.gwidth := rfl
@[simp] theorem Bank.setCoef_gmask (b : Bank p) (u r c v) : (b.setCoef u r c v).gmask = b.gmask := rfl
@[simp] theorem Bank.setCoef_gw (b : Bank p) (u r c v) : (b.setCoef u r c v).gw = b.gw := rfl
@[simp] theorem Bank.setCoef_gsel (b : Bank p) (u r c v) : (b.setCoef u r c v).gsel = b.gsel := rfl
@[simp] theorem Bank.setSeed_coef (b : Bank p) (u v) : (b.setSeed u v).coef = b.coef := rfl
@[simp] theorem Bank.setSeed_gunit (b : Bank p) (u v) : (b.setSeed u v).gunit = b.gunit := rfl
@[simp] theorem Bank.setSeed_gwidth (b : Bank p) (u v) : (b.setSeed u v).gwidth = b.gwidth := rfl
@[simp] theorem Bank.setSeed_gmask (b : Bank p) (u v) : (b.setSeed u v).gmask = b.gmask := rfl
@[simp] theorem Bank.setSeed_gw (b : Bank p) (u v) : (b.setSeed u v).gw = b.gw := rfl
@[simp] theorem Bank.setSeed_gsel (b : Bank p) (u v) : (b.setSeed u v).gsel = b.gsel := rfl
@[simp] theorem Bank.setSeed_seed (b : Bank p) (u v) : (b.setSeed u v).seed = put b.seed u (.val v) := rfl
@[simp] theorem Bank.setGroup_coef (b : Bank p) (g u L) : (b.setGroup g u L).coef = b.coef := rfl
@[simp] theorem Bank.setGroup_seed (b : Bank p) (g u L) : (b.setGroup g u L).seed = b.seed := rfl
@[simp] theorem Bank.setGroup_gunit (b : Bank p) (g u L) : (b.setGroup g u L).gunit = put b.gunit g (.val u) := rfl
@[simp] theorem Bank.setGroup_gwidth (b : Bank p) (g u L) : (b.setGroup g u L).gwidth = put b.gwidth g (.val L) := rfl
@[simp] theorem Bank.setGroup_gmask (b : Bank p) (g u L) : (b.setGroup g u L).gmask = b.gmask := rfl
@[simp] theorem Bank.setGroup_gw (b : Bank p) (g u L) : (b.setGroup g u L).gw = b.gw := rfl
@[simp] theorem Bank.setGroup_gsel (b : Bank p) (g u L) : (b.setGroup g u L).gsel = b.gsel := rfl
@[simp] theorem Bank.setMask_coef (b : Bank p) (g j v) : (b.setMask g j v).coef = b.coef := rfl
@[simp] theorem Bank.setMask_seed (b : Bank p) (g j v) : (b.setMask g j v).seed = b.seed := rfl
@[simp] theorem Bank.setMask_gunit (b : Bank p) (g j v) : (b.setMask g j v).gunit = b.gunit := rfl
@[simp] theorem Bank.setMask_gwidth (b : Bank p) (g j v) : (b.setMask g j v).gwidth = b.gwidth := rfl
@[simp] theorem Bank.setMask_gw (b : Bank p) (g j v) : (b.setMask g j v).gw = b.gw := rfl
@[simp] theorem Bank.setMask_gsel (b : Bank p) (g j v) : (b.setMask g j v).gsel = b.gsel := rfl
@[simp] theorem Bank.setEntry_coef (b : Bank p) (t i e) : (b.setEntry t i e).coef = b.coef := rfl
@[simp] theorem Bank.setEntry_seed (b : Bank p) (t i e) : (b.setEntry t i e).seed = b.seed := rfl
@[simp] theorem Bank.setEntry_gunit (b : Bank p) (t i e) : (b.setEntry t i e).gunit = b.gunit := rfl
@[simp] theorem Bank.setEntry_gwidth (b : Bank p) (t i e) : (b.setEntry t i e).gwidth = b.gwidth := rfl
@[simp] theorem Bank.setEntry_gmask (b : Bank p) (t i e) : (b.setEntry t i e).gmask = b.gmask := rfl
@[simp] theorem Bank.setEntry_gsel (b : Bank p) (t i e) : (b.setEntry t i e).gsel = b.gsel := rfl
@[simp] theorem Bank.setSelect_coef (b : Bank p) (t x) : (b.setSelect t x).coef = b.coef := rfl
@[simp] theorem Bank.setSelect_seed (b : Bank p) (t x) : (b.setSelect t x).seed = b.seed := rfl
@[simp] theorem Bank.setSelect_gunit (b : Bank p) (t x) : (b.setSelect t x).gunit = b.gunit := rfl
@[simp] theorem Bank.setSelect_gwidth (b : Bank p) (t x) : (b.setSelect t x).gwidth = b.gwidth := rfl
@[simp] theorem Bank.setSelect_gmask (b : Bank p) (t x) : (b.setSelect t x).gmask = b.gmask := rfl
@[simp] theorem Bank.setSelect_gw (b : Bank p) (t x) : (b.setSelect t x).gw = b.gw := rfl

/-! ## Ports -/

@[simp] theorem Block.port_setPort_same (m : Block p) (q : Port p.E) (ps : PortState) : (m.setPort q ps).port q = ps := by
  cases q <;> simp [Block.setPort, Block.port]

@[simp] theorem Block.port_setPort_ne (m : Block p) {q q' : Port p.E} (ps : PortState) (h : q' ≠ q) :
    (m.setPort q ps).port q' = m.port q' := by
  cases q <;> cases q' <;> simp_all [Block.setPort, Block.port]

@[simp] theorem Block.setPort_stg (m : Block p) (q ps) : (m.setPort q ps).stg = m.stg := rfl
@[simp] theorem Block.setPort_act (m : Block p) (q ps) : (m.setPort q ps).act = m.act := rfl
@[simp] theorem Block.setPort_status (m : Block p) (q ps) : (m.setPort q ps).status = m.status := rfl
@[simp] theorem Block.setPort_gen (m : Block p) (q ps) : (m.setPort q ps).gen = m.gen := rfl
@[simp] theorem Block.setPort_fault (m : Block p) (q ps) : (m.setPort q ps).fault = m.fault := rfl
@[simp] theorem Block.setPort_cur (m : Block p) (q ps) : (m.setPort q ps).cur = m.cur := rfl
@[simp] theorem Block.setPort_schedule (m : Block p) (q ps) : (m.setPort q ps).schedule = m.schedule := rfl
@[simp] theorem Block.setPort_picks (m : Block p) (q ps) : (m.setPort q ps).picks = m.picks := rfl

@[simp] theorem Block.complete_stg (m : Block p) (r) : (m.complete r).stg = m.stg := rfl
@[simp] theorem Block.complete_act (m : Block p) (r) : (m.complete r).act = m.act := rfl
@[simp] theorem Block.complete_status (m : Block p) (r) : (m.complete r).status = m.status := rfl
@[simp] theorem Block.complete_gen (m : Block p) (r) : (m.complete r).gen = m.gen := rfl
@[simp] theorem Block.complete_fault (m : Block p) (r) : (m.complete r).fault = m.fault := rfl
@[simp] theorem Block.complete_cur (m : Block p) (r) : (m.complete r).cur = m.cur := rfl
@[simp] theorem Block.complete_schedule (m : Block p) (r) : (m.complete r).schedule = m.schedule := rfl
@[simp] theorem Block.complete_picks (m : Block p) (r) : (m.complete r).picks = m.picks := rfl

@[simp] theorem Block.complete_port_cur (m : Block p) (r : Response) :
    (m.complete r).port m.cur =
      { prog := (m.port m.cur).prog, pc := (m.port m.cur).pc + 1, resp := (m.port m.cur).resp ++ [r] } := by
  simp [Block.complete]

@[simp] theorem Block.complete_port_ne (m : Block p) (r : Response) {q : Port p.E} (h : q ≠ m.cur) :
    (m.complete r).port q = m.port q := by simp [Block.complete, h]

/-! ## Staging, faulting, rejecting -/

@[simp] theorem Block.stage_stg (m : Block p) (op b) : (m.stage op b).stg = b := rfl
@[simp] theorem Block.stage_act (m : Block p) (op b) : (m.stage op b).act = m.act := rfl
@[simp] theorem Block.stage_status (m : Block p) (op b) : (m.stage op b).status = m.status := rfl
@[simp] theorem Block.stage_gen (m : Block p) (op b) : (m.stage op b).gen = m.gen := rfl
@[simp] theorem Block.stage_fault (m : Block p) (op b) : (m.stage op b).fault = m.fault := rfl
@[simp] theorem Block.stage_cur (m : Block p) (op b) : (m.stage op b).cur = m.cur := rfl

@[simp] theorem Block.recordFault_stg (m : Block p) (op f) : (m.recordFault op f).stg = m.stg := rfl
@[simp] theorem Block.recordFault_act (m : Block p) (op f) : (m.recordFault op f).act = m.act := rfl
@[simp] theorem Block.recordFault_status (m : Block p) (op f) : (m.recordFault op f).status = m.status := rfl
@[simp] theorem Block.recordFault_gen (m : Block p) (op f) : (m.recordFault op f).gen = m.gen := rfl
@[simp] theorem Block.recordFault_port (m : Block p) (op f q) : (m.recordFault op f).port q = m.port q := by
  cases q <;> rfl
@[simp] theorem Block.recordFault_fault (m : Block p) (op f) : (m.recordFault op f).fault =
    m.fault ++ [{ port := m.cur, pc := (m.port m.cur).pc, opc := op, field := f }] := rfl

@[simp] theorem Block.answer_stg (m : Block p) (op e) : (m.answer op e).stg = m.stg := by cases e <;> rfl
@[simp] theorem Block.answer_act (m : Block p) (op e) : (m.answer op e).act = m.act := by cases e <;> rfl
@[simp] theorem Block.answer_status (m : Block p) (op e) : (m.answer op e).status = m.status := by cases e <;> rfl
@[simp] theorem Block.answer_gen (m : Block p) (op e) : (m.answer op e).gen = m.gen := by cases e <;> rfl
@[simp] theorem Block.answer_cur (m : Block p) (op e) : (m.answer op e).cur = m.cur := by cases e <;> rfl

@[simp] theorem Block.reject_stg (m : Block p) (h c) : (m.reject h c).stg = m.stg := by
  unfold Block.reject; split <;> rfl
@[simp] theorem Block.reject_act (m : Block p) (h c) : (m.reject h c).act = m.act := by
  unfold Block.reject; split <;> rfl
@[simp] theorem Block.reject_gen (m : Block p) (h c) : (m.reject h c).gen = m.gen := by
  unfold Block.reject; split <;> rfl
@[simp] theorem Block.reject_fault (m : Block p) (h c) : (m.reject h c).fault = m.fault := by
  unfold Block.reject; split <;> rfl
@[simp] theorem Block.reject_cur (m : Block p) (h c) : (m.reject h c).cur = m.cur := by
  unfold Block.reject; split <;> rfl

/-! ## Reset -/

@[simp] theorem Block.applyReset_stg (m : Block p) : m.applyReset.stg = Bank.reset p := rfl
@[simp] theorem Block.applyReset_act (m : Block p) : m.applyReset.act = Bank.reset p := rfl
@[simp] theorem Block.applyReset_status (m : Block p) : m.applyReset.status = CfgStatus.reset := rfl
@[simp] theorem Block.applyReset_gen (m : Block p) : m.applyReset.gen = 0 := rfl
@[simp] theorem Block.applyReset_fault (m : Block p) : m.applyReset.fault = [] := rfl
@[simp] theorem Block.applyReset_schedule (m : Block p) : m.applyReset.schedule = m.schedule := rfl

@[simp] theorem Block.applyReset_port (m : Block p) (q : Port p.E) :
    m.applyReset.port q = { prog := (m.port q).prog, pc := 0, resp := [] } := by
  cases q with
  | cfgp => rfl
  | evp k => simp [Block.applyReset, Block.port, Vector.get_eq_getElem]

end Sys2Proof.Machine
end

