-- ==== Sys2Proof/Laws/Ops.lean ====
section
/-! SUPPORT. What each shared operation does, said once in the relations of Safety.lean: completing, staging, faulting,
rejecting, the frame of a command, and the choice of the next turn. -/

namespace Sys2Proof.Machine

variable {p : Params}

/-! ## Response words -/

theorem respWord_toNat (hi : BitVec 32) (mid : BitVec 16) (opc : Byte) (c : Status) : (respWord hi mid opc c).toNat =
    hi.toNat * 2 ^ 32 + mid.toNat * 2 ^ 16 + opc.toNat * 2 ^ 8 + c.byte.toNat := by
  simp only [respWord, toNat_append_eq]; omega

/-- A response word whose middle field is 0: the high field above the opcode and the status. -/
theorem respWord_eq_append (hi : BitVec 32) (opc : Byte) (c : Status) :
    respWord hi 0 opc c = hi ++ BitVec.setWidth 32 (opc ++ c.byte) := by
  apply BitVec.eq_of_toNat_eq
  have ho := opc.isLt
  have hc := c.byte.isLt
  rw [respWord_toNat]
  simp only [toNat_append_eq, BitVec.toNat_setWidth]
  simp; omega

/-- The status and the opcode of a response word (R110). -/
theorem respWord_status (hi : BitVec 32) (mid : BitVec 16) (opc : Byte) (c : Status) :
    (respWord hi mid opc c).extractLsb' 0 8 = c.byte := by
  apply BitVec.eq_of_toNat_eq
  have hc := c.byte.isLt
  rw [BitVec.extractLsb'_toNat, respWord_toNat, Nat.shiftRight_zero]
  omega

theorem respWord_opcode (hi : BitVec 32) (mid : BitVec 16) (opc : Byte) (c : Status) :
    (respWord hi mid opc c).extractLsb' 8 8 = opc := by
  apply BitVec.eq_of_toNat_eq
  have hc := c.byte.isLt
  have ho := opc.isLt
  rw [BitVec.extractLsb'_toNat, respWord_toNat, Nat.shiftRight_eq_div_pow]
  omega

/-! ## The endings of a command -/

theorem Block.complete_sameInputs (m : Block p) (r : Response) : m.SameInputs (m.complete r) where
  cur := rfl
  schedule := rfl
  picks := rfl
  prog q := by
    by_cases h : q = m.cur
    · subst h; simp
    · simp [h]

theorem Block.complete_answered (m : Block p) (r : Response) : m.Answered (m.complete r) r where
  inputs := m.complete_sameInputs r
  resp := by simp
  pc := by simp
  others q h := by simp [h]

/-- A block that differs from `m` only in banks, status, `GEN` and `FAULT` completes as `m` does. -/
theorem Block.complete_answered_of_ports (m n : Block p) (r : Response) (hc : n.cur = m.cur)
    (hs : n.schedule = m.schedule) (hp : n.picks = m.picks) (hq : ∀ q, n.port q = m.port q) :
    m.Answered (n.complete r) r where
  inputs :=
    { cur := by simp [hc]
      schedule := by simp [hs]
      picks := by simp [hp]
      prog := fun q => by rw [(n.complete_sameInputs r).prog, hq] }
  resp := by rw [← hc]; simp [hq]
  pc := by rw [← hc]; simp [hq]
  others q h := by rw [Block.complete_port_ne _ _ (by rw [hc]; exact h), hq]

theorem Block.complete_onlyAnswered (m : Block p) (r : Response) : m.OnlyAnswered (m.complete r) r :=
  ⟨m.complete_answered r, ⟨⟨rfl, rfl⟩, rfl, rfl, rfl⟩⟩

theorem Block.stage_staged (m : Block p) (op : Opcode) (b : Bank p) : m.Staged (m.stage op b) op b where
  answered := m.complete_answered_of_ports _ _ rfl rfl rfl fun q => by cases q <;> rfl
  stg := rfl
  act := rfl
  status := rfl
  gen := rfl
  fault := rfl

theorem Block.recordFault_faulted (m : Block p) (op : Opcode) (f : ConfigField) : m.Faulted (m.recordFault op f) op f where
  inputs := ⟨rfl, rfl, rfl, fun q => by simp⟩
  fault := rfl
  ports q := by simp
  banks := ⟨rfl, rfl⟩
  status := rfl
  gen := rfl

/-- Everything a rejection does. -/
theorem Block.reject_rejected (m : Block p) (h : Word) (c : Status) : m.Rejected (m.reject h c) h c := by
  unfold Block.reject
  by_cases hc : (isConfigWrite (Header.opc h) && m.cur == .cfgp) = true
  · rw [if_pos hc]
    refine ⟨m.complete_answered_of_ports _ _ rfl rfl rfl fun q => by cases q <;> rfl, ⟨rfl, rfl⟩, rfl, rfl, ?_⟩
    simp only [Block.configError, Block.complete_status, CfgStatus.capture, hc]
    cases m.status.err <;> simp
  · rw [if_neg hc]
    refine ⟨m.complete_answered _, ⟨rfl, rfl⟩, rfl, rfl, ?_⟩
    simp only [Block.configMismatch, Block.complete_status]
    simp only [Bool.not_eq_true] at hc
    simp [hc]

/-- What a rejection does to `CFG_STATUS`: nothing, or the capture of a configuration write on CFGP where `ERR` was 0. -/
theorem Block.reject_status_cases (m : Block p) (h : Word) (c : Status) : (m.reject h c).status = m.status ∨
    (m.status.err = false ∧ m.cur = .cfgp ∧ isConfigWrite (Header.opc h) = true ∧
      (m.reject h c).status =
        { err := true, code := c, capOpc := Header.opc h, capA := Header.a h, capB := Header.b h, capC := Header.c h,
          capF := Header.f h }) := by
  rw [(m.reject_rejected h c).status]
  split
  · rename_i h'
    simp only [Bool.and_eq_true, beq_iff_eq, Bool.not_eq_true'] at h'
    exact .inr ⟨h'.2, h'.1.2, h'.1.1, rfl⟩
  · exact .inl rfl

/-- What the port in turn holds after an answer. -/
theorem Block.Answered.port_cur {m m' : Block p} {r : Response} (h : m.Answered m' r) : m'.port m.cur =
    { prog := (m.port m.cur).prog, pc := (m.port m.cur).pc + 1, resp := (m.port m.cur).resp ++ [r] } := by
  have h1 := h.inputs.prog m.cur
  have h2 := h.pc
  have h3 := h.resp
  cases hp : m'.port m.cur
  rw [hp] at h1 h2 h3
  simp only at h1 h2 h3
  simp [h1, h2, h3]

/-- Everything the end of an evaluation can do. -/
theorem Block.answer_cases (m : Block p) (op : Opcode) (e : Except ConfigField Response) :
    (∃ r, e = .ok r ∧ m.OnlyAnswered (m.answer op e) r) ∨ (∃ f, e = .error f ∧ m.Faulted (m.answer op e) op f) := by
  cases e with
  | ok r => exact .inl ⟨r, rfl, m.complete_onlyAnswered r⟩
  | error f => exact .inr ⟨f, rfl, m.recordFault_faulted op f⟩

/-! ## The frame of a command -/

/-- A command always answers a next state, with the same parameters. -/
theorem State.command_next (s : State) (i : Instr) (body : Except Status (Block s.params)) :
    ∃ m : Block s.params, s.command i body = .next { params := s.params, block := m } := ⟨_, rfl⟩

theorem State.command_denied (m : Block p) (i : Instr) (body : Except Status (Block p)) (h : m.allows i.opcode = false) :
    State.command { params := p, block := m } i body =
      .next { params := p, block := m.reject i.header .portDenied } := by
  simp [State.command, h]

theorem State.command_ok (m m' : Block p) (i : Instr) (h : m.allows i.opcode = true) :
    State.command { params := p, block := m } i (.ok m') = .next { params := p, block := m' } := by
  simp [State.command, h]

theorem State.command_error (m : Block p) (i : Instr) (c : Status) (h : m.allows i.opcode = true) :
    State.command { params := p, block := m } i (.error c) = .next { params := p, block := m.reject i.header c } := by
  simp [State.command, h]

@[simp] theorem Block.allows_of_cfgp {m : Block p} (h : m.cur = .cfgp) (op : Opcode) : m.allows op = true := by
  simp [Block.allows, h]

theorem Block.allows_iff {m : Block p} {op : Opcode} : m.allows op = true ↔ m.cur = .cfgp ∨ op.cfgpOnly = false := by
  simp [Block.allows]

@[simp] theorem Block.allows_nop (m : Block p) : m.allows .nop = true := Block.allows_iff.mpr (.inr rfl)
@[simp] theorem Block.allows_readStatus (m : Block p) : m.allows .readStatus = true := Block.allows_iff.mpr (.inr rfl)
@[simp] theorem Block.allows_hashRaw (m : Block p) : m.allows .hashRaw = true := Block.allows_iff.mpr (.inr rfl)
@[simp] theorem Block.allows_hash (m : Block p) : m.allows .hash = true := Block.allows_iff.mpr (.inr rfl)
@[simp] theorem Block.allows_hgroup (m : Block p) : m.allows .hgroup = true := Block.allows_iff.mpr (.inr rfl)
@[simp] theorem Block.allows_gwEval (m : Block p) : m.allows .gwEval = true := Block.allows_iff.mpr (.inr rfl)

/-! ## The next turn -/

theorem Block.scheduled_turn (m : Block p) (q : Port p.E) (es : List (Event p.E)) (fr : Frame) (h : m.pending q = some fr) :
    m.scheduled (.turn q :: es) = some (.serve fr { m with schedule := es, cur := q }) := by
  simp [Block.scheduled, h]

theorem Block.scheduled_skip (m : Block p) (q : Port p.E) (es : List (Event p.E)) (h : m.pending q = none) :
    m.scheduled (.turn q :: es) = m.scheduled es := by
  simp [Block.scheduled, h]

theorem mem_allPorts {E : Nat} (q : Port E) : q ∈ allPorts E := by
  cases q with
  | cfgp => simp [allPorts]
  | evp k => simp [allPorts]

theorem Block.mem_ready {m : Block p} {q : Port p.E} {fr : Frame} : (q, fr) ∈ m.ready ↔ m.pending q = some fr := by
  simp only [Block.ready, List.mem_filterMap, Option.map_eq_some_iff, Prod.mk.injEq]
  constructor
  · rintro ⟨q', -, fr', h, rfl, rfl⟩; exact h
  · intro h; exact ⟨q, mem_allPorts q, fr, h, rfl, rfl⟩

/-- Everything the choice of the next turn can give. A frame is served on a port that can step, with only the schedule, the
port in turn and the count of choices changed; reset only where the schedule holds it. -/
theorem Block.nextTurn_cases (m : Block p) :
    (∃ q fr es k, m.nextTurn = some (.serve fr { m with schedule := es, cur := q, picks := k }) ∧ m.pending q = some fr) ∨
    (∃ es, m.nextTurn = some (.reset { m with schedule := es })) ∨
    (m.nextTurn = none ∧ (∀ q, m.pending q = none) ∧ .reset ∉ m.schedule) := by
  have hsched : ∀ es, (∃ q fr es', m.scheduled es = some (.serve fr { m with schedule := es', cur := q }) ∧
      m.pending q = some fr) ∨ (∃ es', m.scheduled es = some (.reset { m with schedule := es' })) ∨
      (m.scheduled es = none ∧ .reset ∉ es) := by
    intro es
    induction es with
    | nil => exact .inr (.inr ⟨rfl, by simp⟩)
    | cons e es ih =>
      cases e with
      | reset => exact .inr (.inl ⟨es, rfl⟩)
      | turn q =>
        cases hq : m.pending q with
        | some fr => exact .inl ⟨q, fr, es, m.scheduled_turn q es fr hq, hq⟩
        | none => simpa [m.scheduled_skip q es hq] using ih
  unfold Block.nextTurn
  rcases hsched m.schedule with ⟨q, fr, es, h, hq⟩ | ⟨es, h⟩ | ⟨h, hr⟩
  · exact .inl ⟨q, fr, es, m.picks, by simp [h], hq⟩
  · exact .inr (.inl ⟨es, by simp [h]⟩)
  · simp only [h]
    unfold Block.unscheduled
    cases hm : m.ready with
    | nil =>
      refine .inr (.inr ⟨rfl, fun q => ?_, hr⟩)
      cases hq : m.pending q with
      | none => rfl
      | some fr => have := Block.mem_ready.mpr hq; simp [hm] at this
    | cons x xs =>
      cases xs with
      | nil =>
        exact .inl ⟨x.1, x.2, [], m.picks, rfl, Block.mem_ready.mp (by simp [hm])⟩
      | cons y ys =>
        refine .inl ⟨_, _, [], m.picks + 1, rfl, Block.mem_ready.mp ?_⟩
        rw [hm]
        have hlt : Config.portChoice m.picks % (ys.length + 2) < (x :: y :: ys).length := by
          simp only [List.length_cons]; exact Nat.mod_lt _ (by omega)
        rw [List.getD_eq_getElem _ _ hlt]
        exact List.getElem_mem hlt

/-- A port that can step has no recorded fault, and its index names a frame of its stream. -/
theorem Block.pending_eq_some {m : Block p} {q : Port p.E} {fr : Frame} (h : m.pending q = some fr) :
    (¬ ∃ r ∈ m.fault, r.port = q) ∧ (m.port q).prog[(m.port q).pc]? = some fr := by
  unfold Block.pending at h
  cases hf : m.faulted q with
  | true => simp [hf] at h
  | false =>
    rw [hf] at h
    exact ⟨by simpa [Block.faulted] using hf, by simpa using h⟩

/-- A port cannot step exactly where it has a recorded fault or no frame left. -/
theorem Block.pending_eq_none {m : Block p} {q : Port p.E} : m.pending q = none ↔
    ((∃ r ∈ m.fault, r.port = q) ∨ (m.port q).prog.length ≤ (m.port q).pc) := by
  simp only [Block.pending]
  cases h : m.faulted q with
  | false =>
    have : ¬ ∃ r ∈ m.fault, r.port = q := by simpa [Block.faulted] using h
    simp [this]
  | true =>
    have : ∃ r ∈ m.fault, r.port = q := by simpa [Block.faulted] using h
    simp [this]

/-- The schedule, the port in turn and the count of choices are no part of what a port holds. -/
@[simp] theorem Block.port_turn (m : Block p) (es q k) (q' : Port p.E) :
    Block.port { m with schedule := es, cur := q, picks := k } q' = m.port q' := by cases q' <;> rfl

/-- The block of a turn that serves a frame. -/
theorem Block.nextTurn_serve {m m1 : Block p} {fr : Frame} (h : m.nextTurn = some (.serve fr m1)) :
    ∃ q es k, m1 = { m with schedule := es, cur := q, picks := k } ∧ m.pending q = some fr := by
  rcases m.nextTurn_cases with ⟨q, fr', es, k, h', hp⟩ | ⟨es, h'⟩ | ⟨h', -⟩
  · rw [h'] at h
    simp only [Option.some.injEq, Turn.serve.injEq] at h
    obtain ⟨rfl, rfl⟩ := h
    exact ⟨q, es, k, rfl, hp⟩
  · simp [h'] at h
  · simp [h'] at h

/-- The block of a turn that applies reset. -/
theorem Block.nextTurn_reset {m m1 : Block p} (h : m.nextTurn = some (.reset m1)) :
    ∃ es, m1 = { m with schedule := es } := by
  rcases m.nextTurn_cases with ⟨q, fr', es, k, h', hp⟩ | ⟨es, h'⟩ | ⟨h', -⟩
  · simp [h'] at h
  · rw [h'] at h
    simp only [Option.some.injEq, Turn.reset.injEq] at h
    exact ⟨es, h.symm⟩
  · simp [h'] at h

end Sys2Proof.Machine
end

