-- ==== Sys2Proof/Laws/Exec.lean ====
section
/-! SUPPORT. Every instruction's meaning in closed form: what it does where its checks pass, and what it does where one fails;
then everything one instruction can do, said once. -/

namespace Sys2Proof.Machine

variable {p : Params} {m : Block p}

/-- Two next states over the same parameters agree where their blocks do. -/
theorem next_inj {a b : Block p} (h : (Host.Outcome.next { params := p, block := a } : Host.Outcome State Fault Refusal) =
    .next { params := p, block := b }) : a = b := by
  simpa using h

/-- An instruction's outcome is a next state with the same parameters. -/
theorem exec_next (i : Instr) (s : State) : ∃ m' : Block s.params, exec i s = .next { params := s.params, block := m' } := by
  cases i <;> exact ⟨_, rfl⟩

/-- Every meaning has the frame of a command: its own checks and effect behind the port check. -/
theorem exec_eq_command (i : Instr) (s : State) : ∃ body, exec i s = s.command i body := by
  cases i <;> first | exact ⟨_, rfl⟩ | exact ⟨.ok _, rfl⟩

/-! ## Where the checks pass -/

theorem exec_nop_ok : exec .nop { params := p, block := m } =
    .next { params := p, block := m.complete (okResponse .nop) } :=
  State.command_ok m _ .nop (by simp [Instr.opcode])

theorem exec_setCoef_ok {u r c : BitVec 16} {bit : Bool} (ha : m.cur = .cfgp) (hu : u.toNat < p.U) (hr : r.toNat < p.M)
    (hc : c.toNat < p.N) : exec (.setCoef u r c bit) { params := p, block := m } =
    .next { params := p, block := m.stage .setCoef (m.stg.setCoef ⟨_, hu⟩ ⟨_, hr⟩ ⟨_, hc⟩ bit) } := by
  simp [exec, execSetCoef, State.command, ha, hu, hr, hc, bind, Except.bind, pure, Except.pure]

theorem exec_setSeed_ok {u : BitVec 16} {seed : List Word} (ha : m.cur = .cfgp) (hu : u.toNat < p.U)
    (hs : wordsToNat seed < 2 ^ p.N) : exec (.setSeed u seed) { params := p, block := m } =
    .next { params := p, block := m.stage .setSeed (m.stg.setSeed ⟨_, hu⟩ (BitVec.ofNat _ (wordsToNat seed))) } := by
  simp [exec, execSetSeed, State.command, ha, hu, hs, bind, Except.bind, pure, Except.pure]

theorem exec_setGroup_ok {g u L : BitVec 16} (ha : m.cur = .cfgp) (hg : g.toNat < p.G) (hu : u.toNat < p.U)
    (hL : 1 ≤ L.toNat ∧ L.toNat ≤ p.LMAX) : exec (.setGroup g u L) { params := p, block := m } =
    .next { params := p, block := m.stage .setGroup (m.stg.setGroup ⟨_, hg⟩ ⟨_, hu⟩ L.toNat) } := by
  simp only [exec, execSetGroup, State.command, Instr.opcode, m.allows_of_cfgp ha, index_of_lt hg, index_of_lt hu,
    widthOperand_of_legal hL, bind, Except.bind, pure, Except.pure, if_true]

theorem exec_setPmask_ok {g j : BitVec 16} {mask : List Word} (ha : m.cur = .cfgp) (hg : g.toNat < p.G)
    (hj : j.toNat < p.LMAX) (hm : wordsToNat mask < 2 ^ p.N) : exec (.setPmask g j mask) { params := p, block := m } =
    .next { params := p,
            block := m.stage .setPmask (m.stg.setMask ⟨_, hg⟩ ⟨_, hj⟩ (BitVec.ofNat _ (wordsToNat mask))) } := by
  simp [exec, execSetPmask, State.command, ha, hg, hj, hm, bind, Except.bind, pure, Except.pure]

theorem exec_setGwEntry_ok {row tbl : BitVec 8} {i version : BitVec 16} {valid : Bool} {value dontCare : List Word}
    (ha : m.cur = .cfgp) (hr : row.toNat < p.ROWS) (ht : tbl.toNat < p.TPR) (hi : i.toNat < p.K)
    (hv : version.toNat < 2 ^ p.V) (hx : wordsToNat value < 2 ^ p.W) (hd : wordsToNat dontCare < 2 ^ p.W) :
    exec (.setGwEntry row tbl i version valid value dontCare) { params := p, block := m } =
    .next { params := p,
            block := m.stage .setGwEntry (m.stg.setEntry { row := ⟨_, hr⟩, tbl := ⟨_, ht⟩ } ⟨_, hi⟩
              { m.stg.entryAt { row := ⟨_, hr⟩, tbl := ⟨_, ht⟩ } ⟨_, hi⟩ with
                valid := valid, value := .val (BitVec.ofNat _ (wordsToNat value)),
                dc := .val (BitVec.ofNat _ (wordsToNat dontCare)), ver := .val (BitVec.ofNat _ version.toNat) }) } := by
  simp [exec, execSetGwEntry, State.command, ha, hr, ht, hi, hv, hx, hd, bind, Except.bind, pure, Except.pure]

theorem exec_setGwPayload_ok {row tbl : BitVec 8} {i : BitVec 16} {payload : List Word} (ha : m.cur = .cfgp)
    (hr : row.toNat < p.ROWS) (ht : tbl.toNat < p.TPR) (hi : i.toNat < p.K) (hp : wordsToNat payload < 2 ^ p.P) :
    exec (.setGwPayload row tbl i payload) { params := p, block := m } =
    .next { params := p,
            block := m.stage .setGwPayload (m.stg.setEntry { row := ⟨_, hr⟩, tbl := ⟨_, ht⟩ } ⟨_, hi⟩
              { m.stg.entryAt { row := ⟨_, hr⟩, tbl := ⟨_, ht⟩ } ⟨_, hi⟩ with
                payload := .val (BitVec.ofNat _ (wordsToNat payload)) }) } := by
  simp [exec, execSetGwPayload, State.command, ha, hr, ht, hi, hp, bind, Except.bind, pure, Except.pure]

theorem exec_setGwSelect_ok {row tbl : BitVec 8} {in0 in1 : BitVec 16} {tmode : BitVec 8} (ha : m.cur = .cfgp)
    (hr : row.toNat < p.ROWS) (ht : tbl.toNat < p.TPR) :
    exec (.setGwSelect row tbl in0 in1 tmode) { params := p, block := m } =
    .next { params := p,
            block := m.stage .setGwSelect (m.stg.setSelect { row := ⟨_, hr⟩, tbl := ⟨_, ht⟩ }
              { in0 := .val in0, in1 := .val in1, tmode := .val tmode }) } := by
  simp [exec, execSetGwSelect, State.command, ha, hr, ht, bind, Except.bind, pure, Except.pure]

theorem exec_commit_ok (ha : m.cur = .cfgp) (he : m.status.err = false) : exec .commit { params := p, block := m } =
    .next { params := p,
            block := { m with act := m.stg, gen := m.gen + 1 }.complete (commitResponse (m.gen + 1)) } := by
  simp [exec, execCommit, State.command, ha, he]

theorem exec_abort_ok (ha : m.cur = .cfgp) : exec .abort { params := p, block := m } =
    .next { params := p,
            block := { m with stg := m.act, status := CfgStatus.reset }.complete (okResponse .abort) } := by
  simp [exec, execAbort, State.command, ha]

theorem exec_clearErr_ok (ha : m.cur = .cfgp) : exec .clearErr { params := p, block := m } =
    .next { params := p, block := { m with status := CfgStatus.reset }.complete (okResponse .clearErr) } := by
  simp [exec, execClearErr, State.command, ha]

theorem exec_readStatus_ok : exec .readStatus { params := p, block := m } =
    .next { params := p, block := m.complete (statusResponse m.status m.gen) } :=
  State.command_ok m _ .readStatus (by simp [Instr.opcode])

theorem exec_hashRaw_ok {u : BitVec 16} {x : List Word} (hu : u.toNat < p.U) (hx : wordsToNat x < 2 ^ p.M) :
    exec (.hashRaw u x) { params := p, block := m } =
    .next { params := p,
            block := m.answer .hashRaw do
              let h ← compute m.act ⟨u.toNat, hu⟩ (BitVec.ofNat _ (wordsToNat x))
              return hashResponse .hashRaw m.gen h } := by
  simp [exec, execHashRaw, State.command, Instr.opcode, hu, hx, bind, Except.bind, pure, Except.pure]

theorem exec_hash_ok {u : BitVec 16} {x : List Word} (hu : u.toNat < p.U) (hx : wordsToNat x < 2 ^ p.M) :
    exec (.hash u x) { params := p, block := m } =
    .next { params := p,
            block := m.answer .hash do
              let h ← seeded m.act ⟨u.toNat, hu⟩ (BitVec.ofNat _ (wordsToNat x))
              return hashResponse .hash m.gen h } := by
  simp [exec, execHash, State.command, Instr.opcode, hu, hx, bind, Except.bind, pure, Except.pure]

theorem exec_hgroup_ok {g : BitVec 16} {x : List Word} (hg : g.toNat < p.G) (hx : wordsToNat x < 2 ^ p.M) :
    exec (.hgroup g x) { params := p, block := m } =
    .next { params := p,
            block := m.answer .hgroup do
              let u ← readCell (.gunit g.toNat) (m.act.gunit.get ⟨g.toNat, hg⟩)
              let L ← readCell (.gwidth g.toNat) (m.act.gwidth.get ⟨g.toNat, hg⟩)
              let h ← seeded m.act u (BitVec.ofNat _ (wordsToNat x))
              let out ← groupValue m.act ⟨g.toNat, hg⟩ L h
              return groupResponse m.gen L out } := by
  simp [exec, execHgroup, State.command, Instr.opcode, hg, hx, bind, Except.bind, pure, Except.pure]

theorem exec_gwEval_ok {row tbl : BitVec 8} {thread : BitVec 4} {version : BitVec 16} {live : List Word}
    (hr : row.toNat < p.ROWS) (ht : tbl.toNat < p.TPR) (hv : version.toNat < 2 ^ p.V) (hth : thread.toNat < p.THREADS)
    (hl : wordsToNat live < 2 ^ p.W) : exec (.gwEval row tbl thread version live) { params := p, block := m } =
    .next { params := p,
            block := m.answer .gwEval do
              let r ← evaluate m.act { row := ⟨row.toNat, hr⟩, tbl := ⟨tbl.toNat, ht⟩ }
                (BitVec.ofNat _ (wordsToNat live)) { thread := thread, version := BitVec.ofNat _ version.toNat }
              return gatewayResponse m.gen r } := by
  simp [exec, execGwEval, State.command, Instr.opcode, hr, ht, hv, hth, hl, bind, Except.bind, pure,
    Except.pure]

/-! ## Where a check fails -/

/-- The first failing check decides, and the command is rejected with its code. -/
theorem exec_of_firstFailure {i : Instr} {c : Status} (h : firstFailure m i = some c) :
    exec i { params := p, block := m } = .next { params := p, block := m.reject i.header c } := by
  by_cases ha : m.allows i.opcode = true
  · have hc : ((operandChecks p i ++ errCheck m i).find? fun x => !x.1).map (fun x => x.2) = some c := by
      have : (m.cur == Port.cfgp || !i.opcode.cfgpOnly) = true := ha
      simpa [firstFailure, this] using h
    cases i with
    | nop => simp [operandChecks, errCheck, Instr.opcode] at hc
    | setCoef u r c' bit =>
      by_cases hu : u.toNat < p.U <;> by_cases hr : r.toNat < p.M <;> by_cases hcc : c'.toNat < p.N <;>
        simp_all [operandChecks, errCheck, Instr.opcode, exec, execSetCoef, State.command, bind, Except.bind]
    | setSeed u seed =>
      by_cases hu : u.toNat < p.U <;> by_cases hs : wordsToNat seed < 2 ^ p.N <;>
        simp_all [operandChecks, errCheck, Instr.opcode, exec, execSetSeed, State.command, bind, Except.bind]
    | setGroup g u L =>
      by_cases hg : g.toNat < p.G <;> by_cases hu : u.toNat < p.U <;>
        rcases widthOperand_cases p L with ⟨hL, hw⟩ | ⟨hL, hw⟩ <;>
        simp_all [operandChecks, errCheck, Instr.opcode, exec, execSetGroup, State.command, bind, Except.bind]
    | setPmask g j mask =>
      by_cases hg : g.toNat < p.G <;> by_cases hj : j.toNat < p.LMAX <;> by_cases hm : wordsToNat mask < 2 ^ p.N <;>
        simp_all [operandChecks, errCheck, Instr.opcode, exec, execSetPmask, State.command, bind, Except.bind]
    | setGwEntry row tbl k version valid value dontCare =>
      by_cases ht : row.toNat < p.ROWS ∧ tbl.toNat < p.TPR <;> by_cases hk : k.toNat < p.K <;>
        by_cases hv : version.toNat < 2 ^ p.V <;> by_cases hx : wordsToNat value < 2 ^ p.W <;>
        by_cases hd : wordsToNat dontCare < 2 ^ p.W <;>
        simp_all [operandChecks, errCheck, Instr.opcode, exec, execSetGwEntry, State.command, bind, Except.bind]
    | setGwPayload row tbl k payload =>
      by_cases ht : row.toNat < p.ROWS ∧ tbl.toNat < p.TPR <;> by_cases hk : k.toNat < p.K <;>
        by_cases hx : wordsToNat payload < 2 ^ p.P <;>
        simp_all [operandChecks, errCheck, Instr.opcode, exec, execSetGwPayload, State.command, bind, Except.bind]
    | setGwSelect row tbl in0 in1 tmode =>
      by_cases ht : row.toNat < p.ROWS ∧ tbl.toNat < p.TPR <;>
        simp_all [operandChecks, errCheck, Instr.opcode, exec, execSetGwSelect, State.command, bind, Except.bind]
    | commit =>
      cases he : m.status.err <;>
        simp_all [operandChecks, errCheck, Instr.opcode, exec, execCommit, State.command]
    | abort => simp [operandChecks, errCheck, Instr.opcode] at hc
    | clearErr => simp [operandChecks, errCheck, Instr.opcode] at hc
    | readStatus => simp [operandChecks, errCheck, Instr.opcode] at hc
    | hashRaw u x =>
      by_cases hu : u.toNat < p.U <;> by_cases hx : wordsToNat x < 2 ^ p.M <;>
        simp_all [operandChecks, errCheck, Instr.opcode, exec, execHashRaw, State.command, bind, Except.bind]
    | hash u x =>
      by_cases hu : u.toNat < p.U <;> by_cases hx : wordsToNat x < 2 ^ p.M <;>
        simp_all [operandChecks, errCheck, Instr.opcode, exec, execHash, State.command, bind, Except.bind]
    | hgroup g x =>
      by_cases hg : g.toNat < p.G <;> by_cases hx : wordsToNat x < 2 ^ p.M <;>
        simp_all [operandChecks, errCheck, Instr.opcode, exec, execHgroup, State.command, bind, Except.bind]
    | gwEval row tbl thread version live =>
      by_cases ht : row.toNat < p.ROWS ∧ tbl.toNat < p.TPR <;> by_cases hv : version.toNat < 2 ^ p.V <;>
        by_cases hth : thread.toNat < p.THREADS <;> by_cases hx : wordsToNat live < 2 ^ p.W <;>
        simp_all [operandChecks, errCheck, Instr.opcode, exec, execGwEval, State.command, bind, Except.bind]
  · have hf : (m.cur == Port.cfgp || !i.opcode.cfgpOnly) = false := by
      simpa only [Block.allows, Bool.not_eq_true] using ha
    have hc : c = .portDenied := by simpa [firstFailure, hf, eq_comm] using h
    subst hc
    have ha' : m.allows i.opcode = false := by simpa using ha
    obtain ⟨body, hb⟩ := exec_eq_command i { params := p, block := m }
    rw [hb]
    exact State.command_denied m i body ha'

/-- What the passing of every check says. -/
theorem firstFailure_eq_none {i : Instr} (h : firstFailure m i = none) :
    (m.cur = .cfgp ∨ i.opcode.cfgpOnly = false) ∧ (∀ x ∈ operandChecks p i, x.1 = true) ∧
      (i = .commit → m.status.err = false) := by
  simp only [firstFailure, Option.map_eq_none_iff, List.find?_eq_none, List.mem_cons, List.mem_append] at h
  refine ⟨?_, fun x hx => ?_, ?_⟩
  · by_cases hcur : m.cur = .cfgp
    · exact .inl hcur
    · exact .inr (by simpa [hcur] using h _ (.inl rfl))
  · simpa using h x (.inr (.inl hx))
  · rintro rfl
    simpa [errCheck, Instr.opcode] using h (!m.status.err, .loadFailed) (.inr (.inr (by simp [errCheck, Instr.opcode])))

/-! ## Everything one instruction can do -/

/-- Everything one instruction can do: it is rejected; it stages a bank (a configuration write on CFGP), publishes the staged
bank (COMMIT on CFGP with `ERR = 0`), reverts it (ABORT on CFGP), or clears the error (CLEAR_ERR on CFGP); it only answers; or,
an evaluation, it faults. -/
theorem exec_cases (m : Block p) (i : Instr) : ∃ m' : Block p,
    exec i { params := p, block := m } = .next { params := p, block := m' } ∧
    ((∃ c, firstFailure m i = some c ∧ m' = m.reject i.header c) ∨
      (firstFailure m i = none ∧
        ((isConfigWrite i.opcode.byte = true ∧ m.cur = .cfgp ∧ ∃ b, m' = m.stage i.opcode b) ∨
          (i = .commit ∧ m.cur = .cfgp ∧ m.status.err = false ∧
            m' = { m with act := m.stg, gen := m.gen + 1 }.complete (commitResponse (m.gen + 1))) ∨
          (i = .abort ∧ m.cur = .cfgp ∧
            m' = { m with stg := m.act, status := CfgStatus.reset }.complete (okResponse .abort)) ∨
          (i = .clearErr ∧ m.cur = .cfgp ∧
            m' = { m with status := CfgStatus.reset }.complete (okResponse .clearErr)) ∨
          (i = .nop ∧ m' = m.complete (okResponse .nop)) ∨
          (i = .readStatus ∧ m' = m.complete (statusResponse m.status m.gen)) ∨
          (isEvaluation i.opcode = true ∧ ∃ e, m' = m.answer i.opcode e)))) := by
  cases hf : firstFailure m i with
  | some c => exact ⟨_, exec_of_firstFailure hf, .inl ⟨c, rfl, rfl⟩⟩
  | none =>
    obtain ⟨hp, hc, he⟩ := firstFailure_eq_none hf
    cases i with
    | nop => exact ⟨_, exec_nop_ok, by simp⟩
    | setCoef u r c bit =>
      simp [operandChecks, Instr.opcode, Opcode.cfgpOnly] at hp hc
      exact ⟨_, exec_setCoef_ok hp hc.1 hc.2.1 hc.2.2, .inr ⟨rfl, .inl ⟨rfl, hp, _, rfl⟩⟩⟩
    | setSeed u seed =>
      simp [operandChecks, Instr.opcode, Opcode.cfgpOnly] at hp hc
      exact ⟨_, exec_setSeed_ok hp hc.1 hc.2, .inr ⟨rfl, .inl ⟨rfl, hp, _, rfl⟩⟩⟩
    | setGroup g u L =>
      simp [operandChecks, Instr.opcode, Opcode.cfgpOnly] at hp hc
      exact ⟨_, exec_setGroup_ok hp hc.1 hc.2.1 hc.2.2, .inr ⟨rfl, .inl ⟨rfl, hp, _, rfl⟩⟩⟩
    | setPmask g j mask =>
      simp [operandChecks, Instr.opcode, Opcode.cfgpOnly] at hp hc
      exact ⟨_, exec_setPmask_ok hp hc.1 hc.2.1 hc.2.2, .inr ⟨rfl, .inl ⟨rfl, hp, _, rfl⟩⟩⟩
    | setGwEntry row tbl k version valid value dontCare =>
      simp [operandChecks, Instr.opcode, Opcode.cfgpOnly] at hp hc
      exact ⟨_, exec_setGwEntry_ok hp hc.1.1 hc.1.2 hc.2.1 hc.2.2.1 hc.2.2.2.1 hc.2.2.2.2,
        .inr ⟨rfl, .inl ⟨rfl, hp, _, rfl⟩⟩⟩
    | setGwPayload row tbl k payload =>
      simp [operandChecks, Instr.opcode, Opcode.cfgpOnly] at hp hc
      exact ⟨_, exec_setGwPayload_ok hp hc.1.1 hc.1.2 hc.2.1 hc.2.2, .inr ⟨rfl, .inl ⟨rfl, hp, _, rfl⟩⟩⟩
    | setGwSelect row tbl in0 in1 tmode =>
      simp [operandChecks, Instr.opcode, Opcode.cfgpOnly] at hp hc
      exact ⟨_, exec_setGwSelect_ok hp hc.1 hc.2, .inr ⟨rfl, .inl ⟨rfl, hp, _, rfl⟩⟩⟩
    | commit =>
      simp [Instr.opcode, Opcode.cfgpOnly] at hp
      exact ⟨_, exec_commit_ok hp (he rfl), by simp [hp, he rfl]⟩
    | abort =>
      simp [Instr.opcode, Opcode.cfgpOnly] at hp
      exact ⟨_, exec_abort_ok hp, by simp [hp]⟩
    | clearErr =>
      simp [Instr.opcode, Opcode.cfgpOnly] at hp
      exact ⟨_, exec_clearErr_ok hp, by simp [hp]⟩
    | readStatus => exact ⟨_, exec_readStatus_ok, by simp⟩
    | hashRaw u x =>
      simp [operandChecks] at hc
      exact ⟨_, exec_hashRaw_ok hc.1 hc.2, .inr ⟨rfl, by simp [Instr.opcode, isEvaluation]⟩⟩
    | hash u x =>
      simp [operandChecks] at hc
      exact ⟨_, exec_hash_ok hc.1 hc.2, .inr ⟨rfl, by simp [Instr.opcode, isEvaluation]⟩⟩
    | hgroup g x =>
      simp [operandChecks] at hc
      exact ⟨_, exec_hgroup_ok hc.1 hc.2, .inr ⟨rfl, by simp [Instr.opcode, isEvaluation]⟩⟩
    | gwEval row tbl thread version live =>
      simp [operandChecks] at hc
      exact ⟨_, exec_gwEval_ok hc.1.1 hc.1.2 hc.2.1 hc.2.2.1 hc.2.2.2,
        .inr ⟨rfl, by simp [Instr.opcode, isEvaluation]⟩⟩

/-- Everything one instruction can do to the staged bank: nothing, the copy of ABORT, or the one update of a configuration
write. -/
theorem exec_stg_cases {m' : Block p} {i : Instr}
    (h : exec i { params := p, block := m } = .next { params := p, block := m' }) :
    m'.stg = m.stg ∨ m'.stg = m.act ∨ (∃ u r c v, m'.stg = m.stg.setCoef u r c v) ∨ (∃ u v, m'.stg = m.stg.setSeed u v) ∨
    (∃ g u L, (1 ≤ L ∧ L ≤ p.LMAX) ∧ m'.stg = m.stg.setGroup g u L) ∨ (∃ g j v, m'.stg = m.stg.setMask g j v) ∨
    (∃ t k valid value dc ver, m'.stg = m.stg.setEntry t k
      { m.stg.entryAt t k with valid := valid, value := .val value, dc := .val dc, ver := .val ver }) ∨
    (∃ t k pl, m'.stg = m.stg.setEntry t k { m.stg.entryAt t k with payload := .val pl }) ∨
    (∃ t in0 in1 tmode, m'.stg = m.stg.setSelect t { in0 := .val in0, in1 := .val in1, tmode := .val tmode }) := by
  cases hf : firstFailure m i with
  | some c =>
    rw [next_inj (h.symm.trans (exec_of_firstFailure hf))]
    exact .inl (Block.reject_stg _ _ _)
  | none =>
    obtain ⟨hp, hc, he⟩ := firstFailure_eq_none hf
    cases i with
    | nop => rw [next_inj (h.symm.trans exec_nop_ok)]; exact .inl rfl
    | setCoef u r c bit =>
      simp [operandChecks, Instr.opcode, Opcode.cfgpOnly] at hp hc
      rw [next_inj (h.symm.trans (exec_setCoef_ok hp hc.1 hc.2.1 hc.2.2))]
      exact .inr (.inr (.inl ⟨_, _, _, _, rfl⟩))
    | setSeed u seed =>
      simp [operandChecks, Instr.opcode, Opcode.cfgpOnly] at hp hc
      rw [next_inj (h.symm.trans (exec_setSeed_ok hp hc.1 hc.2))]
      exact .inr (.inr (.inr (.inl ⟨_, _, rfl⟩)))
    | setGroup g u L =>
      simp [operandChecks, Instr.opcode, Opcode.cfgpOnly] at hp hc
      rw [next_inj (h.symm.trans (exec_setGroup_ok hp hc.1 hc.2.1 hc.2.2))]
      exact .inr (.inr (.inr (.inr (.inl ⟨_, _, _, hc.2.2, rfl⟩))))
    | setPmask g j mask =>
      simp [operandChecks, Instr.opcode, Opcode.cfgpOnly] at hp hc
      rw [next_inj (h.symm.trans (exec_setPmask_ok hp hc.1 hc.2.1 hc.2.2))]
      exact .inr (.inr (.inr (.inr (.inr (.inl ⟨_, _, _, rfl⟩)))))
    | setGwEntry row tbl k version valid value dontCare =>
      simp [operandChecks, Instr.opcode, Opcode.cfgpOnly] at hp hc
      rw [next_inj (h.symm.trans (exec_setGwEntry_ok hp hc.1.1 hc.1.2 hc.2.1 hc.2.2.1 hc.2.2.2.1 hc.2.2.2.2))]
      exact .inr (.inr (.inr (.inr (.inr (.inr (.inl ⟨_, _, _, _, _, _, rfl⟩))))))
    | setGwPayload row tbl k payload =>
      simp [operandChecks, Instr.opcode, Opcode.cfgpOnly] at hp hc
      rw [next_inj (h.symm.trans (exec_setGwPayload_ok hp hc.1.1 hc.1.2 hc.2.1 hc.2.2))]
      exact .inr (.inr (.inr (.inr (.inr (.inr (.inr (.inl ⟨_, _, _, rfl⟩)))))))
    | setGwSelect row tbl in0 in1 tmode =>
      simp [operandChecks, Instr.opcode, Opcode.cfgpOnly] at hp hc
      rw [next_inj (h.symm.trans (exec_setGwSelect_ok hp hc.1 hc.2))]
      exact .inr (.inr (.inr (.inr (.inr (.inr (.inr (.inr ⟨_, _, _, _, rfl⟩)))))))
    | commit =>
      simp [Instr.opcode, Opcode.cfgpOnly] at hp
      rw [next_inj (h.symm.trans (exec_commit_ok hp (he rfl)))]; exact .inl rfl
    | abort =>
      simp [Instr.opcode, Opcode.cfgpOnly] at hp
      rw [next_inj (h.symm.trans (exec_abort_ok hp))]; exact .inr (.inl rfl)
    | clearErr =>
      simp [Instr.opcode, Opcode.cfgpOnly] at hp
      rw [next_inj (h.symm.trans (exec_clearErr_ok hp))]; exact .inl rfl
    | readStatus => rw [next_inj (h.symm.trans exec_readStatus_ok)]; exact .inl rfl
    | hashRaw u x =>
      simp [operandChecks] at hc
      rw [next_inj (h.symm.trans (exec_hashRaw_ok hc.1 hc.2)), Block.answer_stg]; exact .inl rfl
    | hash u x =>
      simp [operandChecks] at hc
      rw [next_inj (h.symm.trans (exec_hash_ok hc.1 hc.2)), Block.answer_stg]; exact .inl rfl
    | hgroup g x =>
      simp [operandChecks] at hc
      rw [next_inj (h.symm.trans (exec_hgroup_ok hc.1 hc.2)), Block.answer_stg]; exact .inl rfl
    | gwEval row tbl thread version live =>
      simp [operandChecks] at hc
      rw [next_inj (h.symm.trans (exec_gwEval_ok hc.1.1 hc.1.2 hc.2.1 hc.2.2.1 hc.2.2.2)), Block.answer_stg]
      exact .inl rfl

/-- `exec_cases` for a next state at hand. -/
theorem exec_outcome {m' : Block p} {i : Instr}
    (h : exec i { params := p, block := m } = .next { params := p, block := m' }) :
    (∃ c, firstFailure m i = some c ∧ m' = m.reject i.header c) ∨
      (firstFailure m i = none ∧
        ((isConfigWrite i.opcode.byte = true ∧ m.cur = .cfgp ∧ ∃ b, m' = m.stage i.opcode b) ∨
          (i = .commit ∧ m.cur = .cfgp ∧ m.status.err = false ∧
            m' = { m with act := m.stg, gen := m.gen + 1 }.complete (commitResponse (m.gen + 1))) ∨
          (i = .abort ∧ m.cur = .cfgp ∧
            m' = { m with stg := m.act, status := CfgStatus.reset }.complete (okResponse .abort)) ∨
          (i = .clearErr ∧ m.cur = .cfgp ∧
            m' = { m with status := CfgStatus.reset }.complete (okResponse .clearErr)) ∨
          (i = .nop ∧ m' = m.complete (okResponse .nop)) ∨
          (i = .readStatus ∧ m' = m.complete (statusResponse m.status m.gen)) ∨
          (isEvaluation i.opcode = true ∧ ∃ e, m' = m.answer i.opcode e))) := by
  obtain ⟨m'', h', hc⟩ := exec_cases m i
  rwa [next_inj (h.symm.trans h')]

/-- A failing check never has the code `OK`. -/
theorem firstFailure_ne_ok {i : Instr} {c : Status} (h : firstFailure m i = some c) : c ≠ .ok := by
  rintro rfl
  simp only [firstFailure, Option.map_eq_some_iff] at h
  obtain ⟨x, hx, h2⟩ := h
  have : ∀ y ∈ ((m.cur == .cfgp || !i.opcode.cfgpOnly, Status.portDenied) :: (operandChecks p i ++ errCheck m i)),
      y.2 ≠ .ok := by
    cases i <;> simp [operandChecks, errCheck, Instr.opcode]
  exact this x (List.mem_of_find?_eq_some hx) h2

/-- What one instruction does to the ports and to `FAULT`: it answers and records no fault, or, an evaluation, it faults. -/
theorem exec_moves {m' : Block p} {i : Instr}
    (h : exec i { params := p, block := m } = .next { params := p, block := m' }) :
    (∃ r, m.Answered m' r ∧ m'.fault = m.fault) ∨ (isEvaluation i.opcode = true ∧ ∃ f, m.Faulted m' i.opcode f) := by
  have hp : ∀ (n : Block p), n.cfgp = m.cfgp → n.evp = m.evp → ∀ q, n.port q = m.port q := by
    intro n h1 h2 q
    cases q with
    | cfgp => exact h1
    | evp k => simp only [Block.port, h2]
  rcases exec_outcome h with ⟨c, -, rfl⟩ | ⟨-, ⟨-, -, b, rfl⟩ | ⟨-, -, -, rfl⟩ | ⟨-, -, rfl⟩ | ⟨-, -, rfl⟩ | ⟨-, rfl⟩ |
    ⟨-, rfl⟩ | ⟨hev, e, rfl⟩⟩
  · exact .inl ⟨_, (m.reject_rejected _ _).answered, by simp⟩
  · exact .inl ⟨_, (m.stage_staged _ _).answered, rfl⟩
  · exact .inl ⟨_, m.complete_answered_of_ports _ _ rfl rfl rfl (hp _ rfl rfl), rfl⟩
  · exact .inl ⟨_, m.complete_answered_of_ports _ _ rfl rfl rfl (hp _ rfl rfl), rfl⟩
  · exact .inl ⟨_, m.complete_answered_of_ports _ _ rfl rfl rfl (hp _ rfl rfl), rfl⟩
  · exact .inl ⟨_, m.complete_answered _, rfl⟩
  · exact .inl ⟨_, m.complete_answered _, rfl⟩
  · rcases m.answer_cases i.opcode e with ⟨r, -, h⟩ | ⟨f, -, h⟩
    · exact .inl ⟨r, h.answered, h.same.fault⟩
    · exact .inr ⟨hev, f, h⟩

/-- One instruction leaves the active bank, or makes it the staged one. -/
theorem exec_act_cases {m' : Block p} {i : Instr}
    (h : exec i { params := p, block := m } = .next { params := p, block := m' }) : m'.act = m.act ∨ m'.act = m.stg := by
  rcases exec_outcome h with ⟨c, -, rfl⟩ | ⟨-, ⟨-, -, b, rfl⟩ | ⟨-, -, -, rfl⟩ | ⟨-, -, rfl⟩ | ⟨-, -, rfl⟩ | ⟨-, rfl⟩ |
    ⟨-, rfl⟩ | ⟨-, e, rfl⟩⟩
  · simp
  · exact .inl rfl
  · exact .inr rfl
  · exact .inl rfl
  · exact .inl rfl
  · exact .inl rfl
  · exact .inl rfl
  · simp

end Sys2Proof.Machine
end

