-- ==== Sys2Proof/Laws/Gateway.lean ====
section
/-! SUPPORT. What the scan of a gateway table answers, in terms of `Bank.Matches`. -/

namespace Sys2Proof.Machine

variable {p : Params} {b : Bank p} {t : TableAddr p} {live : BitVec p.W} {ctx : Context p.V}

/-- The response of a hit (R114). -/
theorem gatewayResponse_hit {P : Nat} (gen : BitVec 32) (i : Nat) (pl : BitVec P) :
    gatewayResponse gen { hit := true, index := some i, payload := some pl } =
      { r0 := gen ++ BitVec.ofNat 8 i ++ (0x012300 : BitVec 24), result := vecWords pl } := by
  have key : ∀ x : BitVec 8, respWord gen (x ++ (0 : BitVec 7) ++ bit true) Opcode.gwEval.byte .ok =
      gen ++ x ++ (0x012300 : BitVec 24) := by
    intro x
    apply BitVec.eq_of_toNat_eq
    rw [respWord_toNat, toNat_append_eq, toNat_append_eq, toNat_append_eq, toNat_append_eq,
      show (0 : BitVec 7).toNat = 0 from rfl, show (bit true).toNat = 1 from rfl,
      show Opcode.gwEval.byte.toNat = 35 from rfl, show Status.ok.byte.toNat = 0 from rfl,
      show (0x012300 : BitVec 24).toNat = 74496 by decide]
    generalize gen.toNat = a
    generalize x.toNat = b
    ring
  simp only [gatewayResponse, Option.getD_some, key]

/-- The response of a miss (R114). -/
theorem gatewayResponse_miss {P : Nat} (gen : BitVec 32) : gatewayResponse gen (GatewayResult.miss P) =
    { r0 := gen ++ (0x00002300 : BitVec 32), result := vecWords (0 : BitVec P) } := by
  have e : BitVec.ofNat 8 ((none : Option Nat).getD 0) ++ (0 : BitVec 7) ++ bit false = (0 : BitVec 16) := by decide
  simp only [gatewayResponse, GatewayResult.miss, Option.getD_none] at e ⊢
  rw [e, respWord_eq_append]
  rfl

/-- The masked comparison is equality at the bit positions the mask leaves in (R165). -/
theorem masked_eq_zero {n : Nat} (x v d : BitVec n) :
    (x ^^^ v) &&& ~~~d = 0 ↔ ∀ k, k < n → d.getLsbD k = false → x.getLsbD k = v.getLsbD k := by
  constructor
  · intro h k hk hd
    have := congrArg (fun y => BitVec.getLsbD y k) h
    simp only [BitVec.getLsbD_and, BitVec.getLsbD_xor, BitVec.getLsbD_not, hk, hd] at this
    simpa using this
  · intro h
    apply BitVec.eq_of_getLsbD_eq
    intro k hk
    simp only [BitVec.getLsbD_and, BitVec.getLsbD_xor, BitVec.getLsbD_not, hk]
    cases hd : d.getLsbD k
    · simp [h k hk hd]
    · simp

/-- An entry passes the scan's tests exactly where it matches. -/
theorem entryPasses_true (i : Fin p.K) : entryPasses b t live ctx i = .ok true ↔ b.Matches t live ctx i := by
  simp only [entryPasses, Bank.Matches]
  cases hv : (b.entryAt t i).valid with
  | false => simp [pure, Except.pure]
  | true =>
    cases hver : (b.entryAt t i).ver with
    | unwritten => simp [bind, Except.bind]
    | val ver =>
      cases hm : versionMatches p (b.selectAt t).tmode ver ctx with
      | false => simp [bind, Except.bind, pure, Except.pure, hm]
      | true =>
        cases hval : (b.entryAt t i).value with
        | unwritten => simp [bind, Except.bind, hm]
        | val v =>
          cases hdc : (b.entryAt t i).dc with
          | unwritten => simp [bind, Except.bind, hm]
          | val d =>
            simp only [if_true, readCell_val, bind, Except.bind, hm, pure, Except.pure, Except.ok.injEq, beq_iff_eq,
              masked_eq_zero, Cell.val.injEq, true_and]
            constructor
            · intro h; exact ⟨ver, v, d, rfl, rfl, rfl, hm, h⟩
            · rintro ⟨_, _, _, rfl, rfl, rfl, -, h⟩; exact h

/-- An entry whose match fields are written, if it is valid, raises no fault in the tests. -/
theorem entryPasses_ok {i : Fin p.K} (h : (b.entryAt t i).valid = true → isWritten (b.entryAt t i).ver = true ∧
    isWritten (b.entryAt t i).value = true ∧ isWritten (b.entryAt t i).dc = true) :
    ∃ x, entryPasses b t live ctx i = .ok x := by
  simp only [entryPasses]
  cases hv : (b.entryAt t i).valid with
  | false => exact ⟨false, by simp [pure, Except.pure]⟩
  | true =>
    obtain ⟨h1, h2, h3⟩ := h hv
    obtain ⟨ver, hver⟩ := (isWritten_iff _).mp h1
    obtain ⟨v, hval⟩ := (isWritten_iff _).mp h2
    obtain ⟨d, hdc⟩ := (isWritten_iff _).mp h3
    cases hm : versionMatches p (b.selectAt t).tmode ver ctx with
    | false => exact ⟨false, by simp [bind, Except.bind, pure, Except.pure, hm, hver]⟩
    | true => exact ⟨_, by simp [bind, Except.bind, pure, Except.pure, hm, hver, hval, hdc]; rfl⟩

theorem entryPasses_false {i : Fin p.K} (h : (b.entryAt t i).valid = true → isWritten (b.entryAt t i).ver = true ∧
    isWritten (b.entryAt t i).value = true ∧ isWritten (b.entryAt t i).dc = true) (hm : ¬ b.Matches t live ctx i) :
    entryPasses b t live ctx i = .ok false := by
  obtain ⟨x, hx⟩ := entryPasses_ok (live := live) (ctx := ctx) h
  cases x with
  | false => exact hx
  | true => exact absurd ((entryPasses_true i).mp hx) hm

theorem entryOutcome_none {i : Fin p.K} : entryOutcome b t live ctx i = none ↔ entryPasses b t live ctx i = .ok false := by
  unfold entryOutcome
  cases entryPasses b t live ctx i with
  | error f => simp
  | ok x => cases x <;> simp

/-- The outcome at an entry that matches. -/
theorem entryOutcome_of_matches {i : Fin p.K} (h : b.Matches t live ctx i) : entryOutcome b t live ctx i =
    some (match (b.entryAt t i).payload with
      | .unwritten => .error (.gwPayload t.row t.tbl i)
      | .val pl => .ok { hit := true, index := some i.val, payload := some pl }) := by
  unfold entryOutcome
  rw [(entryPasses_true i).mpr h]
  cases (b.entryAt t i).payload <;> rfl

/-- The scan where entry `i` matches and the entries below it are passed over. -/
theorem evaluate_of_first {i : Fin p.K} (h : b.Matches t live ctx i)
    (hlt : ∀ j, j < i → entryPasses b t live ctx j = .ok false) : evaluate b t live ctx =
    match (b.entryAt t i).payload with
      | .unwritten => .error (.gwPayload t.row t.tbl i)
      | .val pl => .ok { hit := true, index := some i.val, payload := some pl } := by
  have : firstOver p.K (entryOutcome b t live ctx) = some (match (b.entryAt t i).payload with
      | .unwritten => .error (.gwPayload t.row t.tbl i)
      | .val pl => .ok { hit := true, index := some i.val, payload := some pl }) :=
    firstOver_eq_some.mpr ⟨i, entryOutcome_of_matches h, fun j hj => entryOutcome_none.mpr (hlt j hj)⟩
  simp only [evaluate, this]

/-- The scan where every entry is passed over. -/
theorem evaluate_of_none (h : ∀ i, entryPasses b t live ctx i = .ok false) :
    evaluate b t live ctx = .ok (GatewayResult.miss p.P) := by
  have : firstOver p.K (entryOutcome b t live ctx) = none := firstOver_eq_none.mpr fun i => entryOutcome_none.mpr (h i)
  simp only [evaluate, this]

/-- Everything the scan can answer. -/
theorem evaluate_cases (b : Bank p) (t : TableAddr p) (live : BitVec p.W) (ctx : Context p.V) :
    ((∀ i, entryPasses b t live ctx i = .ok false) ∧ evaluate b t live ctx = .ok (GatewayResult.miss p.P)) ∨
    ∃ i, (∀ j, j < i → entryPasses b t live ctx j = .ok false) ∧
      ((∃ f, entryPasses b t live ctx i = .error f ∧ evaluate b t live ctx = .error f) ∨
        (b.Matches t live ctx i ∧ (b.entryAt t i).payload = .unwritten ∧
          evaluate b t live ctx = .error (.gwPayload t.row t.tbl i)) ∨
        (b.Matches t live ctx i ∧ ∃ pl, (b.entryAt t i).payload = .val pl ∧
          evaluate b t live ctx = .ok { hit := true, index := some i.val, payload := some pl })) := by
  cases h : firstOver p.K (entryOutcome b t live ctx) with
  | none =>
    have := firstOver_eq_none.mp h
    exact .inl ⟨fun i => entryOutcome_none.mp (this i), by simp only [evaluate, h]⟩
  | some r =>
    obtain ⟨i, hi, hlt⟩ := firstOver_eq_some.mp h
    refine .inr ⟨i, fun j hj => entryOutcome_none.mp (hlt j hj), ?_⟩
    cases hp : entryPasses b t live ctx i with
    | error f =>
      refine .inl ⟨f, rfl, ?_⟩
      simp only [entryOutcome, hp, Option.some.injEq] at hi
      simp only [evaluate, h, hi]
    | ok x =>
      cases x with
      | false => simp [entryOutcome_none.mpr hp] at hi
      | true =>
        have hm := (entryPasses_true i).mp hp
        have he := evaluate_of_first hm fun j hj => entryOutcome_none.mp (hlt j hj)
        cases hpl : (b.entryAt t i).payload with
        | unwritten => exact .inr (.inl ⟨hm, rfl, by rw [he, hpl]⟩)
        | val pl => exact .inr (.inr ⟨hm, pl, rfl, by rw [he, hpl]⟩)

end Sys2Proof.Machine
end

