-- ==== Sys2Proof/Laws/Hash.lean ====
section
/-! SUPPORT. What the functions of the hash engine answer: `Compute`, `Seeded` and the group's value, where every cell they
read is written and where one is not. -/

namespace Sys2Proof.Machine

variable {p : Params} {b : Bank p}

/-- The response of HASH_RAW and HASH (R112). -/
theorem hashResponse_eq {n : Nat} (op : Opcode) (gen : BitVec 32) (h : BitVec n) : hashResponse op gen h =
    { r0 := gen ++ BitVec.setWidth 32 (op.byte ++ Status.ok.byte), result := vecWords h } := by
  simp only [hashResponse, respWord_eq_append]

/-- The response of HGROUP (R113). -/
theorem groupResponse_eq {n : Nat} (gen : BitVec 32) (L : Nat) (out : BitVec n) : groupResponse gen L out =
    { r0 := gen ++ BitVec.ofNat 16 L ++ (0x2200 : BitVec 16), result := vecWords out } := by
  simp only [groupResponse, Response.mk.injEq, and_true]
  apply BitVec.eq_of_toNat_eq
  rw [respWord_toNat, toNat_append_eq, toNat_append_eq, show Opcode.hgroup.byte.toNat = 34 from rfl,
    show Status.ok.byte.toNat = 0 from rfl, show (0x2200 : BitVec 16).toNat = 8704 by decide]
  ring

theorem coefBit_eq (c : Cell Bool) : coefBit c = decide (c = .val true) := by
  cases c with
  | unwritten => rfl
  | val v => cases v <;> rfl

/-- Bit `c` of the product. -/
theorem product_getLsbD (u : Fin p.U) (x : BitVec p.M) (c : Fin p.N) :
    (product b u x).getLsbD c = xorOver p.M fun r => x.getLsbD r && decide (b.coefAt u r c = .val true) := by
  simp [product, coefBit_eq]

theorem product_xor (u : Fin p.U) (x y : BitVec p.M) : product b u (x ^^^ y) = product b u x ^^^ product b u y := by
  apply BitVec.eq_of_getLsbD_eq
  intro i hi
  simp only [BitVec.getLsbD_xor, product_getLsbD u _ ⟨i, hi⟩]
  rw [← xorOver_xor]
  refine xorOver_congr fun r => ?_
  cases x.getLsbD r <;> cases y.getLsbD r <;> simp

theorem product_zero (u : Fin p.U) : product b u 0 = 0 := by
  apply BitVec.eq_of_getLsbD_eq
  intro i hi
  simp [product_getLsbD u _ ⟨i, hi⟩]

/-- `Compute` where every coefficient of the unit is written. -/
theorem compute_of_written {u : Fin p.U} (h : b.UnitWritten u) (x : BitVec p.M) : compute b u x = .ok (product b u x) := by
  have : firstUnwrittenCoef b u = none := by
    rw [firstUnwrittenCoef, firstOver_eq_none]
    intro r
    rw [firstOver_eq_none]
    intro c
    simp [h r c]
  simp [compute, this]

/-- `Compute` where coefficient `(r, c)` is the first that is unwritten. -/
theorem compute_of_unwritten {u : Fin p.U} {r : Fin p.M} {c : Fin p.N} (h : b.coefAt u r c = .unwritten)
    (hlt : ∀ r' c', r' < r ∨ (r' = r ∧ c' < c) → isWritten (b.coefAt u r' c') = true) (x : BitVec p.M) :
    compute b u x = .error (.coef u r c) := by
  have : firstUnwrittenCoef b u = some (.coef u r c) := by
    rw [firstUnwrittenCoef, firstOver_eq_some]
    refine ⟨r, ?_, fun r' hr' => ?_⟩
    · rw [firstOver_eq_some]
      exact ⟨c, by simp [h], fun c' hc' => by simp [hlt r c' (.inr ⟨rfl, hc'⟩)]⟩
    · rw [firstOver_eq_none]
      exact fun c' => by simp [hlt r' c' (.inl hr')]
  simp [compute, this]

theorem seeded_of_written {u : Fin p.U} {seed : BitVec p.N} (h : b.UnitWritten u) (hs : b.seed.get u = .val seed)
    (x : BitVec p.M) : seeded b u x = .ok (product b u x ^^^ seed) := by
  simp [seeded, compute_of_written h, hs, bind, Except.bind, pure, Except.pure]

theorem seeded_of_unwritten_seed {u : Fin p.U} (h : b.UnitWritten u) (hs : b.seed.get u = .unwritten) (x : BitVec p.M) :
    seeded b u x = .error (.seed u) := by
  simp [seeded, compute_of_written h, hs, bind, Except.bind]

theorem seeded_of_error {u : Fin p.U} {x : BitVec p.M} {f : ConfigField} (h : compute b u x = .error f) :
    seeded b u x = .error f := by
  simp [seeded, h, bind, Except.bind]

/-- The group's value where the masks below the width are written. -/
theorem groupValue_of_written {g : Fin p.G} {L : Nat} (h : ∀ j : Fin p.LMAX, j.val < L → isWritten (b.maskAt g j) = true)
    (v : BitVec p.N) :
    groupValue b g L v = .ok (bitsOf p.LMAX fun j => decide (j.val < L) && maskBit v (b.maskAt g j)) := by
  have : firstUnwrittenMask b g L = none := by
    rw [firstUnwrittenMask, firstOver_eq_none]
    intro j
    by_cases hj : j.val < L
    · simp [hj, h j hj]
    · simp [hj]
  simp [groupValue, this]

/-- The group's value where mask `j` below the width is the first that is unwritten. -/
theorem groupValue_of_unwritten {g : Fin p.G} {L : Nat} {j : Fin p.LMAX} (hj : j.val < L)
    (h : b.maskAt g j = .unwritten) (hlt : ∀ j' : Fin p.LMAX, j' < j → isWritten (b.maskAt g j') = true)
    (v : BitVec p.N) : groupValue b g L v = .error (.gmask g j) := by
  have : firstUnwrittenMask b g L = some (.gmask g j) := by
    rw [firstUnwrittenMask, firstOver_eq_some]
    exact ⟨j, by simp [hj, h], fun j' hj' => by simp [hlt j' hj']⟩
  simp [groupValue, this]

theorem reduce_eq_xorOver {n : Nat} (h m : BitVec n) : reduce h m = xorOver n fun i => h.getLsbD i && m.getLsbD i := by
  simp [reduce, parity]

end Sys2Proof.Machine
end

