-- ==== Sys2Proof/Laws/PerInstr.lean ====
section
/-! SUPPORT. One statement per instruction about its frame: the opcode of its header, the header's reserved-zero bits, and
the number of its data words. -/

namespace Sys2Proof.Laws.HeaderForm

/-- The header of `i` carries the opcode of `i` and sets no reserved-zero bit (R98, R101), and a well-formed `i` has the data
words its opcode takes (R94). -/
def Statement (i : Instr) : Prop :=
  Header.opc i.header = i.opcode.byte ∧ i.header &&& i.opcode.reservedZero = 0 ∧
    ∀ p : Params, i.wf p = true → i.data.length = i.opcode.dataWords p

/-- A header masked with the reserved-zero bits of its opcode is 0 where each of its fields is. -/
theorem masked {opc : BitVec 8} {a b c : BitVec 16} {f : BitVec 8} {z : Word} {a' b' c' : BitVec 16} {f' : BitVec 8}
    (hz : z = Header.make 0 a' b' c' f') (ha : a &&& a' = 0) (hb : b &&& b' = 0) (hc : c &&& c' = 0) (hf : f &&& f' = 0) :
    Header.make opc a b c f &&& z = 0 := by
  rw [hz, Header.make_and, Header.make_eq_zero]
  exact ⟨BitVec.and_zero, ha, hb, hc, hf⟩

theorem flag_masked (b : Bool) : flagByte b &&& 0xFE = 0 := by cases b <;> decide

theorem thread_masked (t : BitVec 4) : ((0 : BitVec 4) ++ t : BitVec 8) &&& 0xF0 = 0 := by revert t; decide

theorem nop : Statement (.nop) :=
  ⟨Instr.opc_header _,
    masked (by decide : Opcode.nop.reservedZero = Header.make 0 0xFFFF 0xFFFF 0xFFFF 0xFF)
      BitVec.zero_and BitVec.zero_and BitVec.zero_and BitVec.zero_and,
    fun _ _ => rfl⟩

theorem setCoef (u r c : BitVec 16) (bit : Bool) : Statement (.setCoef u r c bit) :=
  ⟨Instr.opc_header _,
    masked (by decide : Opcode.setCoef.reservedZero = Header.make 0 0 0 0 0xFE)
      BitVec.and_zero BitVec.and_zero BitVec.and_zero (flag_masked bit),
    fun _ _ => rfl⟩

theorem setSeed (u : BitVec 16) (seed : List Word) : Statement (.setSeed u seed) :=
  ⟨Instr.opc_header _,
    masked (by decide : Opcode.setSeed.reservedZero = Header.make 0 0 0xFFFF 0xFFFF 0xFF)
      BitVec.and_zero BitVec.zero_and BitVec.zero_and BitVec.zero_and,
    fun _ h => beq_iff_eq.mp h⟩

theorem setGroup (g u L : BitVec 16) : Statement (.setGroup g u L) :=
  ⟨Instr.opc_header _,
    masked (by decide : Opcode.setGroup.reservedZero = Header.make 0 0 0 0 0xFF)
      BitVec.and_zero BitVec.and_zero BitVec.and_zero BitVec.zero_and,
    fun _ _ => rfl⟩

theorem setPmask (g j : BitVec 16) (mask : List Word) : Statement (.setPmask g j mask) :=
  ⟨Instr.opc_header _,
    masked (by decide : Opcode.setPmask.reservedZero = Header.make 0 0 0 0xFFFF 0xFF)
      BitVec.and_zero BitVec.and_zero BitVec.zero_and BitVec.zero_and,
    fun _ h => beq_iff_eq.mp h⟩

theorem setGwEntry (row tbl : BitVec 8) (i version : BitVec 16) (valid : Bool) (value dontCare : List Word) :
    Statement (.setGwEntry row tbl i version valid value dontCare) :=
  ⟨Instr.opc_header _,
    masked (by decide : Opcode.setGwEntry.reservedZero = Header.make 0 0 0 0 0xFE)
      BitVec.and_zero BitVec.and_zero BitVec.and_zero (flag_masked valid),
    fun p h => by
    simp only [Instr.wf, Bool.and_eq_true, beq_iff_eq] at h
    simp [Instr.data, Instr.opcode, Opcode.dataWords, h, two_mul]⟩

theorem setGwPayload (row tbl : BitVec 8) (i : BitVec 16) (payload : List Word) :
    Statement (.setGwPayload row tbl i payload) :=
  ⟨Instr.opc_header _,
    masked (by decide : Opcode.setGwPayload.reservedZero = Header.make 0 0 0 0xFFFF 0xFF)
      BitVec.and_zero BitVec.and_zero BitVec.zero_and BitVec.zero_and,
    fun _ h => beq_iff_eq.mp h⟩

theorem setGwSelect (row tbl : BitVec 8) (in0 in1 : BitVec 16) (tmode : BitVec 8) :
    Statement (.setGwSelect row tbl in0 in1 tmode) :=
  ⟨Instr.opc_header _,
    masked (by decide : Opcode.setGwSelect.reservedZero = Header.make 0 0 0 0 0)
      BitVec.and_zero BitVec.and_zero BitVec.and_zero BitVec.and_zero,
    fun _ _ => rfl⟩

theorem commit : Statement (.commit) :=
  ⟨Instr.opc_header _,
    masked (by decide : Opcode.commit.reservedZero = Header.make 0 0xFFFF 0xFFFF 0xFFFF 0xFF)
      BitVec.zero_and BitVec.zero_and BitVec.zero_and BitVec.zero_and,
    fun _ _ => rfl⟩

theorem abort : Statement (.abort) :=
  ⟨Instr.opc_header _,
    masked (by decide : Opcode.abort.reservedZero = Header.make 0 0xFFFF 0xFFFF 0xFFFF 0xFF)
      BitVec.zero_and BitVec.zero_and BitVec.zero_and BitVec.zero_and,
    fun _ _ => rfl⟩

theorem clearErr : Statement (.clearErr) :=
  ⟨Instr.opc_header _,
    masked (by decide : Opcode.clearErr.reservedZero = Header.make 0 0xFFFF 0xFFFF 0xFFFF 0xFF)
      BitVec.zero_and BitVec.zero_and BitVec.zero_and BitVec.zero_and,
    fun _ _ => rfl⟩

theorem readStatus : Statement (.readStatus) :=
  ⟨Instr.opc_header _,
    masked (by decide : Opcode.readStatus.reservedZero = Header.make 0 0xFFFF 0xFFFF 0xFFFF 0xFF)
      BitVec.zero_and BitVec.zero_and BitVec.zero_and BitVec.zero_and,
    fun _ _ => rfl⟩

theorem hashRaw (u : BitVec 16) (x : List Word) : Statement (.hashRaw u x) :=
  ⟨Instr.opc_header _,
    masked (by decide : Opcode.hashRaw.reservedZero = Header.make 0 0 0xFFFF 0xFFFF 0xFF)
      BitVec.and_zero BitVec.zero_and BitVec.zero_and BitVec.zero_and,
    fun _ h => beq_iff_eq.mp h⟩

theorem hash (u : BitVec 16) (x : List Word) : Statement (.hash u x) :=
  ⟨Instr.opc_header _,
    masked (by decide : Opcode.hash.reservedZero = Header.make 0 0 0xFFFF 0xFFFF 0xFF)
      BitVec.and_zero BitVec.zero_and BitVec.zero_and BitVec.zero_and,
    fun _ h => beq_iff_eq.mp h⟩

theorem hgroup (g : BitVec 16) (x : List Word) : Statement (.hgroup g x) :=
  ⟨Instr.opc_header _,
    masked (by decide : Opcode.hgroup.reservedZero = Header.make 0 0 0xFFFF 0xFFFF 0xFF)
      BitVec.and_zero BitVec.zero_and BitVec.zero_and BitVec.zero_and,
    fun _ h => beq_iff_eq.mp h⟩

theorem gwEval (row tbl : BitVec 8) (thread : BitVec 4) (version : BitVec 16) (live : List Word) :
    Statement (.gwEval row tbl thread version live) :=
  ⟨Instr.opc_header _,
    masked (by decide : Opcode.gwEval.reservedZero = Header.make 0 0 0xFFFF 0 0xF0)
      BitVec.and_zero BitVec.zero_and BitVec.and_zero (thread_masked thread),
    fun _ h => beq_iff_eq.mp h⟩

end Sys2Proof.Laws.HeaderForm
end

