-- ==== Sys2Proof/Laws/Step.lean ====
section
/-! SUPPORT. Everything a step can do, said once. -/

namespace Sys2Proof.Machine

variable {p : Params} {m : Block p}

theorem step_illegal {s : State} (h : legalParams s.params = false) : step s = .refused .illegalParameters := by
  simp [step, h]

theorem step_serve {m1 : Block p} {fr : Frame} {i : Instr} (hl : legalParams p = true)
    (ht : m.nextTurn = some (.serve fr m1)) (hd : decode p fr = .ok i) :
    step { params := p, block := m } = exec i { params := p, block := m1 } := by
  simp only [step, hl, if_true, ht, hd]

theorem step_reject {m1 : Block p} {fr : Frame} {c : Status} (hl : legalParams p = true)
    (ht : m.nextTurn = some (.serve fr m1)) (hd : decode p fr = .error c) :
    step { params := p, block := m } = .next (State.rejectFrame { params := p, block := m1 } fr.header c) := by
  simp only [step, hl, if_true, ht, hd]

theorem step_reset {m1 : Block p} (hl : legalParams p = true) (ht : m.nextTurn = some (.reset m1)) :
    step { params := p, block := m } = .next { params := p, block := m1.applyReset } := by
  simp only [step, hl, if_true, ht]

theorem step_none (hl : legalParams p = true) (ht : m.nextTurn = none) :
    step { params := p, block := m } = .fault (if m.final then .runOver else .stuck) := by
  simp only [step, hl, if_true, ht]

/-- The rejection of an undecoded frame is a rejection, with the decoder's code or with `PORT_DENIED`. -/
theorem rejectFrame_eq (m : Block p) (h : Word) (c : Status) : State.rejectFrame { params := p, block := m } h c =
    { params := p, block := m.reject h (m.frameCode h c) } := rfl

theorem frameCode_cases (m : Block p) (h : Word) (c : Status) :
    m.frameCode h c = c ∨ m.frameCode h c = .portDenied := by
  unfold Block.frameCode
  split
  · exact .inl rfl
  · split
    · exact .inl rfl
    · exact .inr rfl

/-- Everything a step that answers a next state can be: an instruction executed, an undecoded frame rejected, or reset. -/
theorem step_cases {m' : Block p} (h : step { params := p, block := m } = .next { params := p, block := m' }) :
    legalParams p = true ∧
    ((∃ fr m1 i, m.nextTurn = some (.serve fr m1) ∧ decode p fr = .ok i ∧
        exec i { params := p, block := m1 } = .next { params := p, block := m' }) ∨
      (∃ fr m1 c code, m.nextTurn = some (.serve fr m1) ∧ decode p fr = .error c ∧ m' = m1.reject fr.header code ∧
        (code = c ∨ code = .portDenied)) ∨
      (∃ m1, m.nextTurn = some (.reset m1) ∧ m' = m1.applyReset)) := by
  cases hl : legalParams p with
  | false =>
    rw [step_illegal (s := { params := p, block := m }) hl] at h
    simp at h
  | true =>
    refine ⟨rfl, ?_⟩
    cases ht : m.nextTurn with
    | none => rw [step_none hl ht] at h; simp at h
    | some t =>
      cases t with
      | reset m1 =>
        rw [step_reset hl ht] at h
        simp only [Host.Outcome.next.injEq, State.mk.injEq, heq_eq_eq, true_and] at h
        exact .inr (.inr ⟨m1, rfl, h.symm⟩)
      | serve fr m1 =>
        cases hd : decode p fr with
        | ok i => rw [step_serve hl ht hd] at h; exact .inl ⟨fr, m1, i, rfl, hd, h⟩
        | error c =>
          rw [step_reject hl ht hd, rejectFrame_eq] at h
          simp only [Host.Outcome.next.injEq, State.mk.injEq, heq_eq_eq, true_and] at h
          exact .inr (.inl ⟨fr, m1, c, _, rfl, hd, h.symm, frameCode_cases m1 fr.header c⟩)

/-- A step whose turn is there answers a next state. -/
theorem step_next {t : Turn p} (hl : legalParams p = true) (ht : m.nextTurn = some t) :
    ∃ m' : Block p, step { params := p, block := m } = .next { params := p, block := m' } := by
  cases t with
  | reset m1 => exact ⟨_, step_reset hl ht⟩
  | serve fr m1 =>
    cases hd : decode p fr with
    | error c => exact ⟨_, step_reject hl ht hd⟩
    | ok i =>
      rw [step_serve hl ht hd]
      exact exec_next i { params := p, block := m1 }

/-- `step_cases` with the turn at hand and the turn's block spelled out. -/
theorem step_outcome {m' : Block p} {t : Turn p} (ht : m.nextTurn = some t)
    (h : step { params := p, block := m } = .next { params := p, block := m' }) :
    (∃ es, t = .reset { m with schedule := es } ∧ m' = Block.applyReset { m with schedule := es }) ∨
    (∃ fr q es k, t = .serve fr { m with schedule := es, cur := q, picks := k } ∧ m.pending q = some fr ∧
      ((∃ i, decode p fr = .ok i ∧ exec i { params := p, block := { m with schedule := es, cur := q, picks := k } } =
          .next { params := p, block := m' }) ∨
        ∃ c code, decode p fr = .error c ∧
          m' = Block.reject { m with schedule := es, cur := q, picks := k } fr.header code ∧
          (code = c ∨ code = .portDenied))) := by
  obtain ⟨-, ⟨fr, m1, i, h1, h2, h3⟩ | ⟨fr, m1, c, code, h1, h2, h3, h4⟩ | ⟨m1, h1, h2⟩⟩ := step_cases h
  · obtain ⟨q, es, k, rfl, hp⟩ := Block.nextTurn_serve h1
    rw [h1] at ht; cases ht
    exact .inr ⟨fr, q, es, k, rfl, hp, .inl ⟨i, h2, h3⟩⟩
  · obtain ⟨q, es, k, rfl, hp⟩ := Block.nextTurn_serve h1
    rw [h1] at ht; cases ht
    exact .inr ⟨fr, q, es, k, rfl, hp, .inr ⟨c, code, h2, h3, h4⟩⟩
  · obtain ⟨es, rfl⟩ := Block.nextTurn_reset h1
    rw [h1] at ht; cases ht
    exact .inl ⟨es, rfl, h2⟩

/-- What a step that serves a frame does to the ports and to `FAULT`. -/
theorem step_moves {m1 m' : Block p} {fr : Frame} (ht : m.nextTurn = some (.serve fr m1))
    (h : step { params := p, block := m } = .next { params := p, block := m' }) :
    ∃ q es k, m1 = { m with schedule := es, cur := q, picks := k } ∧ m.pending q = some fr ∧
      ((∃ r, m1.Answered m' r ∧ m'.fault = m1.fault) ∨ ∃ op f, isEvaluation op = true ∧ m1.Faulted m' op f) := by
  rcases step_outcome ht h with ⟨es, hr, -⟩ | ⟨fr', q, es, k, heq, hp, ⟨i, hd, he⟩ | ⟨c, code, hd, rfl, hc⟩⟩
  · cases hr
  · cases heq
    refine ⟨q, es, k, rfl, hp, ?_⟩
    rcases exec_moves he with h | ⟨h1, f, h2⟩
    · exact .inl h
    · exact .inr ⟨_, f, h1, h2⟩
  · cases heq
    exact ⟨q, es, k, rfl, hp, .inl ⟨_, (Block.reject_rejected _ _ _).answered, by simp⟩⟩

end Sys2Proof.Machine
end

