-- ==== Sys2Proof/Tests/Slice0.lean ====
section
/-! SUPPORT. Tests: the smoke test of WellFormed, a word of every constructor written out from the spec's encoding, one step of
every instruction with the words of spec/95_test_vectors.md, and a witness for the hypotheses of every obligation. -/

namespace Sys2Proof.Tests

open Sys2Proof.Machine

/-! ## Blocks and readings -/

/-- An index below its bound. -/
def ix {n : Nat} (k : Nat) (h : k < n := by decide) : Fin n := ⟨k, h⟩

/-- The block of `TV` right after reset. -/
def fresh : Block Params.tv := Block.reset Params.tv

/-- A bank with the matrix rows of one unit written, `v_r[c] = coef[u][r][c]` (R139). -/
def matrix (b : Bank Params.tv) (u : Fin Params.tv.U) (v : Fin Params.tv.M → Nat) : Bank Params.tv :=
  (List.finRange Params.tv.M).foldl (fun b r => (List.finRange Params.tv.N).foldl
    (fun b c => b.setCoef u r c ((v r).testBit c)) b) b

/-- The table address 2:1. -/
def t21 : TableAddr Params.tv := { row := ix 2, tbl := ix 1 }

/-- One gateway entry of R173. -/
def gwEntry (valid : Bool) (ver : BitVec 2) (value dc : BitVec 8) (payload : Cell (BitVec 8)) : GwEntry Params.tv :=
  { valid := valid, value := .val value, dc := .val dc, ver := .val ver, payload := payload }

/-- The hash configuration of R139 under `TV`. -/
def hashBank : Bank Params.tv :=
  let matrices := matrix (matrix (Bank.reset Params.tv) (ix 0) ![0x3, 0x6, 0xC, 0x9]) (ix 1) ![0x1, 0x2, 0x4, 0x8]
  let seeds := (matrices.setSeed (ix 0) 0xA).setSeed (ix 1) 0
  let group0 := ((seeds.setGroup (ix 0) (ix 0) 2).setMask (ix 0) (ix 0) 0x3).setMask (ix 0) (ix 1) 0x6
  (group0.setGroup (ix 1) (ix 1) 1).setMask (ix 1) (ix 0) 0xF

/-- The gateway configuration of R173 under `TV`. -/
def gwBank : Bank Params.tv :=
  ((((Bank.reset Params.tv).setEntry t21 (ix 0) (gwEntry false 0 0x00 0x00 .unwritten)).setEntry t21 (ix 1)
    (gwEntry true 1 0x5A 0x0F (.val 0x11))).setEntry t21 (ix 2) (gwEntry true 0 0x5A 0x00 (.val 0x77))).setEntry t21 (ix 3)
    (gwEntry true 0 0x50 0x0F (.val 0xC3))

/-- A block of `TV` with `GEN = 1` and the given active bank. -/
def active (b : Bank Params.tv) : Block Params.tv := { fresh with act := b, gen := 1 }

/-- The block with the given stream on CFGP, and with EVP0 in turn for `onEvp`. -/
def withProg (m : Block Params.tv) (prog : List Frame) : Block Params.tv := { m with cfgp := { m.cfgp with prog := prog } }
def onEvp (m : Block Params.tv) : Block Params.tv := { m with cur := .evp (ix 0) }

/-- The words of each port's responses, CFGP first. -/
def answers (s : State) : List (List (List Nat)) :=
  (s.block.cfgp :: s.block.evp.toList).map fun ps => ps.resp.map fun r => (r.r0 :: r.result).map fun w => w.toNat

/-- The two status words. -/
def statusWords (s : State) : Nat × Nat := ((s.block.status.word0 s.block.gen).toNat, s.block.status.word1.toNat)

/-- The faulting fields recorded. -/
def faults (s : State) : List ConfigField := s.block.fault.map fun r => r.field

/-- What a property of the next state says of an outcome. -/
def nextIs (o : Host.Outcome State Fault Refusal) (f : State → Bool) : Bool :=
  match o with
  | .next s => f s
  | .fault _ => false
  | .refused _ => false

/-- The outcome of one instruction from a block of `TV`. -/
def run (i : Instr) (m : Block Params.tv) : Host.Outcome State Fault Refusal := exec i { params := Params.tv, block := m }

/-- A cell as a number. -/
def cellNat {n : Nat} : Cell (BitVec n) → Option Nat
  | .unwritten => none
  | .val v => some v.toNat

/-! ## WellFormed: an ill-formed term for each check -/

theorem test_wf_seed_short : (Instr.setSeed 0 []).wf Params.tv = false := by decide
theorem test_wf_mask_long : (Instr.setPmask 0 0 [1, 0]).wf Params.tv = false := by decide
theorem test_wf_value_short : (Instr.setGwEntry 2 1 3 0 true [] [0x0F]).wf Params.tv = false := by decide
theorem test_wf_dont_care_short : (Instr.setGwEntry 2 1 3 0 true [0x50] []).wf Params.tv = false := by decide
theorem test_wf_payload_long : (Instr.setGwPayload 2 1 3 [0xC3, 0]).wf Params.tv = false := by decide
theorem test_wf_hashRaw_short : (Instr.hashRaw 0 []).wf Params.tv = false := by decide
theorem test_wf_hash_long : (Instr.hash 0 [1, 0]).wf Params.tv = false := by decide
theorem test_wf_hgroup_short : (Instr.hgroup 0 []).wf Params.tv = false := by decide
theorem test_wf_live_short : (Instr.gwEval 2 1 0 0 []).wf Params.tv = false := by decide
theorem test_wf_two_word_vector :
    (Instr.setSeed 0 [0xF, 0x1]).wf { Params.tv with N := 65 } = true ∧
    (Instr.setSeed 0 [0xF]).wf { Params.tv with N := 65 } = false := by decide

/-! ## Decoding: one word of every constructor, written out from R91, R94 and R98 -/

theorem test_decode_nop : decode Params.tv { header := 0x0000000000000000, data := [] } = .ok .nop := by decide
theorem test_decode_setCoef : decode Params.tv { header := 0x0100030002000001, data := [] } = .ok (.setCoef 0 2 3 true) := by
  decide
theorem test_decode_setSeed : decode Params.tv { header := 0x0000000000000102, data := [0xA] } = .ok (.setSeed 1 [0xA]) := by
  decide
theorem test_decode_setGroup : decode Params.tv { header := 0x0000020001000003, data := [] } = .ok (.setGroup 0 1 2) := by
  decide
theorem test_decode_setPmask : decode Params.tv { header := 0x0000000001000004, data := [0x6] } = .ok (.setPmask 0 1 [0x6]) := by
  decide
theorem test_decode_setGwEntry : decode Params.tv { header := 0x0100020003020105, data := [0x50, 0x0F] } =
    .ok (.setGwEntry 2 1 3 2 true [0x50] [0x0F]) := by decide
theorem test_decode_setGwPayload : decode Params.tv { header := 0x0000000003020106, data := [0xC3] } =
    .ok (.setGwPayload 2 1 3 [0xC3]) := by decide
theorem test_decode_setGwSelect : decode Params.tv { header := 0x0100340012020107, data := [] } =
    .ok (.setGwSelect 2 1 0x12 0x34 1) := by decide
theorem test_decode_commit : decode Params.tv { header := 0x0000000000000010, data := [] } = .ok .commit := by decide
theorem test_decode_abort : decode Params.tv { header := 0x0000000000000011, data := [] } = .ok .abort := by decide
theorem test_decode_clearErr : decode Params.tv { header := 0x0000000000000012, data := [] } = .ok .clearErr := by decide
theorem test_decode_readStatus : decode Params.tv { header := 0x0000000000000013, data := [] } = .ok .readStatus := by decide
theorem test_decode_hashRaw : decode Params.tv { header := 0x0000000000000120, data := [0x5] } = .ok (.hashRaw 1 [0x5]) := by
  decide
theorem test_decode_hash : decode Params.tv { header := 0x0000000000000021, data := [0x5] } = .ok (.hash 0 [0x5]) := by decide
theorem test_decode_hgroup : decode Params.tv { header := 0x0000000000000122, data := [0x3] } = .ok (.hgroup 1 [0x3]) := by
  decide
theorem test_decode_gwEval : decode Params.tv { header := 0x0100030000020123, data := [0x5B] } =
    .ok (.gwEval 2 1 1 3 [0x5B]) := by decide

/-- A decoded two-word operand keeps its words in order, and `D[0]` stands before `D[1]` (R95). -/
theorem test_decode_two_words : decode { Params.tv with W := 72 } { header := 0x0100000003020105, data := [1, 2, 3, 4] } =
    .ok (.setGwEntry 2 1 3 0 true [1, 2] [3, 4]) := by decide

theorem test_decode_reserved_opcodes :
    decode Params.tv { header := 0x0000000000000008, data := [] } = .error .illegalOpcode ∧
    decode Params.tv { header := 0x0000000000FFFFFF, data := [] } = .error .illegalOpcode := by decide
theorem test_decode_reserved_bits :
    decode Params.tv { header := 0x0300000000000001, data := [] } = .error .reservedNonzero ∧
    decode Params.tv { header := 0x1000000000020123, data := [0x5B] } = .error .reservedNonzero ∧
    decode Params.tv { header := 0x0000000001000021, data := [0x1] } = .error .reservedNonzero := by decide
theorem test_decode_length :
    decode Params.tv { header := 0x0000000000000020, data := [] } = .error .lengthMismatch ∧
    decode Params.tv { header := 0x0000000000000020, data := [1, 0] } = .error .lengthMismatch ∧
    decode Params.tv { header := 0x0100000000000001, data := [0] } = .error .lengthMismatch := by decide

/-- The table's numbering: bit 64 is bit 0 of the first data word, and the bits above the row's are 0. -/
theorem test_decodeTableWord :
    decodeTableWord 64 0x0100030002000001 = some (.setCoef 0 2 3 true) ∧
    decodeTableWord 128 (0x0000000000000021 + 2 ^ 64 * 5) = some (.hash 0 [0x5]) ∧
    decodeTableWord 64 0x21 = some (.hash 0 [0x0]) ∧
    decodeTableWord 64 0x08 = none := by decide

/-! ## One step of every instruction (words of spec/95_test_vectors.md) -/

theorem test_nop : nextIs (run .nop fresh) fun s => answers s == [[[0x0000000000000000]], []] := by decide
theorem test_nop_evp : nextIs (run .nop (onEvp fresh)) fun s => answers s == [[], [[0x0000000000000000]]] := by decide

theorem test_setCoef : nextIs (run (.setCoef 0 2 3 true) fresh) fun s =>
    answers s == [[[0x0000000000000100]], []] && statusWords s == (0, 0) := by decide
theorem test_setCoef_first_error : nextIs (run (.setCoef 2 4 4 true) fresh) fun s =>
    answers s == [[[0x0000000000000106]], []] && statusWords s == (0x0000000000010601, 0x0001000400040002) := by decide

theorem test_setSeed : nextIs (run (.setSeed 0 [0xA]) fresh) fun s =>
    answers s == [[[0x0000000000000200]], []] && s.block.stg.seed.toList.map cellNat == [some 0xA, none] &&
      s.block.act.seed.toList.map cellNat == [none, none] := by decide
theorem test_setSeed_padding : nextIs (run (.setSeed 0 [0x1A]) fresh) fun s =>
    answers s == [[[0x0000000000000205]], []] && s.block.stg.seed.toList.map cellNat == [none, none] := by decide

theorem test_setGroup : nextIs (run (.setGroup 0 0 2) fresh) fun s =>
    answers s == [[[0x0000000000000300]], []] && s.block.stg.gwidth.toList == [.val 2, .unwritten] := by decide
theorem test_setGroup_width : nextIs (run (.setGroup 0 0 3) fresh) fun s =>
    answers s == [[[0x000000000000030B]], []] && s.block.stg.gwidth.toList == [.unwritten, .unwritten] := by decide

theorem test_setPmask : nextIs (run (.setPmask 0 1 [0x6]) fresh) fun s =>
    answers s == [[[0x0000000000000400]], []] &&
      s.block.stg.gmask.toList.map (fun v => v.toList.map cellNat) == [[none, some 0x6], [none, none]] := by decide
theorem test_setPmask_bit : nextIs (run (.setPmask 0 2 [0x6]) fresh) fun s =>
    answers s == [[[0x000000000000040A]], []] := by decide

theorem test_setGwEntry : nextIs (run (.setGwEntry 2 1 3 0 true [0x50] [0x0F]) fresh) fun s =>
    answers s == [[[0x0000000000000500]], []] &&
      s.block.stg.gw.toList.map (fun v => v.toList.map fun v => v.toList.map fun e => (e.valid, cellNat e.value)) ==
        [List.replicate 2 (List.replicate 4 (false, none)), List.replicate 2 (List.replicate 4 (false, none)),
          [List.replicate 4 (false, none), List.replicate 3 (false, none) ++ [(true, some 0x50)]]] := by decide
theorem test_setGwEntry_dont_care_padding : nextIs (run (.setGwEntry 2 1 3 0 true [0x50] [0x10F]) fresh) fun s =>
    answers s == [[[0x0000000000000505]], []] := by decide

theorem test_setGwPayload : nextIs (run (.setGwPayload 2 1 3 [0xC3]) fresh) fun s =>
    answers s == [[[0x0000000000000600]], []] &&
      s.block.stg.gw.toList.map (fun v => v.toList.map fun v => v.toList.map fun e => (e.valid, cellNat e.payload)) ==
        [List.replicate 2 (List.replicate 4 (false, none)), List.replicate 2 (List.replicate 4 (false, none)),
          [List.replicate 4 (false, none), List.replicate 3 (false, none) ++ [(false, some 0xC3)]]] := by decide
theorem test_setGwPayload_entry : nextIs (run (.setGwPayload 2 1 4 [0xC3]) fresh) fun s =>
    answers s == [[[0x000000000000060D]], []] := by decide

theorem test_setGwSelect : nextIs (run (.setGwSelect 2 1 0x12 0x34 1) fresh) fun s =>
    answers s == [[[0x0000000000000700]], []] &&
      s.block.stg.gsel.toList.map (fun v => v.toList.map fun x => (cellNat x.in0, cellNat x.in1, cellNat x.tmode)) ==
        [List.replicate 2 (none, none, none), List.replicate 2 (none, none, none),
          [(none, none, none), (some 0x12, some 0x34, some 1)]] := by decide
theorem test_setGwSelect_table : nextIs (run (.setGwSelect 2 2 0 0 0) fresh) fun s =>
    answers s == [[[0x000000000000070C]], []] && statusWords s == (0x0000000000070C01, 0x0000000000000202) := by decide

theorem test_commit : nextIs (run .commit fresh) fun s => answers s == [[[0x0000000100001000]], []] := by decide
theorem test_commit_wraps : nextIs (run .commit { fresh with gen := 0xFFFFFFFF }) fun s =>
    answers s == [[[0x0000000000001000]], []] := by decide

theorem test_abort : nextIs (run .abort { active gwBank with status := { CfgStatus.reset with err := true, code := .padNonzero } })
    fun s => answers s == [[[0x0000000000001100]], []] && statusWords s == (0x0000000100000000, 0) := by decide
theorem test_abort_evp : nextIs (run .abort (onEvp fresh)) fun s => answers s == [[], [[0x0000000000001102]]] := by decide

theorem test_clearErr :
    nextIs (run .clearErr { fresh with status := { CfgStatus.reset with err := true, code := .padNonzero, capA := 7 } })
      fun s => answers s == [[[0x0000000000001200]], []] && statusWords s == (0, 0) := by decide
theorem test_clearErr_evp : nextIs (run .clearErr (onEvp fresh)) fun s => answers s == [[], [[0x0000000000001202]]] := by decide

theorem test_readStatus : nextIs (run .readStatus { fresh with gen := 1, status :=
      { err := true, code := .unitRange, capOpc := 0x01, capA := 2, capB := 0, capC := 0, capF := 1 } }) fun s =>
    answers s == [[[0x0000000000001300, 0x0000000100010601, 0x0001000000000002]], []] := by decide
theorem test_readStatus_evp : nextIs (run .readStatus (onEvp fresh)) fun s => answers s == [[], [[0x1300, 0, 0]]] := by decide

theorem test_hashRaw : nextIs (run (.hashRaw 0 [0x5]) (active hashBank)) fun s =>
    answers s == [[[0x0000000100002000, 0xF]], []] := by decide
theorem test_hashRaw_faults : nextIs (run (.hashRaw 0 [0x0]) fresh) fun s =>
    answers s == [[], []] && faults s == [.coef 0 0 0] && s.block.cfgp.pc == 0 := by decide

theorem test_hash : nextIs (run (.hash 0 [0x5]) (onEvp (active hashBank))) fun s =>
    answers s == [[], [[0x0000000100002100, 0x5]]] := by decide
theorem test_hash_unit : nextIs (run (.hash 2 [0x1]) (active hashBank)) fun s =>
    answers s == [[[0x0000000000002106]], []] && statusWords s == (0x0000000100000000, 0) := by decide

theorem test_hgroup : nextIs (run (.hgroup 0 [0x1]) (active hashBank)) fun s =>
    answers s == [[[0x0000000100022200, 0x1]], []] := by decide
theorem test_hgroup_unread_mask : nextIs (run (.hgroup 1 [0x3]) (active hashBank)) fun s =>
    answers s == [[[0x0000000100012200, 0x0]], []] && faults s == [] := by decide

theorem test_gwEval : nextIs (run (.gwEval 2 1 0 0 [0x5A]) (active gwBank)) fun s =>
    answers s == [[[0x0000000102012300, 0x77]], []] := by decide
theorem test_gwEval_miss : nextIs (run (.gwEval 2 1 0 0 [0x6A]) (active gwBank)) fun s =>
    answers s == [[[0x0000000100002300, 0x0]], []] := by decide

/-! ## The step and the host's hooks -/

/-- A stored word is the first instruction after reset. -/
theorem test_withFetchWord_commit : nextIs (step (State.reset.withFetchWord 64 0x10)) fun s =>
    answers s == [[[0x0000000100001000]], []] := by decide
theorem test_withFetchWord_seed : nextIs (step (State.reset.withFetchWord 128 (0x0000000000000002 + 2 ^ 64 * 0xA))) fun s =>
    answers s == [[[0x0000000000000200]], []] && s.block.stg.seed.toList.map cellNat == [some 0xA, none] := by decide

/-- From reset with nothing placed the run is over at once (log entry 4). -/
theorem test_reset_is_final : (match step State.reset with | .fault .runOver => true | _ => false) = true := by decide

/-- The check order of R232: the opcode before the port, the port before the reserved bits. -/
theorem test_step_check_order :
    nextIs (step { params := Params.tv, block := { fresh with evp := #v[{ prog := [{ header := 0x08, data := [] }], pc := 0, resp := [] }] } })
      (fun s => answers s == [[], [[0x0000000000000801]]]) ∧
    nextIs (step { params := Params.tv, block := { fresh with evp := #v[{ prog := [{ header := 0x0300000000000001, data := [] }], pc := 0, resp := [] }] } })
      (fun s => answers s == [[], [[0x0000000000000102]]]) := by decide

/-- A parameter tuple outside R10 is refused. -/
theorem test_illegal_params : (match step { params := { Params.tv with U := 0 }, block := Block.reset _ } with
    | .refused .illegalParameters => true | _ => false) = true := by decide

/-! ## The assembler (R105, R106) -/

theorem test_assembler_text : Assembler.program Params.tv "SET_GW_ENTRY 2:1, 3, 1, 0, 0x50, 0x0F\nCOMMIT\n" =
    some [{ header := 0x0100000003020105, data := [0x50, 0x0F] }, { header := 0x10, data := [] }] := by decide
theorem test_assembler_row : Assembler.program Params.tv "SET_ROW 0, 1, 0x6" =
    some [{ header := 0x0000000001000001, data := [] }, { header := 0x0100010001000001, data := [] },
      { header := 0x0100020001000001, data := [] }, { header := 0x0000030001000001, data := [] }] := by decide
theorem test_assembler_invalidate : Assembler.program Params.tv "GW_INVALIDATE 2:1, 3" =
    some [{ header := 0x0000000003020105, data := [0, 0] }] := by decide

theorem test_assembler_hex_case : Assembler.integer "0x1aF".toList = some 431 ∧ Assembler.integer "1a".toList = none := by
  decide
/-- Spaces stand around operands, never within one (log entry 14). -/
theorem test_assembler_spaces : Assembler.program Params.tv "  HASH_RAW  0 , 0xA  " =
      some [{ header := 0x20, data := [0xA] }] ∧
    Assembler.program Params.tv "HASH_RAW 0, 1 2" = none ∧ Assembler.program Params.tv "HASH_RAW 0, 0 x5" = none := by decide

/-- The selectors of the active bank are exported whole, and a staged write is not (R58, R70, R82). -/
theorem test_exported :
    let t : TableAddr Params.tv := { row := ⟨2, by decide⟩, tbl := ⟨1, by decide⟩ }
    let x : GwSelect := { in0 := .val 0x12, in1 := .val 0x34, tmode := .val 1 }
    { fresh with act := fresh.act.setSelect t x }.exported t = x ∧
    { fresh with stg := fresh.stg.setSelect t x }.exported t =
      { in0 := .unwritten, in1 := .unwritten, tmode := .unwritten } := by decide

/-! ## Witnesses: for each obligation with hypotheses, a concrete state and operands that meet them -/

theorem witness_DecodeOfEncode : (Instr.gwEval 2 1 1 3 [0x5B]).wf Params.tv = true := by decide

theorem witness_EncodeOfDecode : decode Params.tv { header := 0x0100030000020123, data := [0x5B] } =
    .ok (.gwEval 2 1 1 3 [0x5B]) := by decide

/-- Each clause of the verdict: a reserved bit, a missing data word, and a frame that decodes. -/
theorem witness_DecodeVerdict :
    (Opcode.hash.byte = Header.opc 0x0000000001000021 ∧ (0x0000000001000021 : Word) &&& Opcode.hash.reservedZero ≠ 0) ∧
    (Opcode.hash.byte = Header.opc 0x0000000000000021 ∧ (0x0000000000000021 : Word) &&& Opcode.hash.reservedZero = 0 ∧
      ([] : List Word).length ≠ Opcode.hash.dataWords Params.tv) ∧
    ([0x5] : List Word).length = Opcode.hash.dataWords Params.tv := by decide

/-- The last table in range, and the first row and the first table out of range. -/
theorem witness_TableAddressInFieldA :
    ((2 : BitVec 8).toNat < Params.tv.ROWS ∧ (1 : BitVec 8).toNat < Params.tv.TPR) ∧
    ¬ ((3 : BitVec 8).toNat < Params.tv.ROWS ∧ (0 : BitVec 8).toNat < Params.tv.TPR) ∧
    ¬ ((2 : BitVec 8).toNat < Params.tv.ROWS ∧ (2 : BitVec 8).toNat < Params.tv.TPR) := by decide

/-- The lowest padding bit set, and every padding bit clear. -/
theorem witness_VectorOperandBits :
    (([0x10] : List Word).length = nw 4 ∧ ∃ k, 4 ≤ k ∧ k < 64 * nw 4 ∧
      (([0x10] : List Word).getD (k / 64) 0).getLsbD (k % 64) = true) ∧
    (([0x0F] : List Word).length = nw 4 ∧ ∀ k, 4 ≤ k → k < 64 * nw 4 →
      (([0x0F] : List Word).getD (k / 64) 0).getLsbD (k % 64) = false) := by
  have h : ∀ k < 64, 4 ≤ k → (([0x0F] : List Word).getD (k / 64) 0).getLsbD (k % 64) = false := by decide
  exact ⟨⟨rfl, 4, by decide⟩, rfl, fun k h1 h2 => h k h2 h1⟩

/-! ### The step -/

/-- CFGP with one frame and the next turn. -/
def turnOf (m : Block Params.tv) (q : Port Params.tv.E) (fr : Frame) : Block Params.tv :=
  { m.setPort q { prog := [fr], pc := 0, resp := [] } with schedule := [.turn q] }

/-- The block of that turn. -/
def turned (m : Block Params.tv) (q : Port Params.tv.E) (fr : Frame) : Block Params.tv :=
  { turnOf m q fr with schedule := [], cur := q }

def nopFrame : Frame := { header := 0x00, data := [] }
def commitFrame : Frame := { header := 0x10, data := [] }
def evp0 : Port Params.tv.E := .evp (ix 0)

theorem witness_StepRunsDecodedCommand : legalParams Params.tv = true ∧
    (turnOf fresh .cfgp commitFrame).nextTurn = some (.serve commitFrame (turned fresh .cfgp commitFrame)) ∧
    decode Params.tv commitFrame = .ok .commit := by decide

theorem witness_ScheduledPortHasTheTurn : (turnOf fresh evp0 nopFrame).schedule = .turn evp0 :: [] ∧
    (∀ r ∈ (turnOf fresh evp0 nopFrame).fault, r.port ≠ evp0) ∧
    ((turnOf fresh evp0 nopFrame).port evp0).prog[((turnOf fresh evp0 nopFrame).port evp0).pc]? = some nopFrame := by decide

/-- A reserved opcode; COMMIT with A = 1 on an evaluation port; SET_SEED without a data word on CFGP. -/
theorem witness_UndecodedFrameIsRejected : legalParams Params.tv = true ∧
    ((turnOf fresh .cfgp { header := 0x08, data := [] }).nextTurn =
        some (.serve { header := 0x08, data := [] } (turned fresh .cfgp { header := 0x08, data := [] })) ∧
      decode Params.tv { header := 0x08, data := [] } = .error .illegalOpcode) ∧
    ((turnOf fresh evp0 { header := 0x0110, data := [] }).nextTurn =
        some (.serve { header := 0x0110, data := [] } (turned fresh evp0 { header := 0x0110, data := [] })) ∧
      decode Params.tv { header := 0x0110, data := [] } = .error .reservedNonzero) ∧
    ((turnOf fresh .cfgp { header := 0x02, data := [] }).nextTurn =
        some (.serve { header := 0x02, data := [] } (turned fresh .cfgp { header := 0x02, data := [] })) ∧
      decode Params.tv { header := 0x02, data := [] } = .error .lengthMismatch) := by decide

theorem port_fresh (q : Port Params.tv.E) : fresh.port q = { prog := [], pc := 0, resp := [] } := by
  cases q <;> simp [fresh, Block.reset, Block.port]

/-- A fault of CFGP at index 0. -/
def stuckBlock : Block Params.tv :=
  { fresh with
    cfgp := { prog := [nopFrame], pc := 0, resp := [] }
    fault := [{ port := .cfgp, pc := 0, opc := .hash, field := .seed 0 }] }

/-- The three clauses: a final state, a stuck one, and one that steps. -/
theorem witness_StepStopsExactlyAtTheEnd : legalParams Params.tv = true ∧
    ((Event.reset ∉ fresh.schedule ∧ ∀ q, (∃ r ∈ fresh.fault, r.port = q) ∨ (fresh.port q).prog.length ≤ (fresh.port q).pc) ∧
      fresh.fault = [] ∧ ∀ q, (fresh.port q).pc = (fresh.port q).prog.length) ∧
    ((Event.reset ∉ stuckBlock.schedule ∧
        ∀ q, (∃ r ∈ stuckBlock.fault, r.port = q) ∨ (stuckBlock.port q).prog.length ≤ (stuckBlock.port q).pc) ∧
      ¬ (stuckBlock.fault = [] ∧ ∀ q, (stuckBlock.port q).pc = (stuckBlock.port q).prog.length)) ∧
    ¬ (Event.reset ∉ (turnOf fresh .cfgp nopFrame).schedule ∧
      ∀ q, (∃ r ∈ (turnOf fresh .cfgp nopFrame).fault, r.port = q) ∨
        ((turnOf fresh .cfgp nopFrame).port q).prog.length ≤ ((turnOf fresh .cfgp nopFrame).port q).pc) := by
  refine ⟨by decide, ⟨⟨by decide, fun q => .inr (by simp [port_fresh])⟩, rfl, fun q => by simp [port_fresh]⟩,
    ⟨⟨by decide, fun q => ?_⟩, fun h => absurd h.1 (by decide)⟩, fun h => absurd (h.2 .cfgp) (by decide)⟩
  cases q with
  | cfgp => exact .inl (by decide)
  | evp k => exact .inr (by simp [stuckBlock, fresh, Block.reset, Block.port])

/-! ### Reset and control -/

/-- `TV` with the other reset policy. -/
def tvZero : Params := { Params.tv with resetPolicy := .zero }

theorem witness_ResetValuesOfEveryField : Params.tv.resetPolicy = .unwritten ∧ tvZero.resetPolicy = .zero ∧ 0 < tvZero.U := by
  decide

theorem witness_ResetAppliedInOneStep : legalParams Params.tv = true ∧
    { active hashBank with schedule := [.reset] }.schedule = .reset :: [] := by decide

theorem witness_CommitPublishesOrIsRefused : fresh.cur = .cfgp ∧ fresh.status.err = false ∧
    { fresh with status := { CfgStatus.reset with err := true } }.status.err = true := by decide

theorem witness_AbortRestoresStagedBank : (active gwBank).cur = .cfgp := by decide
theorem witness_ClearErrKeepsStagedBank : stuckBlock.cur = .cfgp := by decide

/-! ### Configuration writes, at the last index of each range -/

theorem witness_SetCoefWritesOneCoefficient : (1 : BitVec 16).toNat < Params.tv.U ∧ (3 : BitVec 16).toNat < Params.tv.M ∧
    (3 : BitVec 16).toNat < Params.tv.N ∧ fresh.cur = .cfgp := by decide
theorem witness_SetSeedWritesOneSeed : (1 : BitVec 16).toNat < Params.tv.U ∧ wordsToNat [0xF] < 2 ^ Params.tv.N ∧
    fresh.cur = .cfgp := by decide
theorem witness_SetGroupWritesUnitAndWidth : (1 : BitVec 16).toNat < Params.tv.G ∧ (1 : BitVec 16).toNat < Params.tv.U ∧
    1 ≤ (2 : BitVec 16).toNat ∧ (2 : BitVec 16).toNat ≤ Params.tv.LMAX ∧ 1 ≤ (1 : BitVec 16).toNat ∧
    fresh.cur = .cfgp := by decide
theorem witness_SetPmaskWritesOneMask : (1 : BitVec 16).toNat < Params.tv.G ∧ (1 : BitVec 16).toNat < Params.tv.LMAX ∧
    wordsToNat [0xF] < 2 ^ Params.tv.N ∧ fresh.cur = .cfgp := by decide
theorem witness_SetGwEntryWritesMatchFields : (2 : BitVec 8).toNat < Params.tv.ROWS ∧ (1 : BitVec 8).toNat < Params.tv.TPR ∧
    (3 : BitVec 16).toNat < Params.tv.K ∧ (3 : BitVec 16).toNat < 2 ^ Params.tv.V ∧ wordsToNat [0xFF] < 2 ^ Params.tv.W ∧
    fresh.cur = .cfgp := by decide
theorem witness_SetGwPayloadWritesOnePayload : (2 : BitVec 8).toNat < Params.tv.ROWS ∧ (1 : BitVec 8).toNat < Params.tv.TPR ∧
    (3 : BitVec 16).toNat < Params.tv.K ∧ wordsToNat [0xFF] < 2 ^ Params.tv.P ∧ fresh.cur = .cfgp := by decide
theorem witness_SetGwSelectWritesSelectors : (2 : BitVec 8).toNat < Params.tv.ROWS ∧ (1 : BitVec 8).toNat < Params.tv.TPR ∧
    fresh.cur = .cfgp := by decide

theorem witness_RepeatedWriteLeavesSameBank : isConfigWrite (Instr.setSeed 0 [0xA]).opcode.byte = true ∧
    fresh.cur = .cfgp ∧ ∃ m' n' : Block Params.tv,
      exec (.setSeed 0 [0xA]) { params := Params.tv, block := fresh } = .next { params := Params.tv, block := m' } ∧
      m'.cur = .cfgp ∧
      exec (.setSeed 0 [0xA]) { params := Params.tv, block := m' } = .next { params := Params.tv, block := n' } :=
  ⟨by decide, by decide, _, _, exec_setSeed_ok rfl (by decide) (by decide), rfl,
    exec_setSeed_ok rfl (by decide) (by decide)⟩

/-! ### Hash engine -/

theorem hashBank_unit (u : Fin Params.tv.U) : hashBank.UnitWritten u := by
  unfold Bank.UnitWritten; revert u; decide

theorem witness_HashRawAnswersProduct : (1 : BitVec 16).toNat < Params.tv.U ∧ wordsToNat [0xF] < 2 ^ Params.tv.M ∧
    (active hashBank).act.UnitWritten (ix 1) := ⟨by decide, by decide, hashBank_unit _⟩

theorem witness_HashAnswersSeededProduct : (0 : BitVec 16).toNat < Params.tv.U ∧ wordsToNat [0x5] < 2 ^ Params.tv.M ∧
    (active hashBank).act.UnitWritten (ix 0) ∧ (active hashBank).act.seed.get (ix 0) = .val 0xA :=
  ⟨by decide, by decide, hashBank_unit _, by decide⟩

/-- Group 1 has width 1, its second mask not written. -/
theorem witness_HgroupAnswersParities : (1 : BitVec 16).toNat < Params.tv.G ∧ wordsToNat [0x3] < 2 ^ Params.tv.M ∧
    hashBank.gunit.get (ix 1) = .val (ix 1) ∧ hashBank.gwidth.get (ix 1) = .val 1 ∧ hashBank.UnitWritten (ix 1) ∧
    hashBank.seed.get (ix 1) = .val 0 ∧ (∀ j : Fin Params.tv.LMAX, j.val < 1 → isWritten (hashBank.maskAt (ix 1) j) = true) ∧
    hashBank.maskAt (ix 1) (ix 1) = .unwritten :=
  ⟨by decide, by decide, by decide, by decide, hashBank_unit _, by decide, by decide, by decide⟩

/-- A bank whose unit 0 has every coefficient written but the last. -/
def almostBank : Bank Params.tv :=
  (List.finRange Params.tv.M).foldl (fun b r => (List.finRange Params.tv.N).foldl
    (fun b c => if r.val = 3 ∧ c.val = 3 then b else b.setCoef (ix 0) r c true) b) (Bank.reset Params.tv)

/-- The last coefficient of the unit, the first of an empty unit, and the seed of a unit with every coefficient. -/
theorem witness_HashFaultsOnFirstUnwrittenCell : (0 : BitVec 16).toNat < Params.tv.U ∧ wordsToNat [0xF] < 2 ^ Params.tv.M ∧
    (almostBank.coefAt (ix 0) (ix 3) (ix 3) = .unwritten ∧ ∀ r' c' : Fin 4, r' < 3 ∨ (r' = 3 ∧ c' < 3) →
      isWritten (almostBank.coefAt (ix 0) r' c') = true) ∧
    ((Bank.reset Params.tv).coefAt (ix 0) (ix 0) (ix 0) = .unwritten ∧ ∀ r' c' : Fin 4, r' < 0 ∨ (r' = 0 ∧ c' < 0) →
      isWritten ((Bank.reset Params.tv).coefAt (ix 0) r' c') = true) ∧
    (matrix (Bank.reset Params.tv) (ix 0) ![1, 2, 4, 8]).UnitWritten (ix 0) ∧
    (matrix (Bank.reset Params.tv) (ix 0) ![1, 2, 4, 8]).seed.get (ix 0) = .unwritten := by
  refine ⟨by decide, by decide, ⟨by decide, by decide⟩, ⟨by decide, by decide⟩, ?_, by decide⟩
  unfold Bank.UnitWritten; decide

/-- Each place in the read order of HGROUP, for group 0 with unit 0. -/
theorem witness_HgroupFaultsInReadOrder : (0 : BitVec 16).toNat < Params.tv.G ∧ wordsToNat [0x1] < 2 ^ Params.tv.M ∧
    (Bank.reset Params.tv).gunit.get (ix 0) = .unwritten ∧
    ({ Bank.reset Params.tv with gunit := #v[.val (ix 0), .unwritten] }.gunit.get (ix 0) = .val (ix 0) ∧
      { Bank.reset Params.tv with gunit := #v[.val (ix 0), .unwritten] }.gwidth.get (ix 0) = .unwritten) ∧
    ((almostBank.setGroup (ix 0) (ix 0) 2).gunit.get (ix 0) = .val (ix 0) ∧
      (almostBank.setGroup (ix 0) (ix 0) 2).gwidth.get (ix 0) = .val 2 ∧
      (almostBank.setGroup (ix 0) (ix 0) 2).coefAt (ix 0) (ix 3) (ix 3) = .unwritten) ∧
    (((almostBank.setCoef (ix 0) (ix 3) (ix 3) true).setGroup (ix 0) (ix 0) 2).UnitWritten (ix 0) ∧
      ((almostBank.setCoef (ix 0) (ix 3) (ix 3) true).setGroup (ix 0) (ix 0) 2).seed.get (ix 0) = .unwritten) ∧
    hashBank.gunit.get (ix 1) = .val (ix 1) ∧ (hashBank.setGroup (ix 1) (ix 1) 2).gwidth.get (ix 1) = .val 2 ∧
      isWritten (hashBank.seed.get (ix 1)) = true ∧
      hashBank.maskAt (ix 1) (ix 1) = .unwritten ∧
      ∀ j' : Fin 2, j' < 1 → isWritten (hashBank.maskAt (ix 1) j') = true := by
  refine ⟨by decide, by decide, by decide, by decide, by decide, ⟨?_, by decide⟩, by decide⟩
  unfold Bank.UnitWritten; decide

theorem witness_ComputeIsLinear : hashBank.UnitWritten (ix 1) := hashBank_unit _
theorem witness_SeededIsAffine : hashBank.UnitWritten (ix 0) ∧ hashBank.seed.get (ix 0) = .val 0xA :=
  ⟨hashBank_unit _, by decide⟩
theorem witness_ReduceLaws : (0x3 : BitVec 4) &&& 0xC = 0 := by decide

/-! ### Gateway -/

/-- The context of thread 0 and a version. -/
def ctx (v : BitVec 2) : Context Params.tv.V := { thread := 0, version := v }

theorem matches_of {b : Bank Params.tv} {t : TableAddr Params.tv} {live : BitVec 8} {c : Context Params.tv.V}
    {i : Fin Params.tv.K} (h : entryPasses b t live c i = .ok true) : b.Matches t live c i := (entryPasses_true i).mp h

theorem not_matches_of {b : Bank Params.tv} {t : TableAddr Params.tv} {live : BitVec 8} {c : Context Params.tv.V}
    {i : Fin Params.tv.K} (h : entryPasses b t live c i = .ok false) : ¬ b.Matches t live c i := by
  intro hm
  rw [(entryPasses_true i).mpr hm] at h
  simp at h

theorem gwBank_entries (t : TableAddr Params.tv) (i : Fin Params.tv.K) : (gwBank.entryAt t i).valid = true →
    isWritten (gwBank.entryAt t i).ver = true ∧ isWritten (gwBank.entryAt t i).value = true ∧
      isWritten (gwBank.entryAt t i).dc = true := by
  obtain ⟨r, c⟩ := t
  revert r c i
  decide

theorem gwBank_inv : gwBank.Inv := by
  refine ⟨gwBank_entries, fun g L h => ?_⟩
  have : ∀ g, gwBank.gwidth.get g = .unwritten := by decide
  simp [this] at h

/-- The hit at the last entry, and the miss. -/
theorem witness_GwEvalAnswersLowestMatch : (2 : BitVec 8).toNat < Params.tv.ROWS ∧ (1 : BitVec 8).toNat < Params.tv.TPR ∧
    (3 : BitVec 16).toNat < 2 ^ Params.tv.V ∧ (1 : BitVec 4).toNat < Params.tv.THREADS ∧ wordsToNat [0x5B] < 2 ^ Params.tv.W ∧
    (∀ i, (gwBank.entryAt t21 i).valid = true → isWritten (gwBank.entryAt t21 i).ver = true ∧
      isWritten (gwBank.entryAt t21 i).value = true ∧ isWritten (gwBank.entryAt t21 i).dc = true) ∧
    (gwBank.Matches t21 0x5B (ctx 0) (ix 3) ∧ (∀ j : Fin Params.tv.K, j < ix 3 → ¬ gwBank.Matches t21 0x5B (ctx 0) j) ∧
      (gwBank.entryAt t21 (ix 3)).payload = .val 0xC3) ∧
    ∀ i, ¬ gwBank.Matches t21 0x6A (ctx 0) i := by
  have h1 : ∀ j : Fin Params.tv.K, j < ix 3 → entryPasses gwBank t21 0x5B (ctx 0) j = .ok false := by decide
  have h2 : ∀ j, entryPasses gwBank t21 0x6A (ctx 0) j = .ok false := by decide
  exact ⟨by decide, by decide, by decide, by decide, by decide, gwBank_entries t21,
    ⟨matches_of (by decide), fun j hj => not_matches_of (h1 j hj), by decide⟩, fun i => not_matches_of (h2 i)⟩

/-- A winner without a payload, entry 0 of R173 made valid with every bit don't-care. -/
def noPayloadBank : Bank Params.tv := gwBank.setEntry t21 (ix 0) (gwEntry true 0 0x00 0xFF .unwritten)

theorem noPayloadBank_inv : noPayloadBank.Inv := by
  refine ⟨fun t i => ?_, fun g L h => ?_⟩
  · obtain ⟨r, c⟩ := t
    revert r c i
    decide
  · have : ∀ g, noPayloadBank.gwidth.get g = .unwritten := by decide
    simp [this] at h

theorem witness_GwEvalFaultsOnWinnersPayload : (active noPayloadBank).act.Inv ∧
    (∃ m' : Block Params.tv, exec (.gwEval 2 1 0 0 [0x5B]) { params := Params.tv, block := active noPayloadBank } =
      .next { params := Params.tv, block := m' }) ∧
    noPayloadBank.Matches t21 0x5B (ctx 0) (ix 0) ∧ (noPayloadBank.entryAt t21 (ix 0)).payload = .unwritten :=
  ⟨noPayloadBank_inv, exec_next _ { params := Params.tv, block := active noPayloadBank }, matches_of (by decide), by decide⟩

theorem witness_HitIsTheLowestMatch : evaluate gwBank t21 0x5A (ctx 0) =
      .ok { hit := true, index := some 2, payload := some 0x77 } ∧
    gwBank.Inv ∧ gwBank.Matches t21 0x5A (ctx 0) (ix 2) ∧
    (∀ j : Fin Params.tv.K, j < ix 2 → ¬ gwBank.Matches t21 0x5A (ctx 0) j) ∧
    (gwBank.entryAt t21 (ix 2)).payload = .val 0x77 := by
  have h : ∀ j : Fin Params.tv.K, j < ix 2 → entryPasses gwBank t21 0x5A (ctx 0) j = .ok false := by decide
  exact ⟨by decide, gwBank_inv, matches_of (by decide), fun j hj => not_matches_of (h j hj), by decide⟩

theorem witness_AllInvalidTableMisses : (∀ i, ((Bank.reset Params.tv).entryAt t21 i).valid = false) ∧
    legalParams { Params.tv with K := 0 } = true := by decide

/-- The vectors of spec/95_test_vectors.md 2.3: bit 2 flipped, no lower entry matching, and bit 0 flipped, entry 2 matching. -/
theorem witness_DontCareInvariance : gwBank.Inv ∧
    evaluate gwBank t21 0x5B (ctx 0) = .ok { hit := true, index := some (ix 3 : Fin 4).val, payload := some 0xC3 } ∧
    (gwBank.entryAt t21 (ix 3)).dc = .val 0x0F ∧ (0x0F : BitVec 8).getLsbD 2 = true ∧ (0x0F : BitVec 8).getLsbD 0 = true ∧
    (∀ l, l < 8 → (0x5F : BitVec 8).getLsbD l = ((0x5B : BitVec 8).getLsbD l ^^ decide (l = 2))) ∧
    (∀ l, l < 8 → (0x5A : BitVec 8).getLsbD l = ((0x5B : BitVec 8).getLsbD l ^^ decide (l = 0))) ∧
    (∀ j : Fin Params.tv.K, j < ix 3 → ¬ gwBank.Matches t21 0x5F (ctx 0) j) ∧
    gwBank.Matches t21 0x5A (ctx 0) (ix 2) ∧ (∀ j : Fin Params.tv.K, j < ix 2 → ¬ gwBank.Matches t21 0x5A (ctx 0) j) ∧
    (gwBank.entryAt t21 (ix 2)).payload = .val 0x77 := by
  have h1 : ∀ j : Fin Params.tv.K, j < ix 3 → entryPasses gwBank t21 0x5F (ctx 0) j = .ok false := by decide
  have h2 : ∀ j : Fin Params.tv.K, j < ix 2 → entryPasses gwBank t21 0x5A (ctx 0) j = .ok false := by decide
  exact ⟨gwBank_inv, by decide, by decide, by decide, by decide, by decide, by decide,
    fun j hj => not_matches_of (h1 j hj), matches_of (by decide), fun j hj => not_matches_of (h2 j hj), by decide⟩

theorem witness_EvaluateReadsOneTable :
    (∀ i, gwBank.entryAt t21 i = (gwBank.setSeed (ix 0) 0xA).entryAt t21 i) ∧
    (gwBank.selectAt t21).tmode = ((gwBank.setSeed (ix 0) 0xA).selectAt t21).tmode := ⟨fun _ => rfl, rfl⟩

/-! ### Outcomes -/

/-- A failing port check, range check, padding check and `ERR` check. -/
theorem witness_FirstFailingCheckRejects :
    firstFailure (onEvp fresh) (.setCoef 2 0 0 true) = some .portDenied ∧
    firstFailure fresh (.gwEval 3 0 2 4 [0x15A]) = some .tableRange ∧
    firstFailure fresh (.setGwEntry 2 1 3 0 true [0x50] [0x10F]) = some .padNonzero ∧
    firstFailure { fresh with status := { CfgStatus.reset with err := true } } .commit = some .loadFailed := by decide

theorem witness_PassedChecksAnswerOkOrFault :
    firstFailure fresh (.setGroup 1 1 2) = none ∧ firstFailure (onEvp fresh) (.hash 1 [0xF]) = none := by decide

theorem witness_EvaluationPortChangesNoConfiguration : (onEvp fresh).cur ≠ .cfgp ∧
    (∃ m' : Block Params.tv, exec .abort { params := Params.tv, block := onEvp fresh } =
      .next { params := Params.tv, block := m' }) ∧
    isConfigWrite (Instr.setGroup 0 0 1).opcode.byte = true :=
  ⟨by decide, exec_next _ { params := Params.tv, block := onEvp fresh }, by decide⟩

theorem witness_EvaluationsWriteNothing : isEvaluation (Instr.hash 0 [5]).opcode = true ∧
    ∃ m' : Block Params.tv, exec (.hash 0 [5]) { params := Params.tv, block := active hashBank } =
      .next { params := Params.tv, block := m' } :=
  ⟨by decide, exec_next _ { params := Params.tv, block := active hashBank }⟩

theorem witness_EvaluationDependsOnActiveBankOnly : isEvaluation (Instr.hash 0 [5]).opcode = true ∧
    (active hashBank).act = { onEvp (active hashBank) with stg := gwBank }.act ∧
    (active hashBank).gen = { onEvp (active hashBank) with stg := gwBank }.gen := ⟨by decide, rfl, rfl⟩

/-! ### Rules about every step -/

/-- A block whose next turn serves a frame has a step, and it answers a next state. -/
theorem steps (m : Block Params.tv) {t : Turn Params.tv} (h : m.nextTurn = some t) : m.nextTurn = some t ∧
    ∃ m' : Block Params.tv, step { params := Params.tv, block := m } = .next { params := Params.tv, block := m' } :=
  ⟨h, step_next (by decide) h⟩

/-- `fresh` with `ERR = 1`. -/
def erred : Block Params.tv := { fresh with status := { CfgStatus.reset with err := true, code := .unitRange, capOpc := 1 } }

theorem witness_ErrIsSticky : ((turnOf erred .cfgp commitFrame).nextTurn =
      some (.serve commitFrame (turned erred .cfgp commitFrame)) ∧
    ∃ m' : Block Params.tv, step { params := Params.tv, block := turnOf erred .cfgp commitFrame } =
      .next { params := Params.tv, block := m' }) ∧
    (turnOf erred .cfgp commitFrame).status.err = true ∧
    (Turn.serve commitFrame (turned erred .cfgp commitFrame)).IsCfgp .commit :=
  ⟨steps _ (by decide), by decide, _, _, rfl, rfl, by decide⟩

/-- A failing SET_SEED on CFGP. -/
theorem witness_CaptureRecordsFirstFailure :
    (turnOf fresh .cfgp { header := 0x02, data := [0x1A] }).nextTurn =
      some (.serve { header := 0x02, data := [0x1A] } (turned fresh .cfgp { header := 0x02, data := [0x1A] })) ∧
    ∃ m' : Block Params.tv, step { params := Params.tv, block := turnOf fresh .cfgp { header := 0x02, data := [0x1A] } } =
      .next { params := Params.tv, block := m' } := steps _ (by decide)

theorem witness_BanksChangeOnlyByTheirCommands :
    (turnOf fresh .cfgp commitFrame).nextTurn = some (.serve commitFrame (turned fresh .cfgp commitFrame)) ∧
    ∃ m' : Block Params.tv, step { params := Params.tv, block := turnOf fresh .cfgp commitFrame } =
      .next { params := Params.tv, block := m' } := steps _ (by decide)

/-- HASH on a fresh block, which faults. -/
theorem witness_FaultRecordOnlyGrows :
    ((turnOf fresh evp0 { header := 0x21, data := [1] }).nextTurn =
      some (.serve { header := 0x21, data := [1] } (turned fresh evp0 { header := 0x21, data := [1] })) ∧
    ∃ m' : Block Params.tv, step { params := Params.tv, block := turnOf fresh evp0 { header := 0x21, data := [1] } } =
      .next { params := Params.tv, block := m' }) ∧
    ¬ (Turn.serve { header := 0x21, data := [1] } (turned fresh evp0 { header := 0x21, data := [1] })).IsReset :=
  ⟨steps _ (by decide), by rintro ⟨m, h⟩; cases h⟩

/-- CFGP has faulted and EVP0 steps. -/
theorem witness_FaultedPortStandsStill :
    ((turnOf stuckBlock evp0 nopFrame).nextTurn = some (.serve nopFrame (turned stuckBlock evp0 nopFrame)) ∧
    ∃ m' : Block Params.tv, step { params := Params.tv, block := turnOf stuckBlock evp0 nopFrame } =
      .next { params := Params.tv, block := m' }) ∧
    ¬ (Turn.serve nopFrame (turned stuckBlock evp0 nopFrame)).IsReset ∧
    ∃ r ∈ (turnOf stuckBlock evp0 nopFrame).fault, r.port = .cfgp :=
  ⟨steps _ (by decide), (by rintro ⟨m, h⟩; cases h), by decide⟩

theorem witness_OnePortMovesByOneCommand :
    (turnOf fresh evp0 nopFrame).nextTurn = some (.serve nopFrame (turned fresh evp0 nopFrame)) ∧
    ∃ m' : Block Params.tv, step { params := Params.tv, block := turnOf fresh evp0 nopFrame } =
      .next { params := Params.tv, block := m' } := steps _ (by decide)

/-! ### Invariants -/

theorem bankReset_inv : (Bank.reset Params.tv).Inv := by
  refine ⟨fun t i h => by simp [Bank.entryAt, Bank.reset] at h, fun g L h => ?_⟩
  have : ∀ g, (Bank.reset Params.tv).gwidth.get g = .unwritten := by decide
  simp [this] at h

/-- A block with a command to execute meets the invariant. -/
theorem turnOf_inv : (turnOf fresh .cfgp commitFrame).Inv where
  stg := bankReset_inv
  act := bankReset_inv
  status := ⟨fun _ => rfl, fun h => absurd h (by decide)⟩
  ports := by
    refine ⟨fun q => ?_, fun q => ?_, fun r hr => ?_, ?_⟩
    · cases q <;> simp [turnOf, Block.setPort, Block.port, fresh, Block.reset]
    · cases q <;> simp [turnOf, Block.setPort, Block.port, fresh, Block.reset]
    · exact absurd hr (by simp [turnOf, Block.setPort, fresh, Block.reset])
    · exact List.Pairwise.nil

theorem witness_StepKeepsTheInvariant : (turnOf fresh .cfgp commitFrame).Inv ∧
    ∃ m' : Block Params.tv, step { params := Params.tv, block := turnOf fresh .cfgp commitFrame } =
      .next { params := Params.tv, block := m' } :=
  ⟨turnOf_inv, (steps _ (t := .serve commitFrame (turned fresh .cfgp commitFrame)) (by decide)).2⟩

theorem witness_ResetMeetsTheInvariant : legalParams Params.tv = true ∧ legalParams tvZero = true := by decide

theorem bankReset_written : (Bank.reset tvZero).AllWritten := by
  have hz : tvZero.resetPolicy = .zero := rfl
  have hU : 0 < tvZero.U := by decide
  constructor <;> intros <;>
    simp [Bank.coefAt, Bank.maskAt, Bank.entryAt, Bank.selectAt, Bank.reset, resetCell, resetUnit, hz, hU]

theorem witness_ZeroPolicyNeverFaults : legalParams tvZero = true ∧ tvZero.resetPolicy = .zero ∧
    { Block.reset tvZero with schedule := [.reset] }.stg.AllWritten ∧
    { Block.reset tvZero with schedule := [.reset] }.act.AllWritten ∧
    ∃ m' : Block tvZero, step { params := tvZero, block := { Block.reset tvZero with schedule := [.reset] } } =
      .next { params := tvZero, block := m' } :=
  ⟨by decide, by decide, bankReset_written, bankReset_written,
    step_next (t := .reset { Block.reset tvZero with schedule := [] }) (by decide) rfl⟩

/-! ### Assembler -/

theorem witness_AssemblerExpansions : (0xF < 2 ^ Params.tv.N) ∧ ([1, 2, 4, 8].length = Params.tv.M ∧
      ∀ v ∈ [1, 2, 4, 8], v < 2 ^ Params.tv.N) ∧ Params.tv.K ≤ 2 ^ 16 ∧
    Assembler.expand Params.tv { mnemonic := .gwInvalidate, operands := [.table 2 1, .int 3] } =
      some [.setGwEntry 2 1 3 0 false [0] [0]] := by decide

end Sys2Proof.Tests
end

section
/-! The constraints of R10 and the refusal of a tuple that breaks one (R13). -/

namespace Sys2Proof.Machine

theorem within_eq_true_iff {lo hi v : Nat} : within lo hi v = true ↔ lo ≤ v ∧ v ≤ hi := by
  simp [within]

/-- The Boolean check of a tuple, as the thirteen constraints of R10 in its order. -/
theorem legalParams_iff (p : Params) : legalParams p = true ↔
    (1 ≤ p.U ∧ p.U ≤ 65536) ∧ (1 ≤ p.M ∧ p.M ≤ 65536) ∧ (1 ≤ p.N ∧ p.N ≤ 65536) ∧ p.G ≤ 65536 ∧
      (1 ≤ p.LMAX ∧ p.LMAX ≤ 65536) ∧ (1 ≤ p.ROWS ∧ p.ROWS ≤ 256) ∧ (1 ≤ p.TPR ∧ p.TPR ≤ 256) ∧ p.K ≤ 256 ∧
      (1 ≤ p.W ∧ p.W ≤ 65536) ∧ p.V ≤ 16 ∧ p.P ≤ 65536 ∧ (1 ≤ p.THREADS ∧ p.THREADS ≤ 16) ∧ 1 ≤ p.E := by
  simp only [legalParams, List.all_cons, List.all_nil, Bool.and_eq_true, within_eq_true_iff, decide_eq_true_iff,
    Nat.zero_le, true_and, and_true]

/-- Under a legal tuple a step is never refused: with a turn at hand it answers a next state, without one a fault. -/
theorem step_ne_refused_of_legal {s : State} (hl : legalParams s.params = true) (r : Refusal) : step s ≠ .refused r := by
  obtain ⟨p, m⟩ := s
  cases ht : m.nextTurn with
  | none => simp [step_none hl ht]
  | some t =>
    obtain ⟨m', hm'⟩ := step_next hl ht
    simp [hm']

theorem step_refused_illegalParameters_iff (s : State) :
    step s = .refused .illegalParameters ↔ ¬ legalParams s.params = true :=
  ⟨fun hr hl => step_ne_refused_of_legal hl _ hr, fun hl => step_illegal (Bool.eq_false_of_not_eq_true hl)⟩

/-- Settles O13: a step is refused exactly when the check of the tuple fails, and the check is the list of R10. -/
theorem illegalParametersRefused : Obligations.IllegalParametersRefused := fun s =>
  (step_refused_illegalParameters_iff s).trans (not_congr (legalParams_iff s.params))

end Sys2Proof.Machine
end

section
/-! The header a decoded frame's instruction has: the frame's own, since its reserved bits are 0 (R98, R101). -/

namespace Sys2Proof

theorem and_allOnes16 {a : BitVec 16} (h : a &&& 0xFFFF = 0) : a = 0 := by
  rwa [show (0xFFFF : BitVec 16) = BitVec.allOnes 16 from rfl, BitVec.and_allOnes] at h

theorem and_allOnes8 {f : BitVec 8} (h : f &&& 0xFF = 0) : f = 0 := by
  rwa [show (0xFF : BitVec 8) = BitVec.allOnes 8 from rfl, BitVec.and_allOnes] at h

theorem flagByte_of_masked : ∀ f : BitVec 8, f &&& 0xFE = 0 → flagByte (f.getLsbD 0) = f := by decide

theorem threadByte_of_masked : ∀ f : BitVec 8, f &&& 0xF0 = 0 → (0 : BitVec 4) ++ f.extractLsb' 0 4 = f := by decide

/-- A header that a mask clears has every field cleared by the mask's field. -/
theorem Header.fields_and_eq_zero {h z : Word} {opc : BitVec 8} {a b c : BitVec 16} {f : BitVec 8}
    (hz : z = Header.make opc a b c f) (hm : h &&& z = 0) :
    Header.a h &&& a = 0 ∧ Header.b h &&& b = 0 ∧ Header.c h &&& c = 0 ∧ Header.f h &&& f = 0 := by
  rw [← Header.make_fields h, hz, Header.make_and, Header.make_eq_zero] at hm
  exact hm.2

/-- The instruction built from a frame has the frame's header, where the header's opcode and reserved bits fit. -/
theorem Opcode.header_build (p : Params) {fr : Frame} {op : Opcode} (ho : op.byte = Header.opc fr.header)
    (hr : fr.header &&& op.reservedZero = 0) : (op.build p fr).header = fr.header := by
  rw [← Header.make_fields fr.header, ← ho]
  cases op with
  | nop | commit | abort | clearErr | readStatus =>
    obtain ⟨ha, hb, hc, hf⟩ := Header.fields_and_eq_zero (opc := 0) (a := 0xFFFF) (b := 0xFFFF) (c := 0xFFFF) (f := 0xFF)
      (by decide) hr
    simp only [Opcode.build, Instr.header, and_allOnes16 ha, and_allOnes16 hb, and_allOnes16 hc, and_allOnes8 hf]
  | setCoef | setGwEntry =>
    obtain ⟨-, -, -, hf⟩ := Header.fields_and_eq_zero (opc := 0) (a := 0) (b := 0) (c := 0) (f := 0xFE) (by decide) hr
    simp only [Opcode.build, Instr.header, Header.flag, flagByte_of_masked _ hf, Header.row_append_tbl]
  | setSeed | hashRaw | hash | hgroup =>
    obtain ⟨-, hb, hc, hf⟩ := Header.fields_and_eq_zero (opc := 0) (a := 0) (b := 0xFFFF) (c := 0xFFFF) (f := 0xFF)
      (by decide) hr
    simp only [Opcode.build, Instr.header, and_allOnes16 hb, and_allOnes16 hc, and_allOnes8 hf]
  | setGroup =>
    obtain ⟨-, -, -, hf⟩ := Header.fields_and_eq_zero (opc := 0) (a := 0) (b := 0) (c := 0) (f := 0xFF) (by decide) hr
    simp only [Opcode.build, Instr.header, and_allOnes8 hf]
  | setPmask | setGwPayload =>
    obtain ⟨-, -, hc, hf⟩ := Header.fields_and_eq_zero (opc := 0) (a := 0) (b := 0) (c := 0xFFFF) (f := 0xFF)
      (by decide) hr
    simp only [Opcode.build, Instr.header, and_allOnes16 hc, and_allOnes8 hf, Header.row_append_tbl]
  | setGwSelect => simp only [Opcode.build, Instr.header, Header.row_append_tbl]
  | gwEval =>
    obtain ⟨-, hb, -, hf⟩ := Header.fields_and_eq_zero (opc := 0) (a := 0) (b := 0xFFFF) (c := 0) (f := 0xF0)
      (by decide) hr
    simp only [Opcode.build, Instr.header, Header.thread, threadByte_of_masked _ hf, and_allOnes16 hb,
      Header.row_append_tbl]

/-- A frame that decodes has its instruction's header. -/
theorem header_of_decode {p : Params} {fr : Frame} {i : Instr} (h : decode p fr = .ok i) : i.header = fr.header := by
  obtain ⟨op, ho, hr, -, rfl⟩ := decode_ok h
  exact Opcode.header_build p ho hr

end Sys2Proof
end

section
/-! What a step that serves a frame does, and the rules about every step that follow: which commands change the status, `GEN`
and the banks, and how the fault record grows (R41, R42, R45, R46, R82). -/

namespace Sys2Proof.Machine

variable {p : Params} {m m1 m' : Block p} {t : Turn p}

/-! ## The served frame -/

/-- The code an undecoded frame is rejected with is a failure. -/
theorem code_ne_ok_of_decode_error {fr : Frame} {c code : Status} (h : decode p fr = .error c)
    (hc : code = c ∨ code = .portDenied) : code ≠ .ok := by
  rcases hc with rfl | rfl
  · rcases decode_error h with ⟨rfl, -⟩ | ⟨rfl | rfl, -⟩ <;> decide
  · decide

/-- The turn changes no bank, no status, neither `GEN` nor `FAULT`. -/
theorem Block.nextTurn_serve_sameConfig {fr : Frame} (ht : m.nextTurn = some (.serve fr m1)) : m.SameConfig m1 := by
  obtain ⟨q, es, k, rfl, -⟩ := Block.nextTurn_serve ht
  exact ⟨⟨rfl, rfl⟩, rfl, rfl, rfl⟩

/-- A step that serves a frame rejects it, with a code that is a failure, or executes its instruction past every check. -/
theorem step_serve_cases {fr : Frame} (ht : m.nextTurn = some (.serve fr m1))
    (h : step { params := p, block := m } = .next { params := p, block := m' }) :
    (∃ c, c ≠ .ok ∧ m' = m1.reject fr.header c) ∨
      ∃ i, decode p fr = .ok i ∧ firstFailure m1 i = none ∧
        exec i { params := p, block := m1 } = .next { params := p, block := m' } := by
  rcases step_outcome ht h with ⟨es, hr, -⟩ | ⟨fr', q, es, k, heq, -, ⟨i, hd, he⟩ | ⟨c, code, hd, rfl, hc⟩⟩
  · cases hr
  · cases heq
    cases hf : firstFailure { m with schedule := es, cur := q, picks := k } i with
    | none => exact .inr ⟨i, hd, hf, he⟩
    | some c =>
      rw [exec_of_firstFailure hf, header_of_decode hd] at he
      exact .inl ⟨c, firstFailure_ne_ok hf, (next_inj he).symm⟩
  · cases heq
    exact .inl ⟨code, code_ne_ok_of_decode_error hd hc, rfl⟩

/-- Past every check an instruction keeps `CFG_STATUS`, or is the CLEAR_ERR or ABORT on CFGP that clears it. -/
theorem exec_status_of_passed {i : Instr} (hf : firstFailure m i = none)
    (h : exec i { params := p, block := m } = .next { params := p, block := m' }) :
    m'.status = m.status ∨
      (m'.status = CfgStatus.reset ∧ m.cur = .cfgp ∧ (i = .clearErr ∨ i = .abort)) := by
  rcases ((exec_outcome h).resolve_left (by simp [hf])).2 with
    ⟨-, -, b, rfl⟩ | ⟨-, -, -, rfl⟩ | ⟨hi, hcur, rfl⟩ | ⟨hi, hcur, rfl⟩ | ⟨-, rfl⟩ |
    ⟨-, rfl⟩ | ⟨-, e, rfl⟩
  · exact .inl rfl
  · exact .inl rfl
  · exact .inr ⟨rfl, hcur, .inr hi⟩
  · exact .inr ⟨rfl, hcur, .inl hi⟩
  · exact .inl rfl
  · exact .inl rfl
  · exact .inl (m.answer_status i.opcode e)

/-- Past every check an instruction keeps `GEN` and `ACT`, or is the COMMIT on CFGP that publishes the staged bank. -/
theorem exec_published_of_passed {i : Instr} (hf : firstFailure m i = none)
    (h : exec i { params := p, block := m } = .next { params := p, block := m' }) :
    (m'.gen = m.gen ∧ m'.act = m.act) ∨
      (i = .commit ∧ m.cur = .cfgp ∧ m.status.err = false ∧ m'.gen = m.gen + 1 ∧ m'.act = m.stg) := by
  rcases ((exec_outcome h).resolve_left (by simp [hf])).2 with
    ⟨-, -, b, rfl⟩ | ⟨hi, hcur, herr, rfl⟩ | ⟨-, -, rfl⟩ | ⟨-, -, rfl⟩ | ⟨-, rfl⟩ |
    ⟨-, rfl⟩ | ⟨-, e, rfl⟩
  · exact .inl ⟨rfl, rfl⟩
  · exact .inr ⟨hi, hcur, herr, rfl, rfl⟩
  · exact .inl ⟨rfl, rfl⟩
  · exact .inl ⟨rfl, rfl⟩
  · exact .inl ⟨rfl, rfl⟩
  · exact .inl ⟨rfl, rfl⟩
  · exact .inl ⟨m.answer_gen i.opcode e, m.answer_act i.opcode e⟩

/-- Past every check an instruction keeps `STG`, or is an ABORT or a configuration write on CFGP. -/
theorem exec_staged_of_passed {i : Instr} (hf : firstFailure m i = none)
    (h : exec i { params := p, block := m } = .next { params := p, block := m' }) :
    m'.stg = m.stg ∨ (m.cur = .cfgp ∧ (i = .abort ∨ isConfigWrite i.opcode.byte = true)) := by
  rcases ((exec_outcome h).resolve_left (by simp [hf])).2 with
    ⟨hi, hcur, b, rfl⟩ | ⟨-, -, -, rfl⟩ | ⟨hi, hcur, rfl⟩ | ⟨-, -, rfl⟩ | ⟨-, rfl⟩ |
    ⟨-, rfl⟩ | ⟨-, e, rfl⟩
  · exact .inr ⟨hcur, .inr hi⟩
  · exact .inl rfl
  · exact .inr ⟨hcur, .inl hi⟩
  · exact .inl rfl
  · exact .inl rfl
  · exact .inl rfl
  · exact .inl (m.answer_stg i.opcode e)

/-! ## Rules about every step -/

/-- Settles O49: past every check only CLEAR_ERR and ABORT touch the status, and a rejection touches it by its capture. -/
theorem captureRecordsFirstFailure : Obligations.CaptureRecordsFirstFailure := by
  intro p m m' t ht h
  cases t with
  | reset m1 =>
    rcases step_outcome ht h with ⟨es, -, rfl⟩ | ⟨fr, q, es, k, heq, -⟩
    · exact .inr (.inl ⟨rfl, .inl ⟨m1, rfl⟩⟩)
    · cases heq
  | serve fr m1 =>
    have hst := (Block.nextTurn_serve_sameConfig ht).status
    rcases step_serve_cases ht h with ⟨c, hc, rfl⟩ | ⟨i, hd, hf, he⟩
    · rcases m1.reject_status_cases fr.header c with hs | ⟨herr, hcur, hw, hs⟩
      · exact .inl (hs.trans hst)
      · exact .inr (.inr ⟨hst ▸ herr, fr, m1, c, rfl, hcur, hw, hc, m1.reject_rejected _ _, hs⟩)
    · rcases exec_status_of_passed hf he with hs | ⟨hs, hcur, rfl | rfl⟩
      · exact .inl (hs.trans hst)
      · exact .inr (.inl ⟨hs, .inr (.inl ⟨fr, m1, rfl, hcur, hd⟩)⟩)
      · exact .inr (.inl ⟨hs, .inr (.inr ⟨fr, m1, rfl, hcur, hd⟩)⟩)

/-- A COMMIT on CFGP while `ERR = 1` fails its last check and is rejected. -/
theorem exec_commit_of_err (hcur : m.cur = .cfgp) (herr : m.status.err = true) :
    exec .commit { params := p, block := m } =
      .next { params := p, block := m.reject Instr.commit.header .loadFailed } :=
  exec_of_firstFailure (by simp [firstFailure, operandChecks, errCheck, Instr.opcode, hcur, herr])

/-- Settles O48: by the three outcomes of O49, and since COMMIT fails its last check while `ERR = 1`. -/
theorem errIsSticky : Obligations.ErrIsSticky := by
  intro p m m' t ht h herr
  constructor
  · rcases captureRecordsFirstFailure p m m' t ht h with hs | ⟨-, hr⟩ | ⟨he, -⟩
    · exact .inl (hs ▸ herr)
    · exact .inr hr
    · simp [herr] at he
  · rintro ⟨fr, m1, rfl, hcur, hd⟩
    have hsame := Block.nextTurn_serve_sameConfig ht
    obtain ⟨hl, -⟩ := step_cases h
    rw [step_serve hl ht hd, exec_commit_of_err hcur (hsame.status ▸ herr)] at h
    obtain rfl := next_inj h
    have hresp := (m1.reject_rejected Instr.commit.header .loadFailed).answered.resp
    rw [hcur] at hresp
    exact ⟨by simp [hsame.banks.act], by simp [hsame.gen], m1.cfgp.resp, hresp⟩

/-- Settles O50: a rejection changes no bank and not `GEN`; past every check only COMMIT publishes, and only ABORT and the
configuration writes touch the staged bank. -/
theorem banksChangeOnlyByTheirCommands : Obligations.BanksChangeOnlyByTheirCommands := by
  intro p m m' t ht h
  cases t with
  | reset m1 => exact ⟨.inr (.inl ⟨m1, rfl⟩), .inr (.inl ⟨m1, rfl⟩)⟩
  | serve fr m1 =>
    obtain ⟨⟨hstg, hact⟩, hstatus, hgen, -⟩ := Block.nextTurn_serve_sameConfig ht
    rw [← hstatus, ← hgen, ← hact, ← hstg]
    rcases step_serve_cases ht h with ⟨c, -, rfl⟩ | ⟨i, hd, hf, he⟩
    · exact ⟨.inl ⟨m1.reject_gen _ _, m1.reject_act _ _⟩, .inl (m1.reject_stg _ _)⟩
    · constructor
      · rcases exec_published_of_passed hf he with hs | ⟨rfl, hcur, hp⟩
        · exact .inl hs
        · exact .inr (.inr ⟨⟨fr, m1, rfl, hcur, hd⟩, hp⟩)
      · rcases exec_staged_of_passed hf he with hs | ⟨hcur, rfl | hw⟩
        · exact .inl hs
        · exact .inr (.inr (.inl ⟨fr, m1, rfl, hcur, hd⟩))
        · exact .inr (.inr (.inr ⟨i, ⟨fr, m1, rfl, hcur, hd⟩, hw⟩))

/-- Settles O51: a served frame is answered, which records nothing, or faults, which adds one entry. -/
theorem faultRecordOnlyGrows : Obligations.FaultRecordOnlyGrows := by
  intro p m m' t ht hr h
  cases t with
  | reset m1 => exact absurd ⟨m1, rfl⟩ hr
  | serve fr m1 =>
    obtain ⟨q, es, k, rfl, -, ⟨r, -, hfault⟩ | ⟨op, f, -, hfaulted⟩⟩ := step_moves ht h
    · exact .inl hfault
    · exact .inr ⟨_, hfaulted.fault⟩

/-- Settles O10: the port can step, so the schedule's head names the turn. -/
theorem scheduledPortHasTheTurn : Obligations.ScheduledPortHasTheTurn := by
  intro p m q es fr hs hnf hfr
  have hp : m.pending q = some fr := by
    cases h : m.pending q with
    | some fr' => rw [← hfr, (Block.pending_eq_some h).2]
    | none =>
      rcases Block.pending_eq_none.mp h with ⟨r, hr, hq⟩ | hlen
      · exact absurd hq (hnf r hr)
      · simp [List.getElem?_eq_none hlen] at hfr
  simp only [Block.nextTurn, hs, m.scheduled_turn q es fr hp]

end Sys2Proof.Machine
end

section
/-! The values of every cell after reset (R62, R63). -/

namespace Sys2Proof.Machine

variable {p : Params}

theorem resetCell_of_unwritten {α : Type} (h : p.resetPolicy = .unwritten) (z : α) : resetCell p z = .unwritten := by
  simp [resetCell, h]

theorem resetCell_of_zero {α : Type} (h : p.resetPolicy = .zero) (z : α) : resetCell p z = .val z := by
  simp [resetCell, h]

theorem resetCell_eq_val {α : Type} {z v : α} (h : resetCell p z = .val v) : v = z := by
  cases hp : p.resetPolicy with
  | unwritten => simp [resetCell_of_unwritten hp] at h
  | zero => simpa [resetCell_of_zero hp, eq_comm] using h

theorem resetUnit_of_pos (h : 0 < p.U) : resetUnit p = resetCell p ⟨0, h⟩ := by simp [resetUnit, h]

theorem resetUnit_of_unwritten (h : p.resetPolicy = .unwritten) : resetUnit p = .unwritten := by
  simp [resetUnit, resetCell_of_unwritten h]

@[simp] theorem Bank.reset_coefAt (u : Fin p.U) (r : Fin p.M) (c : Fin p.N) :
    (Bank.reset p).coefAt u r c = resetCell p false := by simp [Bank.reset, Bank.coefAt]

@[simp] theorem Bank.reset_seed_get (u : Fin p.U) : (Bank.reset p).seed.get u = resetCell p 0 := by simp [Bank.reset]

@[simp] theorem Bank.reset_gunit_get (g : Fin p.G) : (Bank.reset p).gunit.get g = resetUnit p := by simp [Bank.reset]

@[simp] theorem Bank.reset_gwidth_get (g : Fin p.G) : (Bank.reset p).gwidth.get g = resetCell p 1 := by simp [Bank.reset]

@[simp] theorem Bank.reset_maskAt (g : Fin p.G) (j : Fin p.LMAX) : (Bank.reset p).maskAt g j = resetCell p 0 := by
  simp [Bank.reset, Bank.maskAt]

@[simp] theorem Bank.reset_entryAt (t : TableAddr p) (i : Fin p.K) : (Bank.reset p).entryAt t i =
    { valid := false, value := resetCell p 0, dc := resetCell p 0, ver := resetCell p 0, payload := resetCell p 0 } := by
  simp [Bank.reset, Bank.entryAt]

@[simp] theorem Bank.reset_selectAt (t : TableAddr p) : (Bank.reset p).selectAt t =
    { in0 := resetCell p 0, in1 := resetCell p 0, tmode := resetCell p 0 } := by simp [Bank.reset, Bank.selectAt]

@[simp] theorem Block.reset_port (q : Port p.E) : (Block.reset p).port q = { prog := [], pc := 0, resp := [] } := by
  cases q with
  | cfgp => rfl
  | evp k => simp [Block.reset, Block.port]

theorem CfgStatus.word0_reset : CfgStatus.reset.word0 0 = 0 := by decide

theorem CfgStatus.word1_reset : CfgStatus.reset.word1 = 0 := by decide

/-- Settles O14: cell by cell, each a `resetCell` of its zero. -/
theorem resetValuesOfEveryField : Obligations.ResetValuesOfEveryField := by
  intro p
  refine ⟨?_, CfgStatus.word0_reset, CfgStatus.word1_reset, rfl, rfl, fun q => by simp⟩
  intro b hb
  obtain rfl : b = Bank.reset p := by rcases hb with rfl | rfl <;> rfl
  refine ⟨fun t i => by simp, fun hp => ?_, fun hp => ?_⟩
  · simp [resetCell_of_unwritten hp, resetUnit_of_unwritten hp]
  · simp +contextual [resetCell_of_zero hp, resetUnit_of_pos]

end Sys2Proof.Machine
end

section
/-! The invariant holds after reset, and every step keeps it, part by part: banks, status, ports with the fault record. -/

namespace Sys2Proof.Machine

variable {p : Params} {m m1 m' : Block p} {b b' : Bank p}

/-! ## Banks -/

/-- The bank invariant speaks of the gateway entries and the widths alone. -/
theorem Bank.Inv.congr (h : b.Inv) (hgw : b'.gw = b.gw) (hw : b'.gwidth = b.gwidth) : b'.Inv where
  entries t i := by simpa only [Bank.entryAt, hgw] using h.entries t i
  widths g L := by simpa only [hw] using h.widths g L

theorem Bank.Inv.setGroup (h : b.Inv) (g : Fin p.G) (u : Fin p.U) {L : Nat} (hL : 1 ≤ L ∧ L ≤ p.LMAX) :
    (b.setGroup g u L).Inv where
  entries := h.entries
  widths g' L' hg' := by
    rw [Bank.setGroup_gwidth, get_put] at hg'
    split at hg'
    · cases hg'; exact hL
    · exact h.widths g' L' hg'

theorem Bank.Inv.setEntry (h : b.Inv) (t : TableAddr p) (i : Fin p.K) {e : GwEntry p}
    (he : e.valid = true → isWritten e.ver = true ∧ isWritten e.value = true ∧ isWritten e.dc = true) :
    (b.setEntry t i e).Inv where
  entries t' i' := by
    rw [Bank.entryAt_setEntry]
    split
    · exact he
    · exact h.entries t' i'
  widths := h.widths

/-- Under a legal tuple width 1, to which a group resets, is legal; no entry of the reset bank is valid. -/
theorem Bank.reset_inv (hl : legalParams p = true) : (Bank.reset p).Inv where
  entries t i hv := by simp at hv
  widths g L hg := by
    obtain ⟨-, -, -, -, ⟨hLMAX, -⟩, -⟩ := (legalParams_iff p).mp hl
    rw [Bank.reset_gwidth_get] at hg
    obtain rfl := resetCell_eq_val hg
    exact ⟨le_rfl, hLMAX⟩

/-- An instruction keeps the invariant of the staged bank: each of its updates does. -/
theorem exec_stg_inv {i : Instr} (hs : m.stg.Inv) (ha : m.act.Inv)
    (h : exec i { params := p, block := m } = .next { params := p, block := m' }) : m'.stg.Inv := by
  rcases exec_stg_cases h with e | e | ⟨u, r, c, v, e⟩ | ⟨u, v, e⟩ | ⟨g, u, L, hL, e⟩ | ⟨g, j, v, e⟩ |
    ⟨t, k, valid, value, dc, ver, e⟩ | ⟨t, k, pl, e⟩ | ⟨t, in0, in1, tmode, e⟩ <;> rw [e]
  · exact hs
  · exact ha
  · exact hs.congr rfl rfl
  · exact hs.congr rfl rfl
  · exact hs.setGroup g u hL
  · exact hs.congr rfl rfl
  · exact hs.setEntry t k fun _ => ⟨rfl, rfl, rfl⟩
  · exact hs.setEntry t k (hs.entries t k)
  · exact hs.congr rfl rfl

theorem exec_act_inv {i : Instr} (hs : m.stg.Inv) (ha : m.act.Inv)
    (h : exec i { params := p, block := m } = .next { params := p, block := m' }) : m'.act.Inv := by
  rcases exec_act_cases h with e | e <;> rw [e]
  · exact ha
  · exact hs

/-! ## Status -/

theorem CfgStatus.reset_inv : CfgStatus.reset.Inv where
  clear _ := rfl
  captured h := by simp [CfgStatus.reset] at h

/-- By O49 the status stays, becomes 0, or captures a failed configuration write. -/
theorem step_status_inv {t : Turn p} (ht : m.nextTurn = some t) (hs : m.status.Inv)
    (h : step { params := p, block := m } = .next { params := p, block := m' }) : m'.status.Inv := by
  rcases captureRecordsFirstFailure p m m' t ht h with e | ⟨e, -⟩ | ⟨-, fr, m1, c, -, -, hw, hc, -, e⟩ <;> rw [e]
  · exact hs
  · exact CfgStatus.reset_inv
  · exact ⟨fun h => by simp at h, fun _ => ⟨hw, hc⟩⟩

/-! ## Ports and the fault record -/

/-- An empty record and ports at index 0 without responses meet the invariant of the ports. -/
theorem Block.portsInv_of_fresh (hf : m.fault = []) (hq : ∀ q, (m.port q).pc = 0 ∧ (m.port q).resp = []) :
    m.PortsInv where
  counted q := by simp [hq q]
  within q := by simp [hq q]
  stands := by simp [hf]
  once := by simp [hf]

/-- The port in turn has a frame left and no recorded fault. -/
def Block.CurCanStep (m : Block p) : Prop :=
  (m.port m.cur).pc < (m.port m.cur).prog.length ∧ ∀ r ∈ m.fault, r.port ≠ m.cur

theorem Block.PortsInv.answered {r : Response} (h : m.PortsInv) (hc : m.CurCanStep) (ha : m.Answered m' r)
    (hf : m'.fault = m.fault) : m'.PortsInv where
  counted q := by
    by_cases hq : q = m.cur
    · subst hq; simp [ha.resp, ha.pc, h.counted]
    · rw [ha.others q hq]; exact h.counted q
  within q := by
    by_cases hq : q = m.cur
    · subst hq; rw [ha.pc, ha.inputs.prog]; exact hc.1
    · rw [ha.others q hq]; exact h.within q
  stands r hr := by
    rw [hf] at hr
    rw [ha.others r.port (hc.2 r hr)]
    exact h.stands r hr
  once := hf ▸ h.once

theorem Block.PortsInv.faulted {op : Opcode} {f : ConfigField} (h : m.PortsInv) (hc : m.CurCanStep)
    (hev : isEvaluation op = true) (hf : m.Faulted m' op f) : m'.PortsInv where
  counted q := by rw [hf.ports]; exact h.counted q
  within q := by rw [hf.ports]; exact h.within q
  stands r hr := by
    rw [hf.ports]
    rw [hf.fault, List.mem_append, List.mem_singleton] at hr
    rcases hr with hr | rfl
    · exact h.stands r hr
    · exact ⟨rfl, hc.1, hev⟩
  once := by
    rw [hf.fault, List.pairwise_append]
    exact ⟨h.once, List.pairwise_singleton _ _, by simpa using hc.2⟩

/-- A turn that serves a frame keeps the invariant of the ports, and the port it names can step. -/
theorem Block.PortsInv.turn {q : Port p.E} {fr : Frame} (h : m.PortsInv) (hp : m.pending q = some fr)
    (es : List (Event p.E)) (k : Nat) :
    Block.PortsInv { m with schedule := es, cur := q, picks := k } ∧
      Block.CurCanStep { m with schedule := es, cur := q, picks := k } := by
  obtain ⟨hnf, hfr⟩ := Block.pending_eq_some hp
  obtain ⟨hlt, -⟩ := List.getElem?_eq_some_iff.mp hfr
  refine ⟨⟨?_, ?_, ?_, h.once⟩, ?_, fun r hr hq => hnf ⟨r, hr, hq⟩⟩
  · simpa using h.counted
  · simpa using h.within
  · simpa using h.stands
  · simpa using hlt

theorem step_portsInv {fr : Frame} (ht : m.nextTurn = some (.serve fr m1)) (hm : m.PortsInv)
    (h : step { params := p, block := m } = .next { params := p, block := m' }) : m'.PortsInv := by
  obtain ⟨q, es, k, rfl, hp, hmoves⟩ := step_moves ht h
  obtain ⟨hturn, hcan⟩ := hm.turn hp es k
  rcases hmoves with ⟨r, ha, hf⟩ | ⟨op, f, hev, hf⟩
  · exact hturn.answered hcan ha hf
  · exact hturn.faulted hcan hev hf

/-! ## The block -/

/-- A served frame keeps the invariant of both banks: a rejection changes none, and an instruction keeps it. -/
theorem step_banks_inv {fr : Frame} (ht : m.nextTurn = some (.serve fr m1)) (hs : m.stg.Inv) (ha : m.act.Inv)
    (h : step { params := p, block := m } = .next { params := p, block := m' }) : m'.stg.Inv ∧ m'.act.Inv := by
  obtain ⟨⟨hstg, hact⟩, -⟩ := Block.nextTurn_serve_sameConfig ht
  rw [← hstg] at hs
  rw [← hact] at ha
  rcases step_serve_cases ht h with ⟨c, -, rfl⟩ | ⟨i, -, -, he⟩
  · simpa using ⟨hs, ha⟩
  · exact ⟨exec_stg_inv hs ha he, exec_act_inv hs ha he⟩

theorem Block.reset_inv (hl : legalParams p = true) : (Block.reset p).Inv where
  stg := Bank.reset_inv hl
  act := Bank.reset_inv hl
  status := CfgStatus.reset_inv
  ports := Block.portsInv_of_fresh rfl fun q => by simp

theorem Block.applyReset_inv (hl : legalParams p = true) (m : Block p) : m.applyReset.Inv where
  stg := Bank.reset_inv hl
  act := Bank.reset_inv hl
  status := CfgStatus.reset_inv
  ports := Block.portsInv_of_fresh rfl fun q => by simp

/-- A step that serves a frame keeps each part of the invariant. -/
theorem step_serve_inv {fr : Frame} (ht : m.nextTurn = some (.serve fr m1)) (hm : m.Inv)
    (h : step { params := p, block := m } = .next { params := p, block := m' }) : m'.Inv := by
  obtain ⟨hs, ha⟩ := step_banks_inv ht hm.stg hm.act h
  exact ⟨hs, ha, step_status_inv ht hm.status h, step_portsInv ht hm.ports h⟩

/-- Settles O54: applied reset establishes every part of the invariant, and a served frame keeps each. -/
theorem stepKeepsTheInvariant : Obligations.StepKeepsTheInvariant := by
  intro p m m' hm h
  obtain ⟨hl, ⟨fr, m1, -, ht, -⟩ | ⟨fr, m1, -, -, ht, -⟩ | ⟨m1, -, rfl⟩⟩ := step_cases h
  · exact step_serve_inv ht hm h
  · exact step_serve_inv ht hm h
  · exact m1.applyReset_inv hl

/-- Settles O55: the parameters of `State.reset` are a legal tuple. -/
theorem resetMeetsTheInvariant : Obligations.ResetMeetsTheInvariant :=
  ⟨fun _ hl => Block.reset_inv hl, Block.reset_inv (p := Config.params) (by decide)⟩

end Sys2Proof.Machine
end

section
/-! READ_STATUS, and what a command cannot change: one issued on an evaluation port, or an evaluation (R50, R57). -/

namespace Sys2Proof.Machine

variable {p : Params} {m m' n : Block p}

/-! ## READ_STATUS -/

/-- A slice of a word by its number. -/
theorem extractLsb'_eq_of_toNat {w : Word} {k len : Nat} {x : BitVec len} (h : w.toNat / 2 ^ k % 2 ^ len = x.toNat) :
    w.extractLsb' k len = x := by
  apply BitVec.eq_of_toNat_eq
  rw [BitVec.extractLsb'_toNat, Nat.shiftRight_eq_div_pow, h]

/-- The fields of `STATUS0`, the reserved bits among them (R40, R43). -/
theorem CfgStatus.word0_fields (st : CfgStatus) (gen : BitVec 32) :
    (st.word0 gen).extractLsb' 0 1 = BitVec.ofBool st.err ∧ (st.word0 gen).extractLsb' 1 7 = 0 ∧
    (st.word0 gen).extractLsb' 8 8 = st.code.byte ∧ (st.word0 gen).extractLsb' 16 8 = st.capOpc ∧
    (st.word0 gen).extractLsb' 24 8 = 0 ∧ (st.word0 gen).extractLsb' 32 32 = gen := by
  have he := (bit st.err).isLt
  have hc := st.code.byte.isLt
  have ho := st.capOpc.isLt
  have hg := gen.isLt
  have hw : (st.word0 gen).toNat =
      gen.toNat * 2 ^ 32 + st.capOpc.toNat * 2 ^ 16 + st.code.byte.toNat * 2 ^ 8 + (bit st.err).toNat := by
    simp only [CfgStatus.word0, toNat_append_eq, BitVec.ofNat_eq_ofNat, BitVec.toNat_zero]; omega
  refine ⟨?_, ?_, ?_, ?_, ?_, ?_⟩ <;> apply extractLsb'_eq_of_toNat <;> rw [hw]
  · change _ = (bit st.err).toNat; omega
  · change _ = 0; omega
  · omega
  · omega
  · change _ = 0; omega
  · omega

/-- The fields of `STATUS1`, the reserved bits among them (R40, R43). -/
theorem CfgStatus.word1_fields (st : CfgStatus) :
    st.word1.extractLsb' 0 16 = st.capA ∧ st.word1.extractLsb' 16 16 = st.capB ∧
    st.word1.extractLsb' 32 16 = st.capC ∧ st.word1.extractLsb' 48 8 = st.capF ∧ st.word1.extractLsb' 56 8 = 0 := by
  have ha := st.capA.isLt
  have hb := st.capB.isLt
  have hc := st.capC.isLt
  have hf := st.capF.isLt
  have hw : st.word1.toNat =
      st.capF.toNat * 2 ^ 48 + st.capC.toNat * 2 ^ 32 + st.capB.toNat * 2 ^ 16 + st.capA.toNat := by
    simp only [CfgStatus.word1, toNat_append_eq, BitVec.ofNat_eq_ofNat, BitVec.toNat_zero]; omega
  refine ⟨?_, ?_, ?_, ?_, ?_⟩ <;> apply extractLsb'_eq_of_toNat <;> rw [hw]
  · omega
  · omega
  · omega
  · omega
  · change _ = 0; omega

/-- Settles O20: the response carries the two status words, and each field is a slice of one of them. -/
theorem readStatusAnswersBothWords : Obligations.ReadStatusAnswersBothWords := by
  intro p m
  obtain ⟨h0, h1, h2, h3, h4, h5⟩ := m.status.word0_fields m.gen
  exact ⟨_, m.status.word0 m.gen, m.status.word1, exec_readStatus_ok, m.complete_onlyAnswered _,
    h0, h1, h2, h3, h4, h5, m.status.word1_fields⟩

/-! ## Commands that change no configuration -/

theorem cfgpOnly_of_isConfigWrite {op : Opcode} (h : isConfigWrite op.byte = true) : op.cfgpOnly = true := by
  revert h; cases op <;> decide

theorem cfgpOnly_of_isEvaluation {op : Opcode} (h : isEvaluation op = true) : op.cfgpOnly = false := by
  revert h; cases op <;> decide

/-- A command on an evaluation port, or one that such a port may issue, is no configuration write on CFGP, so its rejection
is non-sticky (R231). -/
theorem not_configWrite_on_cfgp {op : Opcode} (h : m.cur ≠ .cfgp ∨ op.cfgpOnly = false) :
    (isConfigWrite op.byte && m.cur == .cfgp) = false := by
  rw [Bool.and_eq_false_iff, beq_eq_false_iff_ne]
  rcases h with hcur | hop
  · exact .inr hcur
  · exact .inl (Bool.eq_false_of_not_eq_true fun hw => by simp [cfgpOnly_of_isConfigWrite hw] at hop)

/-- A non-sticky rejection changes nothing but the response and the index (R234). -/
theorem Block.reject_onlyAnswered {i : Instr} {c : Status} (h : m.cur ≠ .cfgp ∨ i.opcode.cfgpOnly = false) :
    m.OnlyAnswered (m.reject i.header c) (rejection i.opcode.byte c) := by
  rw [Block.reject, Instr.opc_header, not_configWrite_on_cfgp h, Block.configMismatch, Instr.opc_header]
  exact m.complete_onlyAnswered _

/-- A command on an evaluation port, or one that such a port may issue, only answers or, an evaluation, faults. -/
theorem exec_onlyAnswered_or_faulted {i : Instr} (hi : m.cur ≠ .cfgp ∨ i.opcode.cfgpOnly = false)
    (h : exec i { params := p, block := m } = .next { params := p, block := m' }) :
    (∃ r, m.OnlyAnswered m' r) ∨ ∃ f, m.Faulted m' i.opcode f := by
  have hno : ¬ (m.cur = .cfgp ∧ i.opcode.cfgpOnly = true) := by
    rintro ⟨hcur, hop⟩
    simp [hcur, hop] at hi
  rcases exec_outcome h with ⟨c, -, rfl⟩ | ⟨-, ⟨hw, hcur, -⟩ | ⟨rfl, hcur, -⟩ | ⟨rfl, hcur, -⟩ | ⟨rfl, hcur, -⟩ |
    ⟨-, rfl⟩ | ⟨-, rfl⟩ | ⟨-, e, rfl⟩⟩
  · exact .inl ⟨_, m.reject_onlyAnswered hi⟩
  · exact absurd ⟨hcur, cfgpOnly_of_isConfigWrite hw⟩ hno
  · exact absurd ⟨hcur, rfl⟩ hno
  · exact absurd ⟨hcur, rfl⟩ hno
  · exact absurd ⟨hcur, rfl⟩ hno
  · exact .inl ⟨_, m.complete_onlyAnswered _⟩
  · exact .inl ⟨_, m.complete_onlyAnswered _⟩
  · rcases m.answer_cases i.opcode e with ⟨r, -, ha⟩ | ⟨f, -, hf⟩
    · exact .inl ⟨r, ha⟩
    · exact .inr ⟨f, hf⟩

/-- Such a command writes no bank, no status and not `GEN`. -/
theorem exec_keeps_config {i : Instr} (hi : m.cur ≠ .cfgp ∨ i.opcode.cfgpOnly = false)
    (h : exec i { params := p, block := m } = .next { params := p, block := m' }) :
    m.SameBanks m' ∧ m'.status = m.status ∧ m'.gen = m.gen := by
  rcases exec_onlyAnswered_or_faulted hi h with ⟨r, ha⟩ | ⟨f, hf⟩
  · exact ⟨ha.same.banks, ha.same.status, ha.same.gen⟩
  · exact ⟨hf.banks, hf.status, hf.gen⟩

/-- The port check fails for a command of CFGP's on an evaluation port, and it is the first check. -/
theorem firstFailure_of_denied {i : Instr} (hcur : m.cur ≠ .cfgp) (hop : i.opcode.cfgpOnly = true) :
    firstFailure m i = some .portDenied := by
  simp [firstFailure, hcur, hop]

theorem rejection_portDenied (opc : Byte) :
    rejection opc .portDenied = { r0 := BitVec.setWidth 64 (opc ++ (0x02 : BitVec 8)), result := [] } := by
  have ho := opc.isLt
  have hx : (opc ++ (0x02 : BitVec 8)).toNat = opc.toNat * 2 ^ 8 + 2 := toNat_append_eq opc 0x02
  simp only [rejection, Response.mk.injEq, and_true]
  apply BitVec.eq_of_toNat_eq
  rw [respWord_toNat, BitVec.toNat_setWidth, hx, show Status.portDenied.byte.toNat = 2 from rfl]
  simp only [BitVec.ofNat_eq_ofNat, BitVec.toNat_zero]
  omega

/-- Settles O45: the command writes no configuration, and where it is CFGP's own its port check fails. -/
theorem evaluationPortChangesNoConfiguration : Obligations.EvaluationPortChangesNoConfiguration := by
  intro p m m' i hcur h
  obtain ⟨hbanks, hstatus, hgen⟩ := exec_keeps_config (.inl hcur) h
  refine ⟨hbanks, hstatus, hgen, fun hi => ?_⟩
  have hop : i.opcode.cfgpOnly = true := by
    rcases hi with hw | rfl | rfl | rfl
    · exact cfgpOnly_of_isConfigWrite hw
    · rfl
    · rfl
    · rfl
  rw [exec_of_firstFailure (firstFailure_of_denied hcur hop)] at h
  rw [← next_inj h, ← rejection_portDenied]
  exact m.reject_onlyAnswered (.inl hcur)

/-- Settles O46: an evaluation is a command that an evaluation port may issue. -/
theorem evaluationsWriteNothing : Obligations.EvaluationsWriteNothing := fun _ _ _ _ hev h =>
  exec_keeps_config (.inr (cfgpOnly_of_isEvaluation hev)) h

/-! ## What an evaluation depends on -/

/-- The checks of an evaluation are those of its operands: any port may issue it, and it does not look at `ERR`. -/
theorem firstFailure_of_evaluation {i : Instr} (hev : isEvaluation i.opcode = true) :
    firstFailure m i = ((operandChecks p i).find? fun x => !x.1).map fun x => x.2 := by
  have hc : i.opcode ≠ .commit := by intro hc; simp [hc, isEvaluation] at hev
  simp [firstFailure, errCheck, cfgpOnly_of_isEvaluation hev, hc]

/-- Past its checks an evaluation ends in two blocks with the same active bank and `GEN` with one answer or one fault. -/
theorem exec_evaluation_eq_answer {i : Instr} (hev : isEvaluation i.opcode = true)
    (hc : ∀ x ∈ operandChecks p i, x.1 = true) (hact : m.act = n.act) (hgen : m.gen = n.gen) :
    ∃ e, exec i { params := p, block := m } = .next { params := p, block := m.answer i.opcode e } ∧
      exec i { params := p, block := n } = .next { params := p, block := n.answer i.opcode e } := by
  cases i with
  | hashRaw u x =>
    simp only [operandChecks, List.forall_mem_cons, decide_eq_true_eq] at hc
    obtain ⟨hu, hx, -⟩ := hc
    exact ⟨_, exec_hashRaw_ok hu hx, by rw [hact, hgen]; exact exec_hashRaw_ok hu hx⟩
  | hash u x =>
    simp only [operandChecks, List.forall_mem_cons, decide_eq_true_eq] at hc
    obtain ⟨hu, hx, -⟩ := hc
    exact ⟨_, exec_hash_ok hu hx, by rw [hact, hgen]; exact exec_hash_ok hu hx⟩
  | hgroup g x =>
    simp only [operandChecks, List.forall_mem_cons, decide_eq_true_eq] at hc
    obtain ⟨hg, hx, -⟩ := hc
    exact ⟨_, exec_hgroup_ok hg hx, by rw [hact, hgen]; exact exec_hgroup_ok hg hx⟩
  | gwEval row tbl thread version live =>
    simp only [operandChecks, List.forall_mem_cons, Bool.and_eq_true, decide_eq_true_eq] at hc
    obtain ⟨⟨hr, ht⟩, hv, hth, hl, -⟩ := hc
    exact ⟨_, exec_gwEval_ok hr ht hv hth hl, by rw [hact, hgen]; exact exec_gwEval_ok hr ht hv hth hl⟩
  | _ => simp [isEvaluation, Instr.opcode] at hev

/-- Settles O47: both blocks fail the same check, or give the same answer. -/
theorem evaluationDependsOnActiveBankOnly : Obligations.EvaluationDependsOnActiveBankOnly := by
  intro p m n i hev hact hgen
  have hop := cfgpOnly_of_isEvaluation hev
  cases hf : firstFailure m i with
  | some c =>
    have hn : firstFailure n i = some c := by rw [← hf, firstFailure_of_evaluation hev, firstFailure_of_evaluation hev]
    exact ⟨_, _, exec_of_firstFailure hf, exec_of_firstFailure hn,
      .inl ⟨_, m.reject_onlyAnswered (.inr hop), n.reject_onlyAnswered (.inr hop)⟩⟩
  | none =>
    obtain ⟨-, hc, -⟩ := firstFailure_eq_none hf
    obtain ⟨e, hm, hn⟩ := exec_evaluation_eq_answer hev hc hact hgen
    refine ⟨_, _, hm, hn, ?_⟩
    cases e with
    | ok r => exact .inl ⟨r, m.complete_onlyAnswered r, n.complete_onlyAnswered r⟩
    | error f => exact .inr ⟨f, m.recordFault_faulted _ f, n.recordFault_faulted _ f⟩

end Sys2Proof.Machine
end

section
/-! A served command is executed (R72, R80), and a configuration write given twice leaves the staged bank it left the first
time (R76): which checks it passes does not depend on a bank, and what it writes it writes over. -/

namespace Sys2Proof.Machine

variable {p : Params} {m : Block p}

/-- Settles O9: the decoded instruction is the one the step executes. -/
theorem stepRunsDecodedCommand : Obligations.StepRunsDecodedCommand := fun _ _ _ _ _ hl ht hd => step_serve hl ht hd

/-! ## A bank written twice in the same place -/

@[simp] theorem Bank.setCoef_setCoef (b : Bank p) (u : Fin p.U) (r : Fin p.M) (c : Fin p.N) (v w : Bool) :
    (b.setCoef u r c v).setCoef u r c w = b.setCoef u r c w := by simp [Bank.setCoef]

@[simp] theorem Bank.setSeed_setSeed (b : Bank p) (u : Fin p.U) (v w : BitVec p.N) :
    (b.setSeed u v).setSeed u w = b.setSeed u w := by simp [Bank.setSeed]

@[simp] theorem Bank.setGroup_setGroup (b : Bank p) (g : Fin p.G) (u u' : Fin p.U) (L L' : Nat) :
    (b.setGroup g u L).setGroup g u' L' = b.setGroup g u' L' := by simp [Bank.setGroup]

@[simp] theorem Bank.setMask_setMask (b : Bank p) (g : Fin p.G) (j : Fin p.LMAX) (v w : BitVec p.N) :
    (b.setMask g j v).setMask g j w = b.setMask g j w := by simp [Bank.setMask]

@[simp] theorem Bank.setEntry_setEntry (b : Bank p) (t : TableAddr p) (i : Fin p.K) (e e' : GwEntry p) :
    (b.setEntry t i e).setEntry t i e' = b.setEntry t i e' := by simp [Bank.setEntry]

@[simp] theorem Bank.setSelect_setSelect (b : Bank p) (t : TableAddr p) (x y : GwSelect) :
    (b.setSelect t x).setSelect t y = b.setSelect t y := by simp [Bank.setSelect]

@[simp] theorem Bank.entryAt_setEntry_same (b : Bank p) (t : TableAddr p) (i : Fin p.K) (e : GwEntry p) :
    (b.setEntry t i e).entryAt t i = e := by simp [Bank.entryAt_setEntry]

/-! ## Configuration writes -/

/-- The checks of a configuration write on CFGP are those of its operands, whatever the banks and `ERR` are (R180). -/
theorem firstFailure_of_configWrite {i : Instr} (hw : isConfigWrite i.opcode.byte = true) (hcur : m.cur = .cfgp) :
    firstFailure m i = ((operandChecks p i).find? fun x => !x.1).map fun x => x.2 := by
  have hc : i.opcode ≠ .commit := by
    intro hc
    rw [hc] at hw
    exact absurd hw (by decide)
  simp [firstFailure, errCheck, hcur, hc]

/-- Past its checks a configuration write on CFGP stages a bank, and stages that bank again wherever it is the staged one: the
cells it sets are fixed by its operands, and it keeps all the others. -/
theorem exec_configWrite_stages_same {i : Instr} (hw : isConfigWrite i.opcode.byte = true) (hcur : m.cur = .cfgp)
    (hc : ∀ x ∈ operandChecks p i, x.1 = true) :
    ∃ b, exec i { params := p, block := m } = .next { params := p, block := m.stage i.opcode b } ∧
      ∀ n : Block p, n.cur = .cfgp → n.stg = b →
        exec i { params := p, block := n } = .next { params := p, block := n.stage i.opcode b } := by
  cases i with
  | setCoef u r c bit =>
    simp only [operandChecks, List.forall_mem_cons, decide_eq_true_eq] at hc
    obtain ⟨hu, hr, hcol, -⟩ := hc
    exact ⟨_, exec_setCoef_ok hcur hu hr hcol, fun n hn hb => by
      rw [exec_setCoef_ok hn hu hr hcol, hb, Bank.setCoef_setCoef, Instr.opcode]⟩
  | setSeed u seed =>
    simp only [operandChecks, List.forall_mem_cons, decide_eq_true_eq] at hc
    obtain ⟨hu, hs, -⟩ := hc
    exact ⟨_, exec_setSeed_ok hcur hu hs, fun n hn hb => by
      rw [exec_setSeed_ok hn hu hs, hb, Bank.setSeed_setSeed, Instr.opcode]⟩
  | setGroup g u L =>
    simp only [operandChecks, List.forall_mem_cons, Bool.and_eq_true, decide_eq_true_eq] at hc
    obtain ⟨hg, hu, hL, -⟩ := hc
    exact ⟨_, exec_setGroup_ok hcur hg hu hL, fun n hn hb => by
      rw [exec_setGroup_ok hn hg hu hL, hb, Bank.setGroup_setGroup, Instr.opcode]⟩
  | setPmask g j mask =>
    simp only [operandChecks, List.forall_mem_cons, decide_eq_true_eq] at hc
    obtain ⟨hg, hj, hm, -⟩ := hc
    exact ⟨_, exec_setPmask_ok hcur hg hj hm, fun n hn hb => by
      rw [exec_setPmask_ok hn hg hj hm, hb, Bank.setMask_setMask, Instr.opcode]⟩
  | setGwEntry row tbl k version valid value dontCare =>
    simp only [operandChecks, List.forall_mem_cons, Bool.and_eq_true, decide_eq_true_eq] at hc
    obtain ⟨⟨hr, ht⟩, hk, hv, hx, hd, -⟩ := hc
    exact ⟨_, exec_setGwEntry_ok hcur hr ht hk hv hx hd, fun n hn hb => by
      rw [exec_setGwEntry_ok hn hr ht hk hv hx hd, hb, Bank.entryAt_setEntry_same, Bank.setEntry_setEntry, Instr.opcode]⟩
  | setGwPayload row tbl k payload =>
    simp only [operandChecks, List.forall_mem_cons, Bool.and_eq_true, decide_eq_true_eq] at hc
    obtain ⟨⟨hr, ht⟩, hk, hp, -⟩ := hc
    exact ⟨_, exec_setGwPayload_ok hcur hr ht hk hp, fun n hn hb => by
      rw [exec_setGwPayload_ok hn hr ht hk hp, hb, Bank.entryAt_setEntry_same, Bank.setEntry_setEntry, Instr.opcode]⟩
  | setGwSelect row tbl in0 in1 tmode =>
    simp only [operandChecks, List.forall_mem_cons, Bool.and_eq_true, decide_eq_true_eq] at hc
    obtain ⟨⟨hr, ht⟩, -⟩ := hc
    exact ⟨_, exec_setGwSelect_ok hcur hr ht, fun n hn hb => by
      rw [exec_setGwSelect_ok hn hr ht, hb, Bank.setSelect_setSelect, Instr.opcode]⟩
  | _ => simp [isConfigWrite, Instr.opcode, Opcode.byte] at hw

/-- Settles O28: both writes fail the same check and are rejected, or the second stages again the bank of the first. -/
theorem repeatedWriteLeavesSameBank : Obligations.RepeatedWriteLeavesSameBank := by
  intro p m m' n n' i hw hm hn hexec hstg hexec'
  cases hf : firstFailure m i with
  | some c =>
    have hfn : firstFailure n i = some c := by
      rw [← hf, firstFailure_of_configWrite hw hn, firstFailure_of_configWrite hw hm]
    rw [exec_of_firstFailure hfn] at hexec'
    rw [← next_inj hexec', Block.reject_stg, hstg]
  | none =>
    obtain ⟨-, hc, -⟩ := firstFailure_eq_none hf
    obtain ⟨b, hfirst, hagain⟩ := exec_configWrite_stages_same hw hm hc
    have hm' : m'.stg = b := by rw [← next_inj (hfirst.symm.trans hexec), Block.stage_stg]
    have hn' := hagain n hn (hstg.trans hm')
    rw [hm', ← next_inj (hn'.symm.trans hexec'), Block.stage_stg]

end Sys2Proof.Machine
end

section
/-! Decoding and encoding are inverse to each other, and the decoder's verdict on a frame (R98, R100, R101, R102). -/

namespace Sys2Proof

variable {p : Params} {fr : Frame}

/-! ## From an instruction to its frame and back -/

/-- The header form of Laws/PerInstr.lean, for every instruction. -/
theorem Instr.headerForm (i : Instr) : Laws.HeaderForm.Statement i := by
  cases i with
  | nop => exact Laws.HeaderForm.nop
  | setCoef u r c bit => exact Laws.HeaderForm.setCoef u r c bit
  | setSeed u seed => exact Laws.HeaderForm.setSeed u seed
  | setGroup g u L => exact Laws.HeaderForm.setGroup g u L
  | setPmask g j mask => exact Laws.HeaderForm.setPmask g j mask
  | setGwEntry row tbl i version valid value dontCare =>
    exact Laws.HeaderForm.setGwEntry row tbl i version valid value dontCare
  | setGwPayload row tbl i payload => exact Laws.HeaderForm.setGwPayload row tbl i payload
  | setGwSelect row tbl in0 in1 tmode => exact Laws.HeaderForm.setGwSelect row tbl in0 in1 tmode
  | commit => exact Laws.HeaderForm.commit
  | abort => exact Laws.HeaderForm.abort
  | clearErr => exact Laws.HeaderForm.clearErr
  | readStatus => exact Laws.HeaderForm.readStatus
  | hashRaw u x => exact Laws.HeaderForm.hashRaw u x
  | hash u x => exact Laws.HeaderForm.hash u x
  | hgroup g x => exact Laws.HeaderForm.hgroup g x
  | gwEval row tbl thread version live => exact Laws.HeaderForm.gwEval row tbl thread version live

/-- Each operand is read back from where the encoding puts it. Only SET_GW_ENTRY, whose two vectors share the data words,
needs to know the length of one of them. -/
theorem Opcode.build_encode {i : Instr} (hwf : i.wf p = true) : i.opcode.build p (encode i) = i := by
  cases i with
  | setGwEntry row tbl k version valid value dontCare =>
    simp only [Instr.wf, Bool.and_eq_true, beq_iff_eq] at hwf
    obtain ⟨hvalue, -⟩ := hwf
    simp [Instr.opcode, Opcode.build, encode, Instr.header, Instr.data, ← hvalue]
  | gwEval row tbl thread version live =>
    simp only [Instr.opcode, Opcode.build, encode, Instr.header, Instr.data, Header.row_make, Header.tbl_make,
      Header.thread_make, Header.c_make]
  | _ => simp [Instr.opcode, Opcode.build, encode, Instr.header, Instr.data]

theorem decode_encode {i : Instr} (hwf : i.wf p = true) : decode p (encode i) = .ok i := by
  obtain ⟨-, hreserved, hlength⟩ := i.headerForm
  rw [decode_build (fr := encode i) i.ofByte_header hreserved (hlength p hwf), Opcode.build_encode hwf]

/-- Settles O1: the header is of its opcode's form, and every operand is read back. -/
theorem decodeOfEncode : Obligations.DecodeOfEncode := fun _ _ => decode_encode

/-! ## From a frame to its instruction and back -/

/-- The data words a frame gives its instruction are all it has, in their order. -/
theorem Opcode.data_build (op : Opcode) (hl : fr.data.length = op.dataWords p) : (op.build p fr).data = fr.data := by
  cases op with
  | nop | setCoef | setGroup | setGwSelect | commit | abort | clearErr | readStatus =>
    exact (List.length_eq_zero_iff.mp hl).symm
  | setGwEntry => exact List.take_append_drop _ _
  | setSeed | setPmask | setGwPayload | hashRaw | hash | hgroup | gwEval => rfl

/-- An instruction built from as many data words as its opcode takes is well-formed. -/
theorem Opcode.wf_build (op : Opcode) (hl : fr.data.length = op.dataWords p) : (op.build p fr).wf p = true := by
  cases op with
  | nop | setCoef | setGroup | setGwSelect | commit | abort | clearErr | readStatus => rfl
  | setGwEntry =>
    simp only [Opcode.dataWords] at hl
    simp only [Opcode.build, Instr.wf, List.length_take, List.length_drop, Bool.and_eq_true, beq_iff_eq]
    omega
  | setSeed | setPmask | setGwPayload | hashRaw | hash | hgroup | gwEval => exact beq_iff_eq.mpr hl

/-- Settles O2: a frame that decodes passed the checks that leave its instruction no other header and no other data. -/
theorem encodeOfDecode : Obligations.EncodeOfDecode := by
  intro p fr i h
  have hheader := header_of_decode h
  obtain ⟨op, -, -, hl, rfl⟩ := decode_ok h
  exact ⟨by rw [encode, hheader, op.data_build hl], op.wf_build hl⟩

/-! ## The decoder's verdict -/

/-- The reserved opcode bytes (R100). -/
theorem Opcode.ofByte_eq_none_iff_range : ∀ b : Byte, Opcode.ofByte b = none ↔
    (0x08 ≤ b.toNat ∧ b.toNat ≤ 0x0F) ∨ (0x14 ≤ b.toNat ∧ b.toNat ≤ 0x1F) ∨ 0x24 ≤ b.toNat := by decide

/-- The decoder gives the code ILLEGAL_OPCODE to the reserved opcodes alone. -/
theorem decode_eq_illegalOpcode_iff :
    decode p fr = .error .illegalOpcode ↔ Opcode.ofByte (Header.opc fr.header) = none := by
  refine ⟨fun h => ?_, decode_illegal⟩
  rcases decode_error h with ⟨-, hnone⟩ | ⟨hc | hc, -⟩
  · exact hnone
  · cases hc
  · cases hc

/-- Settles O3: the reserved bytes are those no opcode has, and under a defined opcode the checks come in the stated order. -/
theorem decodeVerdict : Obligations.DecodeVerdict := by
  refine fun p fr => ⟨decode_eq_illegalOpcode_iff.trans (Opcode.ofByte_eq_none_iff_range _), fun op hop => ?_⟩
  have ho := Opcode.ofByte_eq_some.mpr hop
  exact ⟨decode_reserved ho, decode_length ho, fun hr hl => ⟨_, decode_build ho hr hl, op.opcode_build p fr⟩⟩

/-- Settles O8: each frame is evaluated. -/
theorem specWordsDecode : Obligations.SpecWordsDecode :=
  ⟨by decide, by decide, by decide, by decide, by decide, by decide⟩

/-! ## Header fields as numbers -/

theorem Header.make_toNat (opc : BitVec 8) (a b c : BitVec 16) (f : BitVec 8) : (Header.make opc a b c f).toNat =
    opc.toNat + a.toNat * 2 ^ 8 + b.toNat * 2 ^ 24 + c.toNat * 2 ^ 40 + f.toNat * 2 ^ 56 := by
  simp only [Header.make, toNat_append_eq]
  omega

/-- Settles O4: every header is made of its fields. -/
theorem headerFieldLayout : Obligations.HeaderFieldLayout :=
  ⟨fun h => by rw [← Header.make_toNat, Header.make_fields], Header.make_toNat⟩

/-- Settles O5: field A is the concatenation of the two bytes. -/
theorem tableAddressInFieldA : Obligations.TableAddressInFieldA :=
  ⟨fun h => by rw [← Header.row_append_tbl, toNat_append_eq],
    fun _ _ _ => ⟨Machine.tableOperand_of_lt, Machine.tableOperand_of_not_lt⟩⟩

/-! ## Vectors in words -/

theorem getLsbD_ofNat_of_lt {w n k : Nat} (hk : k < w) : (BitVec.ofNat w n).getLsbD k = n.testBit k := by
  rw [BitVec.getLsbD_ofNat, decide_eq_true hk, Bool.true_and]

/-- A vector operand fits its width exactly where every padding bit is 0. -/
theorem wordsToNat_lt_two_pow_iff {X : Nat} {ws : List Word} (hlen : ws.length = nw X) : wordsToNat ws < 2 ^ X ↔
    ∀ k, X ≤ k → k < 64 * nw X → (ws.getD (k / 64) 0).getLsbD (k % 64) = false := by
  simp only [← wordsToNat_testBit]
  constructor
  · intro h k hk _
    exact Nat.testBit_lt_two_pow (h.trans_le (Nat.pow_le_pow_right two_pos hk))
  · intro h
    refine Nat.lt_pow_two_of_testBit _ fun k hk => ?_
    by_cases hin : k < 64 * nw X
    · exact h k hk hin
    · have hlt := wordsToNat_lt ws
      rw [hlen] at hlt
      exact Nat.testBit_lt_two_pow (hlt.trans_le (Nat.pow_le_pow_right two_pos (Nat.le_of_not_lt hin)))

/-- Settles O6: the operand is the number of its words, which fits exactly where the padding is 0. -/
theorem vectorOperandBits : Obligations.VectorOperandBits := by
  refine fun X ws hlen => ⟨fun ⟨k, hk, hin, hbit⟩ => Machine.vectorOperand_of_not_lt fun hlt => ?_, fun hpad => ?_⟩
  · rw [(wordsToNat_lt_two_pow_iff hlen).mp hlt k hk hin] at hbit
    exact Bool.false_ne_true hbit
  · refine ⟨_, Machine.vectorOperand_of_lt ((wordsToNat_lt_two_pow_iff hlen).mpr hpad), fun k hk => ?_⟩
    rw [getLsbD_ofNat_of_lt hk, wordsToNat_testBit]

/-- Settles O7: a vector's number fits its words, whose bits are then the number's. -/
theorem resultVectorWords : Obligations.ResultVectorWords := fun X v =>
  ⟨natToWords_length _ _, fun k =>
    natToWords_getLsbD _ _ k (v.isLt.trans_le (Nat.pow_le_pow_right two_pos (le_mul_nw X)))⟩

end Sys2Proof
end

section
/-! How the next command of a port ends: an undecoded frame is rejected (R232), a command whose checks pass answers `OK` or
faults (R110, R116), and either way one port moves by one command (R56, R58). -/

namespace Sys2Proof.Machine

variable {p : Params} {m m1 : Block p}

/-! ## Frames that do not decode -/

/-- The opcodes of CFGP alone are the configuration writes, COMMIT, ABORT and CLEAR_ERR (R235). -/
theorem cfgpOnly_iff_range (op : Opcode) : op.cfgpOnly = true ↔
    (0x01 ≤ op.byte.toNat ∧ op.byte.toNat ≤ 0x07) ∨ (0x10 ≤ op.byte.toNat ∧ op.byte.toNat ≤ 0x12) := by
  cases op <;> decide

/-- The code of an undecoded frame under a defined opcode: the port check stands before the decoder's (R232). -/
theorem Block.frameCode_of_byte {h : Word} {op : Opcode} (hop : op.byte = Header.opc h) (c : Status) :
    m.frameCode h c = if m.cur ≠ .cfgp ∧ op.cfgpOnly = true then .portDenied else c := by
  simp only [Block.frameCode, Opcode.ofByte_eq_some.mpr hop]
  by_cases hden : m.cur ≠ .cfgp ∧ op.cfgpOnly = true
  · have hallows : m.allows op = false := by simp [Block.allows, hden]
    simp [hallows, hden]
  · have hallows : m.allows op = true := by
      rw [Block.allows_iff]
      rcases not_and_or.mp hden with hcur | hop'
      · exact .inl (not_not.mp hcur)
      · exact .inr (Bool.eq_false_of_not_eq_true hop')
    rw [if_pos hallows, if_neg hden]

/-- The code of an undecoded frame, by the decoder's code and the ranges of R235. -/
theorem Block.frameCode_of_decode_error {fr : Frame} {c : Status} (hd : decode p fr = .error c) :
    m.frameCode fr.header c =
      if c = .illegalOpcode then .illegalOpcode
      else if m.cur ≠ .cfgp ∧
        ((0x01 ≤ (Header.opc fr.header).toNat ∧ (Header.opc fr.header).toNat ≤ 0x07) ∨
          (0x10 ≤ (Header.opc fr.header).toNat ∧ (Header.opc fr.header).toNat ≤ 0x12)) then .portDenied
      else c := by
  rcases decode_error hd with ⟨rfl, hnone⟩ | ⟨hc, op, hop⟩
  · simp [Block.frameCode, hnone]
  · have hne : c ≠ .illegalOpcode := by rcases hc with rfl | rfl <;> decide
    rw [if_neg hne, Block.frameCode_of_byte hop, ← hop]
    simp only [cfgpOnly_iff_range]

/-- Settles O11: the step is the rejection of the frame, with its code in the order of R232. -/
theorem undecodedFrameIsRejected : Obligations.UndecodedFrameIsRejected := by
  intro p m m1 fr c hl ht hd
  refine ⟨_, step_reject hl ht hd, ?_⟩
  rw [← Block.frameCode_of_decode_error hd]
  exact m1.reject_rejected _ _

/-! ## Commands whose checks pass -/

/-- The response has the status `OK` and echoes the opcode (R110). -/
def Response.IsOk (op : Opcode) (r : Response) : Prop :=
  r.r0.extractLsb' 0 8 = (0x00 : BitVec 8) ∧ r.r0.extractLsb' 8 8 = op.byte

/-- Every `OK` response of the model is of this form. -/
theorem Response.isOk_respWord (op : Opcode) (hi : BitVec 32) (mid : BitVec 16) (result : List Word) :
    Response.IsOk op { r0 := respWord hi mid op.byte .ok, result := result } :=
  ⟨respWord_status hi mid op.byte .ok, respWord_opcode hi mid op.byte .ok⟩

/-- The reads of an evaluation end, if not in a fault, in an `OK` response of the opcode. -/
def EndsOk (op : Opcode) (e : Except ConfigField Response) : Prop := ∀ r, e = .ok r → r.IsOk op

theorem EndsOk.pure {op : Opcode} {r : Response} (h : r.IsOk op) : EndsOk op (pure r) := by
  rintro _ ⟨⟩
  exact h

/-- What is read first does not matter to the form of the response. -/
theorem EndsOk.bind {op : Opcode} {α : Type} (x : Except ConfigField α) {f : α → Except ConfigField Response}
    (h : ∀ a, EndsOk op (f a)) : EndsOk op (x >>= f) := by
  cases x with
  | error field => rintro _ ⟨⟩
  | ok a => exact h a

/-- Past its checks an evaluation answers `OK` or faults. -/
theorem exec_evaluation_endsOk {i : Instr} (hev : isEvaluation i.opcode = true)
    (hc : ∀ x ∈ operandChecks p i, x.1 = true) :
    ∃ e, exec i { params := p, block := m } = .next { params := p, block := m.answer i.opcode e } ∧
      EndsOk i.opcode e := by
  cases i with
  | hashRaw u x =>
    simp only [operandChecks, List.forall_mem_cons, decide_eq_true_eq] at hc
    obtain ⟨hu, hx, -⟩ := hc
    exact ⟨_, exec_hashRaw_ok hu hx, .bind _ fun _ => .pure (Response.isOk_respWord _ _ _ _)⟩
  | hash u x =>
    simp only [operandChecks, List.forall_mem_cons, decide_eq_true_eq] at hc
    obtain ⟨hu, hx, -⟩ := hc
    exact ⟨_, exec_hash_ok hu hx, .bind _ fun _ => .pure (Response.isOk_respWord _ _ _ _)⟩
  | hgroup g x =>
    simp only [operandChecks, List.forall_mem_cons, decide_eq_true_eq] at hc
    obtain ⟨hg, hx, -⟩ := hc
    exact ⟨_, exec_hgroup_ok hg hx, .bind _ fun _ => .bind _ fun _ => .bind _ fun _ => .bind _ fun _ =>
      .pure (Response.isOk_respWord _ _ _ _)⟩
  | gwEval row tbl thread version live =>
    simp only [operandChecks, List.forall_mem_cons, Bool.and_eq_true, decide_eq_true_eq] at hc
    obtain ⟨⟨hr, ht⟩, hv, hth, hl, -⟩ := hc
    exact ⟨_, exec_gwEval_ok hr ht hv hth hl, .bind _ fun _ => .pure (Response.isOk_respWord _ _ _ _)⟩
  | _ => simp [isEvaluation, Instr.opcode] at hev

theorem Block.port_congr {n : Block p} (hcfgp : n.cfgp = m.cfgp) (hevp : n.evp = m.evp) (q : Port p.E) :
    n.port q = m.port q := by
  cases q with
  | cfgp => exact hcfgp
  | evp k => simp only [Block.port, hevp]

/-- Past its checks a command that is no evaluation answers `OK` and records no fault. -/
theorem exec_answersOk_of_passed {i : Instr} (hev : isEvaluation i.opcode = false) (hf : firstFailure m i = none) :
    ∃ (m' : Block p) (r : Response), exec i { params := p, block := m } = .next { params := p, block := m' } ∧
      m.Answered m' r ∧ r.IsOk i.opcode ∧ m'.fault = m.fault := by
  obtain ⟨m', hexec, hcases⟩ := exec_cases m i
  rcases (hcases.resolve_left (by simp [hf])).2 with ⟨-, -, b, rfl⟩ | ⟨rfl, -, -, rfl⟩ | ⟨rfl, -, rfl⟩ | ⟨rfl, -, rfl⟩ |
    ⟨rfl, rfl⟩ | ⟨rfl, rfl⟩ | ⟨hev', -⟩
  · exact ⟨_, _, hexec, (m.stage_staged _ _).answered, Response.isOk_respWord _ _ _ _, rfl⟩
  · exact ⟨_, _, hexec, m.complete_answered_of_ports _ _ rfl rfl rfl (Block.port_congr rfl rfl),
      Response.isOk_respWord .commit _ _ _, rfl⟩
  · exact ⟨_, _, hexec, m.complete_answered_of_ports _ _ rfl rfl rfl (Block.port_congr rfl rfl),
      Response.isOk_respWord .abort _ _ _, rfl⟩
  · exact ⟨_, _, hexec, m.complete_answered_of_ports _ _ rfl rfl rfl (Block.port_congr rfl rfl),
      Response.isOk_respWord .clearErr _ _ _, rfl⟩
  · exact ⟨_, _, hexec, m.complete_answered _, Response.isOk_respWord .nop _ _ _, rfl⟩
  · exact ⟨_, _, hexec, m.complete_answered _, Response.isOk_respWord .readStatus _ _ _, rfl⟩
  · rw [hev] at hev'
    cases hev'

/-- Settles O44: an evaluation answers `OK` or faults, and every other command answers `OK`. -/
theorem passedChecksAnswerOkOrFault : Obligations.PassedChecksAnswerOkOrFault := by
  intro p m i hf
  cases hev : isEvaluation i.opcode with
  | false =>
    obtain ⟨m', r, hexec, hanswered, ⟨hstatus, hopcode⟩, hfault⟩ := exec_answersOk_of_passed hev hf
    exact ⟨m', hexec, .inl ⟨r, hanswered, hstatus, hopcode, hfault⟩⟩
  | true =>
    obtain ⟨-, hc, -⟩ := firstFailure_eq_none hf
    obtain ⟨e, hexec, hok⟩ := exec_evaluation_endsOk (m := m) hev hc
    refine ⟨_, hexec, ?_⟩
    rcases m.answer_cases i.opcode e with ⟨r, he, ha⟩ | ⟨f, -, hfaulted⟩
    · obtain ⟨hstatus, hopcode⟩ := hok r he
      exact .inl ⟨r, ha.answered, hstatus, hopcode, ha.same.fault⟩
    · exact .inr ⟨rfl, f, hfaulted⟩

/-! ## One port moves by one command -/

/-- Settles O53: the served frame is answered or faults, from a block whose ports and faults are those before the turn. -/
theorem onePortMovesByOneCommand : Obligations.OnePortMovesByOneCommand := by
  intro p m m1 m' fr ht h
  obtain ⟨q, es, k, rfl, hpending, hmoves⟩ := step_moves ht h
  refine ⟨(Block.pending_eq_some hpending).2, ?_⟩
  rcases hmoves with ⟨r, hanswered, hfault⟩ | ⟨op, f, hev, hfaulted⟩
  · refine ⟨fun q' hq' => by simpa using hanswered.others q' hq', .inl ⟨r, ?_, hfault⟩⟩
    simpa using hanswered.port_cur
  · refine ⟨fun q' _ => by simpa using hfaulted.ports q', .inr ⟨by simpa using hfaulted.ports q, f, op, hev, ?_⟩⟩
    simpa using hfaulted.fault

end Sys2Proof.Machine
end

section
/-! The assembler: what each pseudo-command expands to, and that whatever a line expands to is well-formed (R105, R106). -/

namespace Sys2Proof.Assembler

variable {p : Params}

/-! ## Expansions -/

theorem expand_setRow {u r v : Nat} (hu : u < 2 ^ 16) (hr : r < 2 ^ 16) (hv : v < 2 ^ p.N) :
    expand p { mnemonic := .setRow, operands := [.int u, .int r, .int v] } =
      some (setRow p (BitVec.ofNat 16 u) (BitVec.ofNat 16 r) (BitVec.ofNat p.N v)) := by
  simp [expand, field_of_lt hu, field_of_lt hr, field_of_lt hv]

theorem expand_setMatrix {u : Nat} {vs : List Nat} (hu : u < 2 ^ 16) (hlen : vs.length = p.M)
    (hvs : ∀ v ∈ vs, v < 2 ^ p.N) : expand p { mnemonic := .setMatrix, operands := .int u :: vs.map .int } =
      some (setMatrix p (BitVec.ofNat 16 u) 0 (vs.map (BitVec.ofNat p.N))) := by
  simp [expand, rowOperands_map vs hvs, hlen, field_of_lt hu]

theorem expand_gwInvalidate {row tbl i : Nat} (hrow : row < 2 ^ 8) (htbl : tbl < 2 ^ 8) (hi : i < 2 ^ 16) :
    expand p { mnemonic := .gwInvalidate, operands := [.table row tbl, .int i] } =
      some [gwInvalidate p (BitVec.ofNat 8 row) (BitVec.ofNat 8 tbl) (BitVec.ofNat 16 i)] := by
  simp [expand, field_of_lt hrow, field_of_lt htbl, field_of_lt hi]

theorem vector_zero (X : Nat) : vector X 0 = some (List.replicate (nw X) 0) := by
  simp [vector, natToWords_zero]

/-- GW_INVALIDATE is the SET_GW_ENTRY with `valid`, version, value and don't-care mask 0 (R106). -/
theorem expand_setGwEntry_zero {row tbl i : Nat} (hrow : row < 2 ^ 8) (htbl : tbl < 2 ^ 8) (hi : i < 2 ^ 16) :
    expand p { mnemonic := .command .setGwEntry,
               operands := [.table row tbl, .int i, .int 0, .int 0, .int 0, .int 0] } =
      some [gwInvalidate p (BitVec.ofNat 8 row) (BitVec.ofNat 8 tbl) (BitVec.ofNat 16 i)] := by
  simp [expand, command, field_of_lt hrow, field_of_lt htbl, field_of_lt hi, field_of_lt (w := 16) (n := 0) (by decide),
    flag, vector_zero, gwInvalidate]

theorem expand_gwClearTable {row tbl : Nat} (hrow : row < 2 ^ 8) (htbl : tbl < 2 ^ 8) :
    expand p { mnemonic := .gwClearTable, operands := [.table row tbl] } =
      some (gwClearTable p (BitVec.ofNat 8 row) (BitVec.ofNat 8 tbl)) := by
  simp [expand, field_of_lt hrow, field_of_lt htbl]

theorem gwClearTable_get (row tbl : BitVec 8) {i : Nat} (hi : i < p.K) :
    (gwClearTable p row tbl)[i]? = some (gwInvalidate p row tbl (BitVec.ofNat 16 i)) := by simp [gwClearTable, hi]

/-! ## Well-formedness -/

/-- Whatever the partial computation gives, if anything, satisfies `P`. -/
def Gives {α : Type} (P : α → Prop) (x : Option α) : Prop := ∀ a, x = some a → P a

section
variable {α β : Type} {P : α → Prop}

theorem Gives.none : Gives P none := by rintro _ ⟨⟩

theorem Gives.pure {a : α} (h : P a) : Gives P (pure a) := by
  rintro _ ⟨⟩
  exact h

theorem Gives.bind {x : Option β} {f : β → Option α} (h : ∀ b, x = some b → Gives P (f b)) : Gives P (x >>= f) := by
  cases x with
  | none => exact .none
  | some b => exact h b rfl

end

theorem vector_length_beq {X n : Nat} {ws : List Word} (h : vector X n = some ws) : (ws.length == nw X) = true :=
  beq_iff_eq.mpr (vector_length h)

/-- A command line gives a well-formed instruction: its vector operands come from `vector`, which gives them their word
count. -/
theorem command_wf (op : Opcode) (os : List Operand) : Gives (fun i => i.wf p = true) (command p op os) := by
  cases op with
  | nop | commit | abort | clearErr | readStatus =>
    simp only [command]
    split
    · exact .pure rfl
    · exact .none
  | setCoef =>
    simp only [command]
    split
    · exact .bind fun _ _ => .bind fun _ _ => .bind fun _ _ => .bind fun _ _ => .pure rfl
    · exact .none
  | setGroup =>
    simp only [command]
    split
    · exact .bind fun _ _ => .bind fun _ _ => .bind fun _ _ => .pure rfl
    · exact .none
  | setGwSelect =>
    simp only [command]
    split
    · exact .bind fun _ _ => .bind fun _ _ => .bind fun _ _ => .bind fun _ _ => .bind fun _ _ => .pure rfl
    · exact .none
  | setSeed | hashRaw | hash | hgroup =>
    simp only [command]
    split
    · exact .bind fun _ _ => .bind fun _ hx => .pure (vector_length_beq hx)
    · exact .none
  | setPmask =>
    simp only [command]
    split
    · exact .bind fun _ _ => .bind fun _ _ => .bind fun _ hmask => .pure (vector_length_beq hmask)
    · exact .none
  | setGwPayload =>
    simp only [command]
    split
    · exact .bind fun _ _ => .bind fun _ _ => .bind fun _ _ => .bind fun _ hpl =>
        .pure (vector_length_beq hpl)
    · exact .none
  | setGwEntry =>
    simp only [command]
    split
    · exact .bind fun _ _ => .bind fun _ _ => .bind fun _ _ => .bind fun _ _ => .bind fun _ _ =>
        .bind fun _ hvalue => .bind fun _ hdc =>
        .pure (Bool.and_eq_true_iff.mpr ⟨vector_length_beq hvalue, vector_length_beq hdc⟩)
    · exact .none
  | gwEval =>
    simp only [command]
    split
    · exact .bind fun _ _ => .bind fun _ _ => .bind fun _ _ => .bind fun _ _ => .bind fun _ hlive =>
        .pure (vector_length_beq hlive)
    · exact .none

theorem setRow_wf (u r : BitVec 16) (v : BitVec p.N) : ∀ i ∈ setRow p u r v, i.wf p = true := by
  simp [setRow, Instr.wf]

theorem setMatrix_wf (u : BitVec 16) (r : Nat) (vs : List (BitVec p.N)) : ∀ i ∈ setMatrix p u r vs, i.wf p = true := by
  induction vs generalizing r with
  | nil => simp [setMatrix]
  | cons v vs ih => exact List.forall_mem_append.mpr ⟨setRow_wf _ _ _, ih _⟩

theorem gwInvalidate_wf (row tbl : BitVec 8) (i : BitVec 16) : (gwInvalidate p row tbl i).wf p = true := by
  simp [gwInvalidate, Instr.wf]

theorem gwClearTable_wf (row tbl : BitVec 8) : ∀ i ∈ gwClearTable p row tbl, i.wf p = true :=
  List.forall_mem_map.mpr fun _ _ => gwInvalidate_wf _ _ _

/-- Whatever a line expands to is a list of well-formed instructions. -/
theorem expand_wf (l : Line) : Gives (fun is => ∀ i ∈ is, i.wf p = true) (expand p l) := by
  obtain ⟨mnemonic, os⟩ := l
  cases mnemonic with
  | command op =>
    exact .bind fun i hi => .pure (List.forall_mem_singleton.mpr (command_wf op os i hi))
  | setRow =>
    simp only [expand]
    split
    · exact .bind fun _ _ => .bind fun _ _ => .bind fun _ _ => .pure (setRow_wf _ _ _)
    · exact .none
  | setMatrix =>
    simp only [expand]
    split
    · refine .bind fun vs _ => ?_
      split
      · exact .bind fun _ _ => .pure (setMatrix_wf _ _ _)
      · exact .none
    · exact .none
  | gwInvalidate =>
    simp only [expand]
    split
    · exact .bind fun _ _ => .bind fun _ _ => .bind fun _ _ =>
        .pure (List.forall_mem_singleton.mpr (gwInvalidate_wf _ _ _))
    · exact .none
  | gwClearTable =>
    simp only [expand]
    split
    · exact .bind fun _ _ => .bind fun _ _ => .pure (gwClearTable_wf _ _)
    · exact .none

/-- Settles O57: each expansion is read off command by command, and no line gives an ill-formed one. -/
theorem assemblerExpansions : Obligations.AssemblerExpansions := by
  refine ⟨fun p u r v hu hr hv => ?_, fun p u vs hu hlen hvs => ?_, fun p row tbl i hrow htbl hi => ?_,
    fun p row tbl hrow htbl hK => ?_, fun p l => expand_wf l⟩
  · refine ⟨_, expand_setRow hu hr hv, setRow_length _ _ _, fun c hc => ?_⟩
    rw [setRow_get _ _ _ hc, getLsbD_ofNat_of_lt hc]
  · obtain ⟨hlength, hget⟩ := setMatrix_get (p := p) (BitVec.ofNat 16 u) 0 (vs.map (BitVec.ofNat p.N))
    rw [List.length_map, hlen] at hlength hget
    refine ⟨_, expand_setMatrix hu hlen hvs, hlength, fun r c hr hc => ?_⟩
    have hv : (vs.map (BitVec.ofNat p.N)).getD r 0 = BitVec.ofNat p.N (vs.getD r 0) := List.getD_map ..
    rw [hget r c hr hc, hv, getLsbD_ofNat_of_lt hc, Nat.zero_add]
  · exact ⟨_, expand_gwInvalidate hrow htbl hi, expand_setGwEntry_zero hrow htbl hi⟩
  · refine ⟨_, expand_gwClearTable hrow htbl, by simp [gwClearTable], fun i hi => ?_⟩
    exact ⟨_, gwClearTable_get _ _ hi, expand_gwInvalidate hrow htbl (hi.trans_le hK)⟩

end Sys2Proof.Assembler
end

section
/-! The hash engine: what HASH_RAW, HASH and HGROUP answer or fault on (R130 to R135, R240), and the laws of the
functions they share (R134, R136, R137, R138). -/

namespace Sys2Proof.Machine

variable {p : Params} {m : Block p} {b : Bank p}

/-! ## The two ends of an evaluation -/

theorem Block.answer_onlyAnswered {op : Opcode} {e : Except ConfigField Response} {r : Response} (h : e = .ok r) :
    m.OnlyAnswered (m.answer op e) r := by
  subst h
  exact m.complete_onlyAnswered r

theorem Block.answer_faulted {op : Opcode} {e : Except ConfigField Response} {f : ConfigField} (h : e = .error f) :
    m.Faulted (m.answer op e) op f := by
  subst h
  exact m.recordFault_faulted op f

/-! ## HASH_RAW and HASH -/

theorem hashResponse_hashRaw {n : Nat} (gen : BitVec 32) (h : BitVec n) :
    hashResponse .hashRaw gen h = { r0 := gen ++ (0x00002000 : BitVec 32), result := vecWords h } :=
  hashResponse_eq .hashRaw gen h

theorem hashResponse_hash {n : Nat} (gen : BitVec 32) (h : BitVec n) :
    hashResponse .hash gen h = { r0 := gen ++ (0x00002100 : BitVec 32), result := vecWords h } :=
  hashResponse_eq .hash gen h

/-- Bit `c` of the product of a vector operand, by the bits of its number. -/
theorem product_ofNat_getLsbD (u : Fin p.U) (x : Nat) (c : Fin p.N) : (product b u (BitVec.ofNat p.M x)).getLsbD c =
    xorOver p.M fun r => x.testBit r && decide (b.coefAt u r c = .val true) := by
  rw [product_getLsbD]
  exact xorOver_congr fun r => by rw [getLsbD_ofNat_of_lt r.isLt]

/-- Settles O29: with every coefficient written, `Compute` is the product. -/
theorem hashRawAnswersProduct : Obligations.HashRawAnswersProduct := by
  intro p m u x hu hx hw
  refine ⟨_, product m.act ⟨u.toNat, hu⟩ (BitVec.ofNat p.M (wordsToNat x)), exec_hashRaw_ok hu hx,
    Block.answer_onlyAnswered ?_, product_ofNat_getLsbD _ _⟩
  rw [compute_of_written hw, ← hashResponse_hashRaw]
  rfl

/-- Settles O30: with every coefficient and the seed written, `Seeded` is the product XOR the seed. -/
theorem hashAnswersSeededProduct : Obligations.HashAnswersSeededProduct := by
  intro p m u x hu seed hx hw hs
  refine ⟨_, product m.act ⟨u.toNat, hu⟩ (BitVec.ofNat p.M (wordsToNat x)) ^^^ seed, exec_hash_ok hu hx,
    Block.answer_onlyAnswered ?_, fun c => ?_⟩
  · rw [seeded_of_written hw hs, ← hashResponse_hash]
    rfl
  · rw [BitVec.getLsbD_xor, product_ofNat_getLsbD]

/-- HASH_RAW faults where `Compute` does. -/
theorem exec_hashRaw_faulted {u : BitVec 16} {x : List Word} {f : ConfigField} (hu : u.toNat < p.U)
    (hx : wordsToNat x < 2 ^ p.M) (hf : compute m.act ⟨u.toNat, hu⟩ (BitVec.ofNat p.M (wordsToNat x)) = .error f) :
    ∃ m' : Block p, exec (.hashRaw u x) { params := p, block := m } = .next { params := p, block := m' } ∧
      m.Faulted m' .hashRaw f :=
  ⟨_, exec_hashRaw_ok hu hx, Block.answer_faulted (by rw [hf]; rfl)⟩

/-- HASH faults where `Seeded` does. -/
theorem exec_hash_faulted {u : BitVec 16} {x : List Word} {f : ConfigField} (hu : u.toNat < p.U)
    (hx : wordsToNat x < 2 ^ p.M) (hf : seeded m.act ⟨u.toNat, hu⟩ (BitVec.ofNat p.M (wordsToNat x)) = .error f) :
    ∃ m' : Block p, exec (.hash u x) { params := p, block := m } = .next { params := p, block := m' } ∧
      m.Faulted m' .hash f :=
  ⟨_, exec_hash_ok hu hx, Block.answer_faulted (by rw [hf]; rfl)⟩

/-- Settles O32: HASH_RAW faults as `Compute` does, and HASH as `Seeded` does, which reads the seed last. -/
theorem hashFaultsOnFirstUnwrittenCell : Obligations.HashFaultsOnFirstUnwrittenCell := by
  intro p m u x hu hx
  refine ⟨fun r c hun hlt => ?_, fun hw hs => exec_hash_faulted hu hx (seeded_of_unwritten_seed hw hs _)⟩
  have hc := compute_of_unwritten hun hlt (BitVec.ofNat p.M (wordsToNat x))
  exact ⟨exec_hashRaw_faulted hu hx hc, exec_hash_faulted hu hx (seeded_of_error hc)⟩

/-! ## HGROUP -/

/-- The value of group `g` of width `L` over `h`, where the masks below the width are written (R135). -/
def groupBits (b : Bank p) (g : Fin p.G) (L : Nat) (h : BitVec p.N) : BitVec p.LMAX :=
  bitsOf p.LMAX fun j => decide (j.val < L) && maskBit h (b.maskAt g j)

theorem groupValue_eq_groupBits {g : Fin p.G} {L : Nat}
    (hw : ∀ j : Fin p.LMAX, j.val < L → isWritten (b.maskAt g j) = true) (h : BitVec p.N) :
    groupValue b g L h = .ok (groupBits b g L h) :=
  groupValue_of_written hw h

theorem groupBits_getLsbD_of_lt {g : Fin p.G} {L : Nat} {j : Fin p.LMAX} {mask : BitVec p.N} (hj : j.val < L)
    (hm : b.maskAt g j = .val mask) (h : BitVec p.N) :
    (groupBits b g L h).getLsbD j = xorOver p.N fun c => h.getLsbD c && mask.getLsbD c := by
  rw [← reduce_eq_xorOver]
  simp [groupBits, hj, hm, maskBit]

theorem groupBits_getLsbD_of_le {g : Fin p.G} {L : Nat} {j : Fin p.LMAX} (hj : L ≤ j.val) (h : BitVec p.N) :
    (groupBits b g L h).getLsbD j = false := by
  simp [groupBits, Nat.not_lt.mpr hj]

/-- HGROUP past the reads of the group's binding. -/
theorem exec_hgroup_of_bound {g : BitVec 16} {x : List Word} {u : Fin p.U} {L : Nat} (hg : g.toNat < p.G)
    (hx : wordsToNat x < 2 ^ p.M) (hunit : m.act.gunit.get ⟨g.toNat, hg⟩ = .val u)
    (hwidth : m.act.gwidth.get ⟨g.toNat, hg⟩ = .val L) : exec (.hgroup g x) { params := p, block := m } =
    .next { params := p,
            block := m.answer .hgroup do
              let h ← seeded m.act u (BitVec.ofNat p.M (wordsToNat x))
              let out ← groupValue m.act ⟨g.toNat, hg⟩ L h
              return groupResponse m.gen L out } := by
  rw [exec_hgroup_ok hg hx, hunit, hwidth]
  rfl

/-- HGROUP past the reads of the group's binding and of its unit. -/
theorem exec_hgroup_of_seeded {g : BitVec 16} {x : List Word} {u : Fin p.U} {L : Nat} {h : BitVec p.N}
    (hg : g.toNat < p.G) (hx : wordsToNat x < 2 ^ p.M) (hunit : m.act.gunit.get ⟨g.toNat, hg⟩ = .val u)
    (hwidth : m.act.gwidth.get ⟨g.toNat, hg⟩ = .val L)
    (hh : seeded m.act u (BitVec.ofNat p.M (wordsToNat x)) = .ok h) : exec (.hgroup g x) { params := p, block := m } =
    .next { params := p,
            block := m.answer .hgroup do
              let out ← groupValue m.act ⟨g.toNat, hg⟩ L h
              return groupResponse m.gen L out } := by
  rw [exec_hgroup_of_bound hg hx hunit hwidth, hh]
  rfl

/-- Settles O31: the seeded hash of the group's unit, then the group's value over it. -/
theorem hgroupAnswersParities : Obligations.HgroupAnswersParities := by
  intro p m g x hg u L seed hx hunit hwidth hw hs hmasks
  refine ⟨_, product m.act u (BitVec.ofNat p.M (wordsToNat x)) ^^^ seed, groupBits m.act ⟨g.toNat, hg⟩ L _,
    exec_hgroup_of_seeded hg hx hunit hwidth (seeded_of_written hw hs _), Block.answer_onlyAnswered ?_, fun c => ?_,
    fun j => ⟨fun _ hj hm => groupBits_getLsbD_of_lt hj hm _, fun hj => groupBits_getLsbD_of_le hj _⟩⟩
  · rw [groupValue_eq_groupBits hmasks, ← groupResponse_eq]
    rfl
  · rw [BitVec.getLsbD_xor, product_ofNat_getLsbD]

/-- HGROUP faults where the hash of the group's unit does, once the group's binding is read. -/
theorem exec_hgroup_faulted_of_seeded {g : BitVec 16} {x : List Word} {u : Fin p.U} {L : Nat} {f : ConfigField}
    (hg : g.toNat < p.G) (hx : wordsToNat x < 2 ^ p.M) (hunit : m.act.gunit.get ⟨g.toNat, hg⟩ = .val u)
    (hwidth : m.act.gwidth.get ⟨g.toNat, hg⟩ = .val L)
    (hf : seeded m.act u (BitVec.ofNat p.M (wordsToNat x)) = .error f) :
    ∃ m' : Block p, exec (.hgroup g x) { params := p, block := m } = .next { params := p, block := m' } ∧
      m.Faulted m' .hgroup f :=
  ⟨_, exec_hgroup_of_bound hg hx hunit hwidth, Block.answer_faulted (by rw [hf]; rfl)⟩

/-- Settles O33: each read of HGROUP comes after the reads before it have given their values. -/
theorem hgroupFaultsInReadOrder : Obligations.HgroupFaultsInReadOrder := by
  intro p m g x hg hx
  refine ⟨fun hunit => ?gunit, fun u hunit => ⟨fun hwidth => ?gwidth, fun L hwidth =>
    ⟨fun r c hun hlt => ?coef, fun hw => ⟨fun hs => ?seed, fun hs j hj hun hlt => ?mask⟩⟩⟩⟩
  case gunit => exact ⟨_, exec_hgroup_ok hg hx, Block.answer_faulted (by rw [hunit]; rfl)⟩
  case gwidth => exact ⟨_, exec_hgroup_ok hg hx, Block.answer_faulted (by rw [hunit, hwidth]; rfl)⟩
  case coef =>
    exact exec_hgroup_faulted_of_seeded hg hx hunit hwidth (seeded_of_error (compute_of_unwritten hun hlt _))
  case seed => exact exec_hgroup_faulted_of_seeded hg hx hunit hwidth (seeded_of_unwritten_seed hw hs _)
  case mask =>
    obtain ⟨seed, hseed⟩ := (isWritten_iff _).mp hs
    refine ⟨_, exec_hgroup_of_seeded hg hx hunit hwidth (seeded_of_written hw hseed _), Block.answer_faulted ?_⟩
    rw [groupValue_of_unwritten hj hun hlt]
    rfl

/-! ## The laws of `Compute`, `Seeded` and `Reduce` -/

/-- Settles O34: with every coefficient written `Compute` is the product, which is linear. -/
theorem computeIsLinear : Obligations.ComputeIsLinear := by
  intro p b u hw
  refine ⟨by rw [compute_of_written hw, product_zero], fun x y => ?_⟩
  exact ⟨_, _, compute_of_written hw x, compute_of_written hw y, by rw [compute_of_written hw, product_xor]⟩

/-- Settles O35: the seed, XORed into both hashes, cancels between them, and is XORed in once more. -/
theorem seededIsAffine : Obligations.SeededIsAffine := by
  intro p b u seed hw hs x y
  refine ⟨_, _, _, compute_of_written hw x, seeded_of_written hw hs x, seeded_of_written hw hs x,
    seeded_of_written hw hs y, ?_⟩
  have hcancel : (product b u x ^^^ seed) ^^^ (product b u y ^^^ seed) = product b u x ^^^ product b u y := by
    rw [BitVec.xor_assoc, BitVec.xor_comm seed, BitVec.xor_assoc, BitVec.xor_self, BitVec.xor_zero]
  rw [seeded_of_written hw hs, product_xor, hcancel]

theorem reduce_comm {n : Nat} (h m : BitVec n) : reduce h m = reduce m h := by
  rw [reduce, reduce, BitVec.and_comm]

theorem reduce_xor_left {n : Nat} (h h' m : BitVec n) : reduce (h ^^^ h') m = (reduce h m ^^ reduce h' m) := by
  simp only [reduce_eq_xorOver, BitVec.getLsbD_xor, Bool.and_xor_distrib_right, xorOver_xor]

theorem reduce_xor_right {n : Nat} (h m m' : BitVec n) : reduce h (m ^^^ m') = (reduce h m ^^ reduce h m') := by
  rw [reduce_comm, reduce_xor_left, reduce_comm m, reduce_comm m']

@[simp] theorem reduce_zero {n : Nat} (h : BitVec n) : reduce h 0 = false := by
  rw [reduce, BitVec.ofNat_eq_ofNat, BitVec.and_zero, parity_zero]

/-- Bits of a disjoint mask are not among those reduced. -/
theorem reduce_and_of_disjoint {n : Nat} {m m' : BitVec n} (hd : m &&& m' = 0) (h : BitVec n) :
    reduce (h &&& m') m = false := by
  have hassoc : reduce (h &&& m') m = reduce h (m &&& m') := by
    rw [reduce, reduce, BitVec.and_assoc, BitVec.and_comm m']
  rw [hassoc, hd, reduce_zero]

/-- Settles O36: additivity in the hash gives the other laws. -/
theorem reduceLaws : Obligations.ReduceLaws := fun _ h h' m m' =>
  ⟨reduce_eq_xorOver h m, reduce_xor_left h h' m, reduce_xor_right h m m', reduce_zero h,
    fun hd => by rw [reduce_xor_left, reduce_and_of_disjoint hd, Bool.xor_false]⟩

end Sys2Proof.Machine
end

section
/-! The gateway: what GW_EVAL answers or faults on (R161, R166, R168), and the laws of the scan it makes (R164, R167, R169,
R171). -/

namespace Sys2Proof.Machine

variable {p : Params} {m m' : Block p} {b : Bank p} {t : TableAddr p} {live live' : BitVec p.W} {ctx : Context p.V}

/-! ## Matching -/

/-- The valid entries of table `t` have their match fields written, as in a bank that meets the invariant (R168). -/
def Bank.TableWritten (b : Bank p) (t : TableAddr p) : Prop :=
  ∀ i, (b.entryAt t i).valid = true → isWritten (b.entryAt t i).ver = true ∧
    isWritten (b.entryAt t i).value = true ∧ isWritten (b.entryAt t i).dc = true

theorem Bank.Inv.tableWritten (h : b.Inv) (t : TableAddr p) : b.TableWritten t := h.entries t

theorem not_matches_of_entryPasses_false {i : Fin p.K} (h : entryPasses b t live ctx i = .ok false) :
    ¬ b.Matches t live ctx i := by
  rw [← entryPasses_true, h]
  simp

theorem entryPasses_of_invalid {i : Fin p.K} (h : (b.entryAt t i).valid = false) :
    entryPasses b t live ctx i = .ok false :=
  entryPasses_false (fun hv => by simp [h] at hv) fun ⟨hv, _⟩ => by simp [h] at hv

/-- Whether an entry matches depends only on the bits of the live word that its don't-care mask leaves in (R165). -/
theorem Bank.Matches.of_agree {i : Fin p.K} {dc : BitVec p.W} (h : b.Matches t live ctx i)
    (hdc : (b.entryAt t i).dc = .val dc)
    (hbits : ∀ l, l < p.W → dc.getLsbD l = false → live'.getLsbD l = live.getLsbD l) : b.Matches t live' ctx i := by
  obtain ⟨hvalid, ver, value, dc', hver, hvalue, hdc', hversion, heq⟩ := h
  obtain rfl : dc' = dc := by simpa using hdc'.symm.trans hdc
  exact ⟨hvalid, ver, value, dc', hver, hvalue, hdc', hversion, fun l hl hd => (hbits l hl hd).trans (heq l hl hd)⟩

/-- The bits an entry that matches compares agree with its value. -/
theorem Bank.Matches.getLsbD_eq {i : Fin p.K} {d v : BitVec p.W} (h : b.Matches t live ctx i)
    (hd : (b.entryAt t i).dc = .val d) (hv : (b.entryAt t i).value = .val v) :
    ∀ l, l < p.W → d.getLsbD l = false → live.getLsbD l = v.getLsbD l := by
  obtain ⟨-, -, value, dc, -, hvalue, hdc, -, heq⟩ := h
  obtain rfl : value = v := by simpa using hvalue.symm.trans hv
  obtain rfl : dc = d := by simpa using hdc.symm.trans hd
  exact heq

/-! ## What the scan answers, by the entries that match -/

/-- The scan where entry `i` is the lowest that matches. -/
theorem evaluate_of_lowest {i : Fin p.K} (hw : b.TableWritten t) (hm : b.Matches t live ctx i)
    (hlt : ∀ j, j < i → ¬ b.Matches t live ctx j) : evaluate b t live ctx =
    match (b.entryAt t i).payload with
      | .unwritten => .error (.gwPayload t.row t.tbl i)
      | .val pl => .ok { hit := true, index := some i.val, payload := some pl } :=
  evaluate_of_first hm fun j hj => entryPasses_false (hw j) (hlt j hj)

/-- The hit (R162, step 1c). -/
theorem evaluate_hit {i : Fin p.K} {pl : BitVec p.P} (hw : b.TableWritten t) (hm : b.Matches t live ctx i)
    (hlt : ∀ j, j < i → ¬ b.Matches t live ctx j) (hpl : (b.entryAt t i).payload = .val pl) :
    evaluate b t live ctx = .ok { hit := true, index := some i.val, payload := some pl } := by
  rw [evaluate_of_lowest hw hm hlt, hpl]

/-- The miss (R162, step 2). -/
theorem evaluate_miss (hw : b.TableWritten t) (hno : ∀ i, ¬ b.Matches t live ctx i) :
    evaluate b t live ctx = .ok (GatewayResult.miss p.P) :=
  evaluate_of_none fun i => entryPasses_false (hw i) (hno i)

/-- Whatever the bank, a hit comes from the lowest entry that matches and carries its payload (R164). -/
theorem lowest_of_evaluate_hit {r : GatewayResult p.P} (h : evaluate b t live ctx = .ok r) (hr : r.hit = true) :
    ∃ (i : Fin p.K) (pl : BitVec p.P), r = { hit := true, index := some i.val, payload := some pl } ∧
      (b.entryAt t i).payload = .val pl ∧ b.Matches t live ctx i ∧ ∀ j, j < i → ¬ b.Matches t live ctx j := by
  rcases evaluate_cases b t live ctx with ⟨-, hmiss⟩ | ⟨i, hlt, ⟨f, -, herr⟩ | ⟨-, -, herr⟩ | ⟨hm, pl, hpl, hhit⟩⟩
  · obtain rfl : GatewayResult.miss p.P = r := by simpa [hmiss] using h
    simp [GatewayResult.miss] at hr
  · simp [herr] at h
  · simp [herr] at h
  · exact ⟨i, pl, by simpa [hhit, eq_comm] using h, hpl, hm, fun j hj => not_matches_of_entryPasses_false (hlt j hj)⟩

/-- The one fault the scan can raise (R168). -/
theorem evaluate_eq_error_iff {f : ConfigField} (hw : b.TableWritten t) : evaluate b t live ctx = .error f ↔
    ∃ i, b.Matches t live ctx i ∧ (∀ j, j < i → ¬ b.Matches t live ctx j) ∧
      (b.entryAt t i).payload = .unwritten ∧ f = .gwPayload t.row t.tbl i := by
  constructor
  · intro h
    rcases evaluate_cases b t live ctx with ⟨-, hmiss⟩ | ⟨i, hlt, ⟨f', hf, -⟩ | ⟨hm, hpl, herr⟩ | ⟨-, pl, -, hhit⟩⟩
    · simp [hmiss] at h
    · obtain ⟨x, hx⟩ := entryPasses_ok (live := live) (ctx := ctx) (hw i)
      simp [hx] at hf
    · exact ⟨i, hm, fun j hj => not_matches_of_entryPasses_false (hlt j hj), hpl, by simpa [herr, eq_comm] using h⟩
    · simp [hhit] at h
  · rintro ⟨i, hm, hlt, hpl, rfl⟩
    rw [evaluate_of_lowest hw hm hlt, hpl]

/-! ## GW_EVAL -/

/-- GW_EVAL answers where the scan does. -/
theorem exec_gwEval_onlyAnswered {row tbl : BitVec 8} {thread : BitVec 4} {version : BitVec 16} {live : List Word}
    {r : GatewayResult p.P} (hr : row.toNat < p.ROWS) (ht : tbl.toNat < p.TPR) (hv : version.toNat < 2 ^ p.V)
    (hth : thread.toNat < p.THREADS) (hl : wordsToNat live < 2 ^ p.W)
    (he : evaluate m.act { row := ⟨row.toNat, hr⟩, tbl := ⟨tbl.toNat, ht⟩ } (BitVec.ofNat p.W (wordsToNat live))
      { thread := thread, version := BitVec.ofNat p.V version.toNat } = .ok r) :
    ∃ m' : Block p, exec (.gwEval row tbl thread version live) { params := p, block := m } =
      .next { params := p, block := m' } ∧ m.OnlyAnswered m' (gatewayResponse m.gen r) :=
  ⟨_, exec_gwEval_ok hr ht hv hth hl, Block.answer_onlyAnswered (by rw [he]; rfl)⟩

/-- Settles O37: the scan hits at the lowest match, or misses, and its response is a hit's or a miss's. -/
theorem gwEvalAnswersLowestMatch : Obligations.GwEvalAnswersLowestMatch := by
  intro p m row tbl thread version live hr ht hv hth hl t x ctx hw
  constructor
  · intro i pl hm hlt hpl
    rw [← gatewayResponse_hit]
    exact exec_gwEval_onlyAnswered hr ht hv hth hl (evaluate_hit hw hm hlt hpl)
  · intro hno
    rw [← gatewayResponse_miss]
    exact exec_gwEval_onlyAnswered hr ht hv hth hl (evaluate_miss hw hno)

theorem Block.not_faulted_of_fault_eq {op : Opcode} {f : ConfigField} (h : m'.fault = m.fault) : ¬ m.Faulted m' op f :=
  fun hf => by simpa [h] using hf.fault

/-- The end of an evaluation faults exactly on the field its reads faulted on. -/
theorem Block.answer_faulted_iff {op : Opcode} {e : Except ConfigField Response} {f : ConfigField} :
    m.Faulted (m.answer op e) op f ↔ e = .error f := by
  refine ⟨fun h => ?_, Block.answer_faulted⟩
  cases e with
  | ok r => exact absurd h (Block.not_faulted_of_fault_eq (m.complete_onlyAnswered r).same.fault)
  | error f' => simpa using (m.recordFault_faulted op f').fault.symm.trans h.fault

/-- A response made from a value faults exactly where the value's reads do. -/
theorem bind_pure_eq_error_iff {α β : Type} {x : Except ConfigField α} {g : α → β} {f : ConfigField} :
    (x >>= fun r => pure (g r)) = .error f ↔ x = .error f := by
  cases x <;> simp [bind, Except.bind, pure, Except.pure]

/-- With its operands in range, GW_EVAL faults exactly where the scan does. -/
theorem exec_gwEval_faulted_iff_of_operands {row tbl : BitVec 8} {thread : BitVec 4} {version : BitVec 16}
    {live : List Word} {f : ConfigField} (hr : row.toNat < p.ROWS) (ht : tbl.toNat < p.TPR)
    (hv : version.toNat < 2 ^ p.V) (hth : thread.toNat < p.THREADS) (hl : wordsToNat live < 2 ^ p.W)
    (h : exec (.gwEval row tbl thread version live) { params := p, block := m } = .next { params := p, block := m' }) :
    m.Faulted m' .gwEval f ↔ evaluate m.act { row := ⟨row.toNat, hr⟩, tbl := ⟨tbl.toNat, ht⟩ }
      (BitVec.ofNat p.W (wordsToNat live)) { thread := thread, version := BitVec.ofNat p.V version.toNat } = .error f := by
  rw [next_inj (h.symm.trans (exec_gwEval_ok hr ht hv hth hl)), Block.answer_faulted_iff, bind_pure_eq_error_iff]

/-- GW_EVAL faults exactly where its checks pass and the scan faults. -/
theorem exec_gwEval_faulted_iff {row tbl : BitVec 8} {thread : BitVec 4} {version : BitVec 16} {live : List Word}
    {f : ConfigField}
    (h : exec (.gwEval row tbl thread version live) { params := p, block := m } = .next { params := p, block := m' }) :
    m.Faulted m' .gwEval f ↔ ∃ t : TableAddr p, t.row.val = row.toNat ∧ t.tbl.val = tbl.toNat ∧
      version.toNat < 2 ^ p.V ∧ thread.toNat < p.THREADS ∧ wordsToNat live < 2 ^ p.W ∧
      evaluate m.act t (BitVec.ofNat p.W (wordsToNat live))
        { thread := thread, version := BitVec.ofNat p.V version.toNat } = .error f := by
  constructor
  · intro hf
    cases hc : firstFailure m (.gwEval row tbl thread version live) with
    | some c =>
      rw [next_inj (h.symm.trans (exec_of_firstFailure hc))] at hf
      exact absurd hf (Block.not_faulted_of_fault_eq (m.reject_fault _ _))
    | none =>
      obtain ⟨-, hops, -⟩ := firstFailure_eq_none hc
      simp only [operandChecks, List.forall_mem_cons, Bool.and_eq_true, decide_eq_true_eq] at hops
      obtain ⟨⟨hr, ht⟩, hv, hth, hl, -⟩ := hops
      exact ⟨{ row := ⟨_, hr⟩, tbl := ⟨_, ht⟩ }, rfl, rfl, hv, hth, hl,
        (exec_gwEval_faulted_iff_of_operands hr ht hv hth hl h).mp hf⟩
  · rintro ⟨⟨⟨_, hr⟩, ⟨_, ht⟩⟩, rfl, rfl, hv, hth, hl, he⟩
    exact (exec_gwEval_faulted_iff_of_operands hr ht hv hth hl h).mpr he

/-- Settles O38: GW_EVAL faults where the scan does, which is on the payload of the lowest match. -/
theorem gwEvalFaultsOnWinnersPayload : Obligations.GwEvalFaultsOnWinnersPayload := by
  intro p m m' row tbl thread version live f hinv h
  rw [exec_gwEval_faulted_iff h]
  constructor
  · rintro ⟨t, hrow, htbl, hv, hth, hl, he⟩
    obtain ⟨i, hm, hlt, hpl, hf⟩ := (evaluate_eq_error_iff (hinv.tableWritten t)).mp he
    exact ⟨t, i, hrow, htbl, hv, hth, hl, hm, hlt, hpl, by rw [hf, hrow, htbl]⟩
  · rintro ⟨t, i, hrow, htbl, hv, hth, hl, hm, hlt, hpl, hf⟩
    exact ⟨t, hrow, htbl, hv, hth, hl,
      (evaluate_eq_error_iff (hinv.tableWritten t)).mpr ⟨i, hm, hlt, hpl, by rw [hf, hrow, htbl]⟩⟩

/-! ## The laws of the scan -/

/-- Settles O39: a hit comes from the lowest match, and the lowest match hits. -/
theorem hitIsTheLowestMatch : Obligations.HitIsTheLowestMatch := by
  intro p b t live ctx
  refine ⟨fun r h hr => ?_, fun hinv i pl hm hlt hpl => evaluate_hit (hinv.tableWritten t) hm hlt hpl⟩
  obtain ⟨i, pl, rfl, hpl, hm, hlt⟩ := lowest_of_evaluate_hit h hr
  exact ⟨i, pl, rfl, rfl, hpl, hm, fun j hj => not_lt.mp fun hji => hlt j hji hj⟩

theorem evaluate_of_all_invalid (h : ∀ i, (b.entryAt t i).valid = false) :
    evaluate b t live ctx = .ok (GatewayResult.miss p.P) :=
  evaluate_of_none fun i => entryPasses_of_invalid (h i)

/-- Settles O40: a table with `K = 0`, and every table of the reset bank, has no valid entry. -/
theorem allInvalidTableMisses : Obligations.AllInvalidTableMisses := fun _ _ _ _ _ =>
  ⟨evaluate_of_all_invalid,
    fun hK => evaluate_of_all_invalid fun i => (Fin.cast hK i).elim0,
    evaluate_of_all_invalid fun i => by rw [Bank.reset_entryAt]⟩

/-- An entry that matches a live word, and for which bit `k` is don't-care, matches every word that differs at most there. -/
theorem Bank.Matches.of_flip {i : Fin p.K} {dc : BitVec p.W} {k : Nat} (h : b.Matches t live ctx i)
    (hdc : (b.entryAt t i).dc = .val dc) (hk : dc.getLsbD k = true)
    (hflip : ∀ l, l < p.W → l ≠ k → live'.getLsbD l = live.getLsbD l) : b.Matches t live' ctx i :=
  h.of_agree hdc fun l hl hd => hflip l hl fun hlk => by simp [hlk, hk] at hd

/-- An entry that a flip of bit `k` makes match compares bit `k`, differs from the word before the flip there, and agrees with
it at the other bits it compares (R169). -/
theorem compares_flipped_bit {j : Fin p.K} {d v : BitVec p.W} {k : Nat} (hk : k < p.W)
    (hflip : ∀ l, l < p.W → live'.getLsbD l = (live.getLsbD l ^^ decide (l = k)))
    (hm : b.Matches t live' ctx j) (hno : ¬ b.Matches t live ctx j) (hd : (b.entryAt t j).dc = .val d)
    (hv : (b.entryAt t j).value = .val v) : d.getLsbD k = false ∧ live.getLsbD k ≠ v.getLsbD k ∧
      ∀ l, l < p.W → l ≠ k → d.getLsbD l = false → live.getLsbD l = v.getLsbD l := by
  have others : ∀ l, l < p.W → l ≠ k → live.getLsbD l = live'.getLsbD l := fun l hl hlk => by simp [hflip l hl, hlk]
  have hdk : d.getLsbD k = false := Bool.eq_false_of_not_eq_true fun hdk => hno (hm.of_flip hd hdk others)
  refine ⟨hdk, ?_, fun l hl hlk hdl => (others l hl hlk).trans (hm.getLsbD_eq hd hv l hl hdl)⟩
  rw [← hm.getLsbD_eq hd hv k hk hdk, hflip k hk]
  simp

/-- Settles O41: the flip leaves entry `i` a match, so it still wins, or loses to a lower entry that the flip made match. -/
theorem dontCareInvariance : Obligations.DontCareInvariance := by
  intro p b t live live' ctx i dc k pl hinv he hdc hk hdck hflip
  have hw := hinv.tableWritten t
  obtain ⟨i', pl', heq, hpl, hm, hlt⟩ := lowest_of_evaluate_hit he rfl
  obtain ⟨rfl, rfl⟩ : i = i' ∧ pl = pl' := by simpa [Fin.ext_iff] using heq
  constructor
  · intro hlt'
    exact evaluate_hit hw (hm.of_flip hdc hdck fun l hl hlk => by simp [hflip l hl, hlk]) hlt' hpl
  · intro j hji hmj hltj
    exact ⟨fun d v hd hv => compares_flipped_bit hk hflip hmj (hlt j hji) hd hv,
      fun pl' hpl' => evaluate_hit hw hmj hltj hpl'⟩

/-- Settles O42: the outcome at each entry reads that entry and `tmode`. -/
theorem evaluateReadsOneTable : Obligations.EvaluateReadsOneTable := by
  intro p b b' t live ctx hentry htmode
  have outcomes : entryOutcome b t live ctx = entryOutcome b' t live ctx := by
    funext i
    simp only [entryOutcome, entryPasses, hentry i, htmode]
  simp only [evaluate, outcomes]

end Sys2Proof.Machine
end

section
/-! The seven configuration writes on CFGP (R180 to R187): past its checks each stages the bank of its one update, which reads
what was written at the place it names and is unchanged everywhere else. -/

namespace Sys2Proof.Machine

variable {p : Params}

/-! ## The place an update writes and the others -/

/-- Two table addresses agree where their row and table numbers do (R93). -/
theorem TableAddr.eq_iff_val {t t' : TableAddr p} : t' = t ↔ t'.row.val = t.row.val ∧ t'.tbl.val = t.tbl.val := by
  cases t; cases t'; simp [Fin.ext_iff]

@[simp] theorem Bank.coefAt_setCoef_same (b : Bank p) (u : Fin p.U) (r : Fin p.M) (c : Fin p.N) (v : Bool) :
    (b.setCoef u r c v).coefAt u r c = .val v := by simp [Bank.coefAt_setCoef]

theorem Bank.coefAt_setCoef_ne (b : Bank p) {u u' : Fin p.U} {r r' : Fin p.M} {c c' : Fin p.N} (v : Bool)
    (h : ¬ (u'.val = u.val ∧ r'.val = r.val ∧ c'.val = c.val)) :
    (b.setCoef u r c v).coefAt u' r' c' = b.coefAt u' r' c' := by
  rw [Bank.coefAt_setCoef, if_neg (by simpa only [Fin.ext_iff] using h)]

@[simp] theorem Bank.maskAt_setMask_same (b : Bank p) (g : Fin p.G) (j : Fin p.LMAX) (v : BitVec p.N) :
    (b.setMask g j v).maskAt g j = .val v := by simp [Bank.maskAt_setMask]

theorem Bank.maskAt_setMask_ne (b : Bank p) {g g' : Fin p.G} {j j' : Fin p.LMAX} (v : BitVec p.N)
    (h : ¬ (g'.val = g.val ∧ j'.val = j.val)) : (b.setMask g j v).maskAt g' j' = b.maskAt g' j' := by
  rw [Bank.maskAt_setMask, if_neg (by simpa only [Fin.ext_iff] using h)]

theorem Bank.entryAt_setEntry_ne (b : Bank p) {t t' : TableAddr p} {i i' : Fin p.K} (e : GwEntry p)
    (h : ¬ (t'.row.val = t.row.val ∧ t'.tbl.val = t.tbl.val ∧ i'.val = i.val)) :
    (b.setEntry t i e).entryAt t' i' = b.entryAt t' i' := by
  rw [Bank.entryAt_setEntry, if_neg (by simpa only [TableAddr.eq_iff_val, Fin.ext_iff, and_assoc] using h)]

@[simp] theorem Bank.selectAt_setSelect_same (b : Bank p) (t : TableAddr p) (x : GwSelect) :
    (b.setSelect t x).selectAt t = x := by simp [Bank.selectAt_setSelect]

theorem Bank.selectAt_setSelect_ne (b : Bank p) {t t' : TableAddr p} (x : GwSelect)
    (h : ¬ (t'.row.val = t.row.val ∧ t'.tbl.val = t.tbl.val)) : (b.setSelect t x).selectAt t' = b.selectAt t' := by
  rw [Bank.selectAt_setSelect, if_neg (TableAddr.eq_iff_val.not.mpr h)]

/-! ## The writes -/

/-- Settles O21: the bank staged is the old one with that coefficient set. -/
theorem setCoefWritesOneCoefficient : Obligations.SetCoefWritesOneCoefficient :=
  fun _ m _ _ _ _ hu hr hc hcur => ⟨_, _, exec_setCoef_ok hcur hu hr hc, m.stage_staged _ _,
    m.stg.coefAt_setCoef_same _ _ _ _, fun _ _ _ h => m.stg.coefAt_setCoef_ne _ h, rfl, rfl, rfl, rfl, rfl, rfl⟩

/-- Settles O22: the bank staged is the old one with that seed set. -/
theorem setSeedWritesOneSeed : Obligations.SetSeedWritesOneSeed :=
  fun _ m _ _ hu hseed hcur => ⟨_, _, exec_setSeed_ok hcur hu hseed, m.stage_staged _ _,
    get_put_same _ _ _, fun _ h => get_put_ne _ _ (Fin.ne_of_val_ne h), rfl, rfl, rfl, rfl, rfl, rfl⟩

/-- Settles O23: the bank staged is the old one with both cells of that group set. -/
theorem setGroupWritesUnitAndWidth : Obligations.SetGroupWritesUnitAndWidth := by
  intro p m g u L hg hu hlo hhi hcur
  refine ⟨_, _, exec_setGroup_ok hcur hg hu ⟨hlo, hhi⟩, m.stage_staged _ _, get_put_same _ _ _, get_put_same _ _ _,
    fun g' h => ?_, rfl, rfl, rfl, rfl, rfl⟩
  have hne : g' ≠ ⟨g.toNat, hg⟩ := Fin.ne_of_val_ne h
  exact ⟨get_put_ne _ _ hne, get_put_ne _ _ hne⟩

/-- Settles O24: the bank staged is the old one with that mask set; no check reads the group's width. -/
theorem setPmaskWritesOneMask : Obligations.SetPmaskWritesOneMask :=
  fun _ m _ _ _ hg hj hmask hcur => ⟨_, _, exec_setPmask_ok hcur hg hj hmask, m.stage_staged _ _,
    m.stg.maskAt_setMask_same _ _ _, fun _ _ h => m.stg.maskAt_setMask_ne _ h, rfl, rfl, rfl, rfl, rfl, rfl⟩

/-- Settles O25: the bank staged is the old one with that entry replaced by itself under new match fields. -/
theorem setGwEntryWritesMatchFields : Obligations.SetGwEntryWritesMatchFields :=
  fun _ m _ _ _ _ _ _ _ hr ht hi hver hvalue hdc hcur =>
    ⟨_, _, exec_setGwEntry_ok hcur hr ht hi hver hvalue hdc, m.stage_staged _ _,
      m.stg.entryAt_setEntry_same _ _ _, fun _ _ h => m.stg.entryAt_setEntry_ne _ h, rfl, rfl, rfl, rfl, rfl, rfl⟩

/-- Settles O26: the bank staged is the old one with that entry replaced by itself under a new payload. -/
theorem setGwPayloadWritesOnePayload : Obligations.SetGwPayloadWritesOnePayload :=
  fun _ m _ _ _ _ hr ht hi hpayload hcur =>
    ⟨_, _, exec_setGwPayload_ok hcur hr ht hi hpayload, m.stage_staged _ _,
      m.stg.entryAt_setEntry_same _ _ _, fun _ _ h => m.stg.entryAt_setEntry_ne _ h, rfl, rfl, rfl, rfl, rfl, rfl⟩

/-- Settles O27: the bank staged is the old one with the selectors of that table set. -/
theorem setGwSelectWritesSelectors : Obligations.SetGwSelectWritesSelectors :=
  fun _ m _ _ _ _ _ hr ht hcur => ⟨_, _, exec_setGwSelect_ok hcur hr ht, m.stage_staged _ _,
    m.stg.selectAt_setSelect_same _ _, fun _ h => m.stg.selectAt_setSelect_ne _ h, rfl, rfl, rfl, rfl, rfl, rfl⟩

end Sys2Proof.Machine
end

section
/-! The control commands (R210 to R213): NOP on any port, and COMMIT, ABORT and CLEAR_ERR on CFGP, with the responses they give
bit by bit. -/

namespace Sys2Proof.Machine

variable {p : Params} {m m' : Block p}

/-! ## How a control command ends -/

/-- Banks, status and `GEN` may be set as a command completes: the answer and the ports are those of the command alone. -/
theorem Block.complete_answered_of_config (m : Block p) (stg act : Bank p) (status : CfgStatus) (gen : BitVec 32)
    (r : Response) :
    m.Answered ({ m with stg := stg, act := act, status := status, gen := gen }.complete r) r :=
  m.complete_answered_of_ports _ r rfl rfl rfl (Block.port_congr rfl rfl)

/-- The rejection of a command that is no configuration write is non-sticky, on CFGP too (R231, R234). -/
theorem Block.Rejected.onlyAnswered {h : Word} {c : Status} (hr : m.Rejected m' h c)
    (hw : isConfigWrite (Header.opc h) = false) : m.OnlyAnswered m' (rejection (Header.opc h) c) where
  answered := hr.answered
  same := ⟨hr.banks, by rw [hr.status, hw]; rfl, hr.gen, hr.fault⟩

/-! ## The responses -/

theorem commitResponse_eq (gen : BitVec 32) :
    commitResponse gen = { r0 := gen ++ (0x00001000 : BitVec 32), result := [] } := by
  rw [commitResponse, respWord_eq_append]
  rfl

theorem rejection_commit_loadFailed :
    rejection (Header.opc Instr.commit.header) .loadFailed = { r0 := 0x0000000000001010, result := [] } := by decide

theorem okResponse_abort : okResponse .abort = { r0 := 0x0000000000001100, result := [] } := by decide

theorem okResponse_clearErr : okResponse .clearErr = { r0 := 0x0000000000001200, result := [] } := by decide

theorem okResponse_nop : okResponse .nop = { r0 := 0x0000000000000000, result := [] } := by decide

/-! ## The commands -/

/-- Settles O17: past its checks COMMIT publishes the staged bank; with `ERR = 1` its last check fails, and since it is no
configuration write the rejection only answers. -/
theorem commitPublishesOrIsRefused : Obligations.CommitPublishesOrIsRefused := by
  intro p m hcur
  constructor
  · intro herr
    refine ⟨_, exec_commit_ok hcur herr, ?_, rfl, rfl, rfl, rfl, rfl⟩
    rw [← commitResponse_eq]
    exact m.complete_answered_of_config m.stg m.stg m.status (m.gen + 1) _
  · intro herr
    refine ⟨_, exec_commit_of_err hcur herr, ?_⟩
    rw [← rejection_commit_loadFailed]
    exact (m.reject_rejected _ _).onlyAnswered (by decide)

/-- Settles O18: the block ABORT completes has the active bank staged and the status of reset. -/
theorem abortRestoresStagedBank : Obligations.AbortRestoresStagedBank := by
  intro p m hcur
  refine ⟨_, exec_abort_ok hcur, ?_, rfl, rfl, rfl, rfl, rfl⟩
  rw [← okResponse_abort]
  exact m.complete_answered_of_config m.act m.act CfgStatus.reset m.gen _

/-- Settles O19: the block CLEAR_ERR completes differs from the old one in the status alone, which is that of reset. -/
theorem clearErrKeepsStagedBank : Obligations.ClearErrKeepsStagedBank := by
  intro p m hcur
  refine ⟨_, exec_clearErr_ok hcur, ?_, rfl, rfl, rfl, rfl, rfl⟩
  rw [← okResponse_clearErr]
  exact m.complete_answered_of_config m.stg m.act CfgStatus.reset m.gen _

/-- Settles O16: NOP has no check to pass, and its response is the word 0 because the opcode of NOP and the code `OK` are. -/
theorem nopOnlyAnswers : Obligations.NopOnlyAnswers := by
  intro p m
  rw [← okResponse_nop]
  exact ⟨_, exec_nop_ok, m.complete_onlyAnswered _⟩

end Sys2Proof.Machine
end

section
/-! Rejections, faulted ports and the end of a run (R231 to R236, R240, R275): where a step has no turn to take. -/

namespace Sys2Proof.Machine

variable {p : Params} {m : Block p}

/-- Settles O43: the first failing check decides the instruction's meaning, which is then the one shared rejection. -/
theorem firstFailingCheckRejects : Obligations.FirstFailingCheckRejects := fun _ m i c hf =>
  ⟨m.reject i.header c, exec_of_firstFailure hf, m.reject_rejected i.header c⟩

/-- Settles O52: a step that serves a frame moves the port in turn alone, and a port with a recorded fault is never that
port. -/
theorem faultedPortStandsStill : Obligations.FaultedPortStandsStill := by
  intro p m m' t q ht hr hfaulted h
  cases t with
  | reset m1 => exact absurd ⟨m1, rfl⟩ hr
  | serve fr m1 =>
    obtain ⟨-, hothers, -⟩ := onePortMovesByOneCommand p m m1 m' fr ht h
    refine hothers q ?_
    rintro rfl
    obtain ⟨q', es, k, rfl, hpending⟩ := Block.nextTurn_serve ht
    exact (Block.pending_eq_some hpending).1 hfaulted

/-! ## The end of a run -/

/-- Where no port can step, every turn of the schedule is passed over (log entry 10). -/
theorem Block.scheduled_eq_none (hp : ∀ q, m.pending q = none) {es : List (Event p.E)} (hr : .reset ∉ es) :
    m.scheduled es = none := by
  induction es with
  | nil => rfl
  | cons e es ih =>
    cases e with
    | reset => simp at hr
    | turn q =>
      rw [m.scheduled_skip q es (hp q)]
      exact ih fun h => hr (List.mem_cons_of_mem _ h)

/-- Where no port can step, there is no turn beyond the schedule either. -/
theorem Block.unscheduled_eq_none (hp : ∀ q, m.pending q = none) : m.unscheduled = none := by
  have hready : m.ready = [] := by simp [Block.ready, hp]
  simp [Block.unscheduled, hready]

/-- There is no next turn exactly where reset is not due and every port has faulted or has no command left (R240, R275). -/
theorem Block.nextTurn_eq_none_iff : m.nextTurn = none ↔
    Event.reset ∉ m.schedule ∧ ∀ q, (∃ r ∈ m.fault, r.port = q) ∨ (m.port q).prog.length ≤ (m.port q).pc := by
  simp only [← Block.pending_eq_none]
  constructor
  · intro ht
    rcases m.nextTurn_cases with ⟨q, fr, es, k, h, -⟩ | ⟨es, h⟩ | ⟨-, hp, hr⟩
    · simp [ht] at h
    · simp [ht] at h
    · exact ⟨hr, hp⟩
  · rintro ⟨hr, hp⟩
    simp only [Block.nextTurn, Block.scheduled_eq_none hp hr, Block.unscheduled_eq_none hp]

/-- A block is final exactly where `FAULT` is empty and every port stands at the end of its stream (R275). -/
theorem Block.final_iff : m.final = true ↔ m.fault = [] ∧ ∀ q, (m.port q).pc = (m.port q).prog.length := by
  simp [Block.final, Block.finished, mem_allPorts]

/-- Settles O12: a step without a next turn stops, by the block's being final or not; with one it answers a next state. -/
theorem stepStopsExactlyAtTheEnd : Obligations.StepStopsExactlyAtTheEnd := by
  intro p m hl
  rw [← Block.nextTurn_eq_none_iff, ← Block.final_iff]
  constructor
  · intro ht
    exact ⟨fun hfinal => by rw [step_none hl ht, if_pos hfinal], fun hnot => by rw [step_none hl ht, if_neg hnot]⟩
  · intro ht
    obtain ⟨t, ht⟩ := Option.ne_none_iff_exists'.mp ht
    exact step_next hl ht

end Sys2Proof.Machine
end

section
/-! Reset applied in one step (R260, R261), and why nothing faults under the policy `Zero` (R262): its reset writes every cell
of both banks, no command makes a cell unwritten, and an evaluation over a written bank answers. -/

namespace Sys2Proof.Machine

variable {p : Params} {m m1 m' : Block p} {b : Bank p}

/-! ## Reset in one step -/

/-- Reset at the head of the schedule is the next turn (log entry 9). -/
theorem Block.nextTurn_of_reset {es : List (Event p.E)} (hs : m.schedule = .reset :: es) :
    m.nextTurn = some (.reset { m with schedule := es }) := by
  simp [Block.nextTurn, hs, Block.scheduled]

/-- Settles O15: the step is `applyReset` of the block with its schedule moved on. -/
theorem resetAppliedInOneStep : Obligations.ResetAppliedInOneStep := by
  intro p m es hl hs
  refine ⟨_, step_reset hl (Block.nextTurn_of_reset hs), rfl, rfl, rfl, rfl, rfl, rfl, fun q => ?_⟩
  rw [Block.applyReset_port]
  cases q <;> rfl

/-! ## Written banks -/

/-- Under the policy `Zero` every cell is written after reset; a group's unit is, because a legal tuple has a unit 0. -/
theorem Bank.reset_allWritten (hl : legalParams p = true) (hz : p.resetPolicy = .zero) : (Bank.reset p).AllWritten := by
  obtain ⟨⟨hU, -⟩, -⟩ := (legalParams_iff p).mp hl
  constructor <;> intros <;> simp [resetCell_of_zero hz, resetUnit_of_pos hU]

theorem isWritten_ite {α : Type} {P : Prop} [Decidable P] {c d : Cell α} (hc : isWritten c = true)
    (hd : isWritten d = true) : isWritten (if P then c else d) = true := by
  split
  · exact hc
  · exact hd

theorem Bank.AllWritten.setCoef (h : b.AllWritten) (u r c v) : (b.setCoef u r c v).AllWritten where
  __ := h
  coef u' r' c' := by
    rw [Bank.coefAt_setCoef]
    exact isWritten_ite rfl (h.coef u' r' c')

theorem Bank.AllWritten.setSeed (h : b.AllWritten) (u v) : (b.setSeed u v).AllWritten where
  __ := h
  seed u' := by
    rw [Bank.setSeed_seed, get_put]
    exact isWritten_ite rfl (h.seed u')

theorem Bank.AllWritten.setGroup (h : b.AllWritten) (g u L) : (b.setGroup g u L).AllWritten where
  __ := h
  gunit g' := by
    rw [Bank.setGroup_gunit, get_put]
    exact isWritten_ite rfl (h.gunit g')
  gwidth g' := by
    rw [Bank.setGroup_gwidth, get_put]
    exact isWritten_ite rfl (h.gwidth g')

theorem Bank.AllWritten.setMask (h : b.AllWritten) (g j v) : (b.setMask g j v).AllWritten where
  __ := h
  gmask g' j' := by
    rw [Bank.maskAt_setMask]
    exact isWritten_ite rfl (h.gmask g' j')

/-- Every cell of the entry is written. -/
structure GwEntry.AllWritten (e : GwEntry p) : Prop where
  ver : isWritten e.ver = true
  value : isWritten e.value = true
  dc : isWritten e.dc = true
  payload : isWritten e.payload = true

theorem Bank.AllWritten.entryAt (h : b.AllWritten) (t : TableAddr p) (i : Fin p.K) : (b.entryAt t i).AllWritten :=
  ⟨h.ver t i, h.value t i, h.dc t i, h.payload t i⟩

theorem Bank.AllWritten.setEntry (h : b.AllWritten) (t : TableAddr p) (i : Fin p.K) {e : GwEntry p} (he : e.AllWritten) :
    (b.setEntry t i e).AllWritten := by
  have hentry : ∀ t' i', ((b.setEntry t i e).entryAt t' i').AllWritten := by
    intro t' i'
    rw [Bank.entryAt_setEntry]
    split
    · exact he
    · exact h.entryAt t' i'
  exact { h with
    ver := fun t' i' => (hentry t' i').ver
    value := fun t' i' => (hentry t' i').value
    dc := fun t' i' => (hentry t' i').dc
    payload := fun t' i' => (hentry t' i').payload }

theorem Bank.AllWritten.setSelect (h : b.AllWritten) (t : TableAddr p) (in0 in1 : BitVec 16) (tmode : BitVec 8) :
    (b.setSelect t { in0 := .val in0, in1 := .val in1, tmode := .val tmode }).AllWritten where
  __ := h
  in0 t' := by
    rw [Bank.selectAt_setSelect, apply_ite GwSelect.in0]
    exact isWritten_ite rfl (h.in0 t')
  in1 t' := by
    rw [Bank.selectAt_setSelect, apply_ite GwSelect.in1]
    exact isWritten_ite rfl (h.in1 t')
  tmode t' := by
    rw [Bank.selectAt_setSelect, apply_ite GwSelect.tmode]
    exact isWritten_ite rfl (h.tmode t')

/-- An instruction keeps the staged bank written: each of its updates writes values. -/
theorem exec_stg_allWritten {i : Instr} (hs : m.stg.AllWritten) (ha : m.act.AllWritten)
    (h : exec i { params := p, block := m } = .next { params := p, block := m' }) : m'.stg.AllWritten := by
  rcases exec_stg_cases h with e | e | ⟨u, r, c, v, e⟩ | ⟨u, v, e⟩ | ⟨g, u, L, -, e⟩ | ⟨g, j, v, e⟩ |
    ⟨t, k, valid, value, dc, ver, e⟩ | ⟨t, k, pl, e⟩ | ⟨t, in0, in1, tmode, e⟩ <;> rw [e]
  · exact hs
  · exact ha
  · exact hs.setCoef u r c v
  · exact hs.setSeed u v
  · exact hs.setGroup g u L
  · exact hs.setMask g j v
  · exact hs.setEntry t k ⟨rfl, rfl, rfl, hs.payload t k⟩
  · exact hs.setEntry t k ⟨hs.ver t k, hs.value t k, hs.dc t k, rfl⟩
  · exact hs.setSelect t in0 in1 tmode

theorem exec_act_allWritten {i : Instr} (hs : m.stg.AllWritten) (ha : m.act.AllWritten)
    (h : exec i { params := p, block := m } = .next { params := p, block := m' }) : m'.act.AllWritten := by
  rcases exec_act_cases h with e | e <;> rw [e]
  · exact ha
  · exact hs

/-! ## Evaluations over a written bank -/

theorem Bank.AllWritten.unitWritten (h : b.AllWritten) (u : Fin p.U) : b.UnitWritten u := h.coef u

theorem Bank.AllWritten.tableWritten (h : b.AllWritten) (t : TableAddr p) : b.TableWritten t :=
  fun i _ => ⟨h.ver t i, h.value t i, h.dc t i⟩

theorem Bank.AllWritten.seeded_eq_ok (h : b.AllWritten) (u : Fin p.U) (x : BitVec p.M) : ∃ v, seeded b u x = .ok v := by
  obtain ⟨seed, hseed⟩ := (isWritten_iff _).mp (h.seed u)
  exact ⟨_, seeded_of_written (h.unitWritten u) hseed x⟩

/-- The scan's one fault, on an unwritten payload, cannot be raised (R168). -/
theorem Bank.AllWritten.evaluate_eq_ok (h : b.AllWritten) (t : TableAddr p) (live : BitVec p.W) (ctx : Context p.V) :
    ∃ r, evaluate b t live ctx = .ok r := by
  cases he : evaluate b t live ctx with
  | ok r => exact ⟨r, rfl⟩
  | error f =>
    obtain ⟨i, -, -, hpl, -⟩ := (evaluate_eq_error_iff (h.tableWritten t)).mp he
    simpa [hpl] using h.payload t i

/-- Past its checks an evaluation over a written active bank completes with a response. -/
theorem exec_evaluation_completes {i : Instr} (hev : isEvaluation i.opcode = true)
    (hc : ∀ x ∈ operandChecks p i, x.1 = true) (ha : m.act.AllWritten) :
    ∃ r, exec i { params := p, block := m } = .next { params := p, block := m.complete r } := by
  cases i with
  | hashRaw u x =>
    simp only [operandChecks, List.forall_mem_cons, decide_eq_true_eq] at hc
    obtain ⟨hu, hx, -⟩ := hc
    exact ⟨_, by rw [exec_hashRaw_ok hu hx, compute_of_written (ha.unitWritten _)]; rfl⟩
  | hash u x =>
    simp only [operandChecks, List.forall_mem_cons, decide_eq_true_eq] at hc
    obtain ⟨hu, hx, -⟩ := hc
    obtain ⟨v, hv⟩ := ha.seeded_eq_ok ⟨u.toNat, hu⟩ (BitVec.ofNat p.M (wordsToNat x))
    exact ⟨_, by rw [exec_hash_ok hu hx, hv]; rfl⟩
  | hgroup g x =>
    simp only [operandChecks, List.forall_mem_cons, decide_eq_true_eq] at hc
    obtain ⟨hg, hx, -⟩ := hc
    obtain ⟨u, hunit⟩ := (isWritten_iff _).mp (ha.gunit ⟨g.toNat, hg⟩)
    obtain ⟨L, hwidth⟩ := (isWritten_iff _).mp (ha.gwidth ⟨g.toNat, hg⟩)
    obtain ⟨v, hv⟩ := ha.seeded_eq_ok u (BitVec.ofNat p.M (wordsToNat x))
    exact ⟨_, by
      rw [exec_hgroup_of_seeded hg hx hunit hwidth hv, groupValue_eq_groupBits fun j _ => ha.gmask ⟨g.toNat, hg⟩ j]
      rfl⟩
  | gwEval row tbl thread version live =>
    simp only [operandChecks, List.forall_mem_cons, Bool.and_eq_true, decide_eq_true_eq] at hc
    obtain ⟨⟨hr, ht⟩, hv, hth, hl, -⟩ := hc
    obtain ⟨r, he⟩ := ha.evaluate_eq_ok { row := ⟨row.toNat, hr⟩, tbl := ⟨tbl.toNat, ht⟩ }
      (BitVec.ofNat p.W (wordsToNat live)) { thread := thread, version := BitVec.ofNat p.V version.toNat }
    exact ⟨_, by rw [exec_gwEval_ok hr ht hv hth hl, he]; rfl⟩
  | _ => simp [isEvaluation, Instr.opcode] at hev

/-- Over a written active bank no instruction records a fault. -/
theorem exec_fault_eq_of_allWritten {i : Instr} (ha : m.act.AllWritten)
    (h : exec i { params := p, block := m } = .next { params := p, block := m' }) : m'.fault = m.fault := by
  cases hf : firstFailure m i with
  | some c =>
    rw [next_inj (h.symm.trans (exec_of_firstFailure hf))]
    exact m.reject_fault _ _
  | none =>
    rcases exec_moves h with ⟨r, -, hfault⟩ | ⟨hev, -⟩
    · exact hfault
    · obtain ⟨-, hc, -⟩ := firstFailure_eq_none hf
      obtain ⟨r, hr⟩ := exec_evaluation_completes hev hc ha
      rw [next_inj (h.symm.trans hr), Block.complete_fault]

/-! ## The step -/

/-- A served frame keeps both banks written and records no fault: a rejection changes neither, and an instruction keeps
both. -/
theorem step_serve_allWritten {fr : Frame} (ht : m.nextTurn = some (.serve fr m1)) (hs : m.stg.AllWritten)
    (ha : m.act.AllWritten) (h : step { params := p, block := m } = .next { params := p, block := m' }) :
    m'.stg.AllWritten ∧ m'.act.AllWritten ∧ m'.fault = m.fault := by
  obtain ⟨⟨hstg, hact⟩, -, -, hfault⟩ := Block.nextTurn_serve_sameConfig ht
  rw [← hstg] at hs
  rw [← hact] at ha
  rw [← hfault]
  rcases step_serve_cases ht h with ⟨c, -, rfl⟩ | ⟨i, -, -, he⟩
  · simpa using ⟨hs, ha⟩
  · exact ⟨exec_stg_allWritten hs ha he, exec_act_allWritten hs ha he, exec_fault_eq_of_allWritten ha he⟩

/-- Settles O56: reset under `Zero` writes both banks and empties `FAULT`, and a served frame keeps both banks written and
`FAULT` as it was. -/
theorem zeroPolicyNeverFaults : Obligations.ZeroPolicyNeverFaults := by
  intro p hl hz
  have hreset := Bank.reset_allWritten hl hz
  refine ⟨⟨hreset, hreset⟩, fun m m' hs ha h => ?_⟩
  obtain ⟨-, ⟨fr, m1, -, ht, -⟩ | ⟨fr, m1, -, -, ht, -⟩ | ⟨m1, -, rfl⟩⟩ := step_cases h
  · exact (step_serve_allWritten ht hs ha h).imp_right (.imp_right .inl)
  · exact (step_serve_allWritten ht hs ha h).imp_right (.imp_right .inl)
  · exact ⟨hreset, hreset, .inr rfl⟩

end Sys2Proof.Machine
end
